-- ==== Sys2Proof/Word.lean ====
section
/-! DEFINITION. The word of the block and the width of a request's VAL field. Every value is an unsigned 32-bit
word unless its width is stated (00_scope.md R15); bit 0 is the least significant bit (R14, log 18). -/

namespace Sys2Proof

/-- A 32-bit word: a register's value, an address, a request word (00_scope.md R8, R15). -/
abbrev Word := BitVec 32

/-- The VAL field of a request word, 3 bits (30_encoding.md R112). -/
abbrev Val := BitVec 3

end Sys2Proof
end

