-- ==== Sys2Proof/Syntax.lean ====
section
/-! DEFINITION. The operations of the block, one constructor per row of the opcode table (30_encoding.md R113).
A pin operand is an unbounded number, so that F_PIN_RANGE has a meaning (30_encoding.md R111, 60_exceptions.md
R242, log 9); a VAL operand is the 3-bit field, whose domain is checked after decoding (R114, R118). The operands
A, D0, D1 and REC are registers of the sequencer (10_state.md R31), not parts of the request word. -/

namespace Sys2Proof

/-- The 29 operations of 30_encoding.md R113, with the operands their request word carries. -/
inductive Instr where
  | read32
  | write32
  | rmw32
  | readLevel (pin : Nat)
  | readOutput (pin : Nat)
  | setOutput (pin : Nat)
  | clearOutput (pin : Nat)
  | writeOutput (pin : Nat) (val : Val)
  | getDirection (pin : Nat)
  | setDirection (pin : Nat) (val : Val)
  | readLatch
  | getLatch (pin : Nat)
  | clearLatch (pin : Nat)
  | getDetectMode
  | setDetectMode (val : Val)
  | readConfigRaw (pin : Nat)
  | readConfig (pin : Nat)
  | configure (pin : Nat)
  | update (pin : Nat)
  | getCfgDir (pin : Nat)
  | getInput (pin : Nat)
  | getPull (pin : Nat)
  | getDrive (pin : Nat)
  | getSense (pin : Nat)
  | setCfgDir (pin : Nat) (val : Val)
  | setInput (pin : Nat) (val : Val)
  | setPull (pin : Nat) (val : Val)
  | setDrive (pin : Nat) (val : Val)
  | setSense (pin : Nat) (val : Val)
  deriving DecidableEq, Repr

end Sys2Proof
end

