-- ==== Sys2Proof/Machine/Types.lean ====
section
/-! DEFINITION. The named values of the spec: the enumerations of a configuration record, the record and its bus
form, the operation names, the registers of a port, and the fault codes. -/

namespace Sys2Proof.Machine

/-- DIR_IN and DIR_OUT (00_scope.md R21). -/
inductive Dir where
  | input
  | output
  deriving DecidableEq, Repr

/-- IBUF_CONNECT and IBUF_DISCONNECT (00_scope.md R21). -/
inductive IBuf where
  | connect
  | disconnect
  deriving DecidableEq, Repr

/-- PULL_NONE, PULL_DOWN and PULL_UP; code 2 is not a value (30_encoding.md R102, R103). -/
inductive Pull where
  | none
  | down
  | up
  deriving DecidableEq, Repr

/-- DRIVE0 to DRIVE7, opaque codes, all legal (00_scope.md R22). -/
abbrev Drive := BitVec 3

/-- SENSE_OFF, SENSE_HIGH and SENSE_LOW; code 1 is not a value (30_encoding.md R102, R103). -/
inductive Sense where
  | off
  | high
  | low
  deriving DecidableEq, Repr

/-- A configuration record (30_encoding.md R102). -/
structure Record where
  dir   : Dir
  input : IBuf
  pull  : Pull
  drive : Drive
  sense : Sense
  deriving DecidableEq, Repr

/-- The record operand REC as its five buses, which can carry a reserved code (30_encoding.md R116). -/
structure RecBus where
  dir   : BitVec 1
  input : BitVec 1
  pull  : BitVec 2
  drive : BitVec 3
  sense : BitVec 2
  deriving DecidableEq, Repr

/-- The five fields of a configuration word (30_encoding.md R100). -/
inductive Field where
  | dir
  | input
  | pull
  | drive
  | sense
  deriving DecidableEq, Repr

/-- The operation names of 30_encoding.md R113, as HOLD and a completion event carry them (10_state.md R35, R53). -/
inductive Op where
  | read32 | write32 | rmw32
  | readLevel | readOutput | setOutput | clearOutput | writeOutput | getDirection | setDirection
  | readLatch | getLatch | clearLatch | getDetectMode | setDetectMode
  | readConfigRaw | readConfig | configure | update
  | getCfgDir | getInput | getPull | getDrive | getSense
  | setCfgDir | setInput | setPull | setDrive | setSense
  deriving DecidableEq, Repr

/-- The registers of a port window (10_state.md R43). -/
inductive Reg where
  | out
  | outset
  | outclr
  | inp
  | dir
  | dirset
  | dirclr
  | latch
  | detectmode
  | pinCnf (n : Fin 32)
  deriving DecidableEq, Repr

/-- The fault codes of 60_exceptions.md R240. -/
inductive FaultCode where
  | illegalOp
  | reservedReq
  | pinRange
  | badValue
  | badRecord
  | misaligned
  | unmapped
  | writeOnlyRead
  | readOnlyWrite
  | reservedFieldWrite
  | reservedFieldRead
  | unwrittenResult
  deriving DecidableEq, Repr

/-- The number of a fault code (60_exceptions.md R240). -/
def FaultCode.number : FaultCode → Nat
  | .illegalOp => 1
  | .reservedReq => 2
  | .pinRange => 3
  | .badValue => 4
  | .badRecord => 5
  | .misaligned => 6
  | .unmapped => 7
  | .writeOnlyRead => 8
  | .readOnlyWrite => 9
  | .reservedFieldWrite => 10
  | .reservedFieldRead => 11
  | .unwrittenResult => 12

/-- A result register of a sequencer (10_state.md R32), named by F_UNWRITTEN_RESULT (60_exceptions.md R240). -/
inductive ResultReg where
  | rdata
  | rrec
  deriving DecidableEq, Repr

/-- What FINFO records beside the request word and A ("info recorded", 60_exceptions.md R240). -/
inductive Detail where
  | nothing
  | pin (n : Nat)
  | record (r : RecBus)
  | address (a : Word)
  | register (r : ResultReg)
  deriving DecidableEq, Repr

/-- A fault a check raises: its code and the detail it records (`raise Fault(code, info)`, 00_scope.md R16). -/
structure Raise where
  code   : FaultCode
  detail : Detail
  deriving DecidableEq, Repr

/-- The agents that make bus accesses: a sequencer or another bus master (10_state.md R30, 00_scope.md R23). -/
inductive Agent where
  | seq (k : Nat)
  | other
  deriving DecidableEq, Repr

/-- The two kinds of bus access (00_scope.md R23). -/
inductive AccessKind where
  | read
  | write
  deriving DecidableEq, Repr

/-- The result a completion event carries: none, a word, or a record (10_state.md R53, 42_config.md R201). -/
inductive Result where
  | noValue
  | word (w : Word)
  | record (r : Record)
  deriving DecidableEq, Repr

/-- The events of the history (10_state.md R53, 20_memory.md R84, R85, 70_reset_and_hazards.md R271). -/
inductive Event where
  | bus (agent : Agent) (kind : AccessKind) (addr value : Word)
  | envIn (base value : Word)
  | envLatch (base mask : Word)
  | done (k : Nat) (op : Op) (result : Result)
  | reset
  deriving DecidableEq, Repr

end Sys2Proof.Machine
end

