-- ==== Sys2Proof/Decode.lean ====
section
/-! DEFINITION. The request word: opcode map, match and mask of each row, the decoder, total on all 32-bit words,
and the encoder (30_encoding.md R112 to R118). -/

namespace Sys2Proof

open Sys2Proof.Machine

/-- The operation an instruction carries out. -/
def Instr.op : Instr → Op
  | .read32 => .read32
  | .write32 => .write32
  | .rmw32 => .rmw32
  | .readLevel _ => .readLevel
  | .readOutput _ => .readOutput
  | .setOutput _ => .setOutput
  | .clearOutput _ => .clearOutput
  | .writeOutput _ _ => .writeOutput
  | .getDirection _ => .getDirection
  | .setDirection _ _ => .setDirection
  | .readLatch => .readLatch
  | .getLatch _ => .getLatch
  | .clearLatch _ => .clearLatch
  | .getDetectMode => .getDetectMode
  | .setDetectMode _ => .setDetectMode
  | .readConfigRaw _ => .readConfigRaw
  | .readConfig _ => .readConfig
  | .configure _ => .configure
  | .update _ => .update
  | .getCfgDir _ => .getCfgDir
  | .getInput _ => .getInput
  | .getPull _ => .getPull
  | .getDrive _ => .getDrive
  | .getSense _ => .getSense
  | .setCfgDir _ _ => .setCfgDir
  | .setInput _ _ => .setInput
  | .setPull _ _ => .setPull
  | .setDrive _ _ => .setDrive
  | .setSense _ _ => .setSense

/-- The pin operand, where the operation takes one (30_encoding.md R113, the PIN column). -/
def Instr.pin? : Instr → Option Nat
  | .read32 => none
  | .write32 => none
  | .rmw32 => none
  | .readLevel n => some n
  | .readOutput n => some n
  | .setOutput n => some n
  | .clearOutput n => some n
  | .writeOutput n _ => some n
  | .getDirection n => some n
  | .setDirection n _ => some n
  | .readLatch => none
  | .getLatch n => some n
  | .clearLatch n => some n
  | .getDetectMode => none
  | .setDetectMode _ => none
  | .readConfigRaw n => some n
  | .readConfig n => some n
  | .configure n => some n
  | .update n => some n
  | .getCfgDir n => some n
  | .getInput n => some n
  | .getPull n => some n
  | .getDrive n => some n
  | .getSense n => some n
  | .setCfgDir n _ => some n
  | .setInput n _ => some n
  | .setPull n _ => some n
  | .setDrive n _ => some n
  | .setSense n _ => some n

/-- The VAL operand, where the operation takes one (30_encoding.md R113, the VAL column). -/
def Instr.val? : Instr → Option Val
  | .read32 => none
  | .write32 => none
  | .rmw32 => none
  | .readLevel _ => none
  | .readOutput _ => none
  | .setOutput _ => none
  | .clearOutput _ => none
  | .writeOutput _ v => some v
  | .getDirection _ => none
  | .setDirection _ v => some v
  | .readLatch => none
  | .getLatch _ => none
  | .clearLatch _ => none
  | .getDetectMode => none
  | .setDetectMode v => some v
  | .readConfigRaw _ => none
  | .readConfig _ => none
  | .configure _ => none
  | .update _ => none
  | .getCfgDir _ => none
  | .getInput _ => none
  | .getPull _ => none
  | .getDrive _ => none
  | .getSense _ => none
  | .setCfgDir _ v => some v
  | .setInput _ v => some v
  | .setPull _ v => some v
  | .setDrive _ v => some v
  | .setSense _ v => some v

/-- The opcode of an operation (30_encoding.md R113). -/
def opcode : Op → BitVec 6
  | .read32 => 0x01
  | .write32 => 0x02
  | .rmw32 => 0x03
  | .readLevel => 0x08
  | .readOutput => 0x09
  | .setOutput => 0x0A
  | .clearOutput => 0x0B
  | .writeOutput => 0x0C
  | .getDirection => 0x0D
  | .setDirection => 0x0E
  | .readLatch => 0x0F
  | .getLatch => 0x10
  | .clearLatch => 0x11
  | .getDetectMode => 0x12
  | .setDetectMode => 0x13
  | .readConfigRaw => 0x18
  | .readConfig => 0x19
  | .configure => 0x1A
  | .update => 0x1B
  | .getCfgDir => 0x20
  | .getInput => 0x21
  | .getPull => 0x22
  | .getDrive => 0x23
  | .getSense => 0x24
  | .setCfgDir => 0x28
  | .setInput => 0x29
  | .setPull => 0x2A
  | .setDrive => 0x2B
  | .setSense => 0x2C

/-- The operations in the opcode table's order (30_encoding.md R113). -/
def allOps : List Op :=
  [.read32, .write32, .rmw32, .readLevel, .readOutput, .setOutput, .clearOutput, .writeOutput, .getDirection,
   .setDirection, .readLatch, .getLatch, .clearLatch, .getDetectMode, .setDetectMode, .readConfigRaw, .readConfig,
   .configure, .update, .getCfgDir, .getInput, .getPull, .getDrive, .getSense, .setCfgDir, .setInput, .setPull,
   .setDrive, .setSense]

/-- The operation an OP field names, none for the 35 unassigned values (30_encoding.md R113, R117). -/
def opOfCode (c : BitVec 6) : Option Op :=
  allOps.find? fun op => opcode op == c

/-- The four request formats, by which of PIN and VAL the operation uses (30_encoding.md R112). -/
def usesPin : Op → Bool
  | .read32 | .write32 | .rmw32 | .readLatch | .getDetectMode | .setDetectMode => false
  | .readLevel | .readOutput | .setOutput | .clearOutput | .writeOutput | .getDirection | .setDirection
  | .getLatch | .clearLatch | .readConfigRaw | .readConfig | .configure | .update | .getCfgDir | .getInput
  | .getPull | .getDrive | .getSense | .setCfgDir | .setInput | .setPull | .setDrive | .setSense => true

/-- Whether the operation's VAL column is not 0 (30_encoding.md R113). -/
def usesVal : Op → Bool
  | .writeOutput | .setDirection | .setDetectMode | .setCfgDir | .setInput | .setPull | .setDrive | .setSense => true
  | .read32 | .write32 | .rmw32 | .readLatch | .getDetectMode | .readLevel | .readOutput | .setOutput
  | .clearOutput | .getDirection | .getLatch | .clearLatch | .readConfigRaw | .readConfig | .configure | .update
  | .getCfgDir | .getInput | .getPull | .getDrive | .getSense => false

/-- The `mask` column of the operation's row: formats N, P, V and PV (30_encoding.md R112, R115). -/
def requestMask (op : Op) : Word :=
  match usesPin op, usesVal op with
  | false, false => 0xFFFFFFFF
  | true, false => 0xFFFFE0FF
  | false, true => 0xFFF8FFFF
  | true, true => 0xFFF8E0FF

/-- The `match` column of the operation's row: the OP value (30_encoding.md R112, R115). -/
def requestMatch (op : Op) : Word :=
  (opcode op).setWidth 32

/-- The instruction of an operation with a pin and a value, each dropped where the row has none. -/
def Instr.make (op : Op) (pin : Nat) (val : Val) : Instr :=
  match op with
  | .read32 => .read32
  | .write32 => .write32
  | .rmw32 => .rmw32
  | .readLevel => .readLevel pin
  | .readOutput => .readOutput pin
  | .setOutput => .setOutput pin
  | .clearOutput => .clearOutput pin
  | .writeOutput => .writeOutput pin val
  | .getDirection => .getDirection pin
  | .setDirection => .setDirection pin val
  | .readLatch => .readLatch
  | .getLatch => .getLatch pin
  | .clearLatch => .clearLatch pin
  | .getDetectMode => .getDetectMode
  | .setDetectMode => .setDetectMode val
  | .readConfigRaw => .readConfigRaw pin
  | .readConfig => .readConfig pin
  | .configure => .configure pin
  | .update => .update pin
  | .getCfgDir => .getCfgDir pin
  | .getInput => .getInput pin
  | .getPull => .getPull pin
  | .getDrive => .getDrive pin
  | .getSense => .getSense pin
  | .setCfgDir => .setCfgDir pin val
  | .setInput => .setInput pin val
  | .setPull => .setPull pin val
  | .setDrive => .setDrive pin val
  | .setSense => .setSense pin val

/-- The OP field, bits 5:0 (30_encoding.md R112). -/
def fieldOp (w : Word) : BitVec 6 :=
  w.extractLsb' 0 6

/-- The PIN field, bits 12:8 (30_encoding.md R112). -/
def fieldPin (w : Word) : BitVec 5 :=
  w.extractLsb' 8 5

/-- The VAL field, bits 18:16 (30_encoding.md R112). -/
def fieldVal (w : Word) : Val :=
  w.extractLsb' 16 3

/-- The decoder of a request word: an operation with its PIN and VAL, or the verdict F_ILLEGAL_OP or
F_RESERVED_REQ (30_encoding.md R118, 60_exceptions.md R241). -/
def decode (w : Word) : Except FaultCode Instr :=
  match opOfCode (fieldOp w) with
  | none => .error .illegalOp
  | some op =>
    if w &&& requestMask op = requestMatch op then .ok (Instr.make op (fieldPin w).toNat (fieldVal w))
    else .error .reservedReq

/-- The request word of an instruction: `OP | PIN << 8 | VAL << 16`, an absent field 0 (30_encoding.md R112). It
is meant for pins of 0 to 31, the only ones a request word holds. -/
def encode (i : Instr) : Word :=
  requestMatch i.op ||| ((BitVec.ofNat 5 (i.pin?.getD 0)).setWidth 32 <<< 8)
    ||| ((i.val?.getD 0).setWidth 32 <<< 16)

/-- A pin the request word can hold (30_encoding.md R111, R112). -/
abbrev Instr.Encodable (i : Instr) : Prop :=
  ∀ n ∈ i.pin?, n < 32

/-- The instruction the decoder reads from a request whose bits are `w`, every bit at or above `nbits` 0 (a
request word has 32 bits and no other length, 30_encoding.md R112). -/
def decodeTableWord (nbits w : Nat) : Option Instr :=
  match decode (BitVec.ofNat 32 (w % 2 ^ nbits)) with
  | .ok i => some i
  | .error _ => none

end Sys2Proof
end

