-- ==== Sys2Proof/Config.lean ====
section
/-! DEFINITION. The implementation parameters (00_scope.md R8 to R13, 20_memory.md R75). They are OPEN: a machine
state carries its parameters in `State.cfg`, no step changes them (70_reset_and_hazards.md R273), and every
statement quantifies over them. `Config.ex` is the informative instantiation EX of 95_test_vectors.md, which
`State.reset` takes (log 1). No field of the block needs an opaque free value: what the environment draws is
carried by the scheduled action (log 2, log 6, log 7). -/

namespace Sys2Proof

/-- `OFFSETS`: the byte offsets of the nine port registers (00_scope.md R9). -/
structure Offsets where
  out        : Word
  outset     : Word
  outclr     : Word
  inp        : Word
  dir        : Word
  dirset     : Word
  dirclr     : Word
  latch      : Word
  detectmode : Word
  deriving DecidableEq, Repr

/-- `RESET` for one port: the values of its registers after reset (00_scope.md R12, 10_state.md R59). -/
structure PortReset where
  out   : Word
  dir   : Word
  latch : Word
  dm    : BitVec 1
  cnf   : Vector Word 32
  deriving DecidableEq, Repr

/-- A port: its base address in `PORT_BASES` and its reset values (00_scope.md R10, R12). -/
structure PortParams where
  base  : Word
  reset : PortReset
  deriving DecidableEq, Repr

/-- A port base is word-aligned and its window `[b, b + 0x1000)` does not wrap (00_scope.md R10). -/
def baseOk (b : Word) : Bool :=
  b.toNat % 4 == 0 && decide (b.toNat + 0x1000 ≤ 0x100000000)

/-- The constraints on `PORT_BASES`, a finite set listed in rising order: every base well-formed, no two windows
overlapping (00_scope.md R10). -/
abbrev BasesWF (bases : List Word) : Prop :=
  bases.all baseOk = true ∧ bases.Pairwise fun b b' => b.toNat + 0x1000 ≤ b'.toNat

/-- `P_ENDIAN`; nothing reads it (20_memory.md R75). -/
inductive Endian where
  | little
  | big
  deriving DecidableEq, Repr

/-- The parameters of the block: `OFFSETS`, `PORT_BASES` with `RESET`, `P_DIR_ALIAS`, `P_NSEQ`,
`P_OTHER_MASTERS` and `P_ENDIAN` (00_scope.md R9 to R13, 20_memory.md R75). -/
structure Params where
  offsets      : Offsets
  ports        : List PortParams
  dirAlias     : Bool
  nseq         : Nat
  otherMasters : Bool
  endian       : Endian
  deriving DecidableEq, Repr

/-- The nRF52 offsets EX takes. PRESUMED: marked general knowledge in 00_scope.md R9 (log 1). -/
def Config.exOffsets : Offsets :=
  { out := 0x504, outset := 0x508, outclr := 0x50C, inp := 0x510, dir := 0x514, dirset := 0x518,
    dirclr := 0x51C, latch := 0x520, detectmode := 0x524 }

/-- The nRF52 reset values EX takes. PRESUMED: marked general knowledge in 10_state.md R50, R51 (log 1). -/
def Config.exReset : PortReset :=
  { out := 0, dir := 0, latch := 0, dm := 0, cnf := Vector.replicate 32 0x00000002 }

/-- The instantiation EX of 95_test_vectors.md section 0 (92_eei_decisions.md D37). PRESUMED (log 1). -/
def Config.ex : Params :=
  { offsets := Config.exOffsets, ports := [{ base := 0x50000000, reset := Config.exReset }],
    dirAlias := false, nseq := 1, otherMasters := false, endian := .little }

end Sys2Proof
end

