-- ==== Sys2Proof/Machine/State.lean ====
section
/-! DEFINITION. The machine's state as plain data, its fault and refusal reasons, and the state after reset
(10_state.md R30 to R62, 70_reset_and_hazards.md R271). -/

namespace Sys2Proof.Machine

/-- The operand registers of a sequencer (10_state.md R31). -/
structure Operands where
  req    : Word
  a      : Word
  d0     : Word
  d1     : Word
  record : RecBus
  deriving DecidableEq, Repr

/-- Operand registers of zeros: the value State.reset gives them. DESIGN CHOICE (log 6). -/
def Operands.zero : Operands :=
  { req := 0, a := 0, d0 := 0, d1 := 0, record := { dir := 0, input := 0, pull := 0, drive := 0, sense := 0 } }

/-- The hold register HOLD (10_state.md R35). -/
structure Hold where
  addr : Word
  clr  : Word
  set  : Word
  old  : Word
  op   : Op
  deriving DecidableEq, Repr

/-- PHASE with HOLD, which holds a value only while an RMW is pending (10_state.md R33, R35). -/
inductive Phase where
  | idle
  | rmwPending (h : Hold)
  deriving DecidableEq, Repr

/-- FINFO: the request word, A and the detail of the fault (10_state.md R36, 60_exceptions.md R246). -/
structure FaultInfo where
  req    : Word
  a      : Word
  detail : Detail
  deriving DecidableEq, Repr

/-- One sequencer (10_state.md R31 to R36): operand registers, the latched request (log 5), the issued request
waiting for acceptance (log 4), result registers, phase and fault state. -/
structure Seq where
  ops    : Operands
  lat    : Operands
  issued : Bool
  rdata  : Option Word
  rrec   : Option Record
  phase  : Phase
  fault  : Bool
  cause  : Option FaultCode
  finfo  : Option FaultInfo
  deriving DecidableEq, Repr

/-- One port of the register file (10_state.md R38). `dir` is the separate direction storage, which exists only
when P_DIR_ALIAS is false (R41); otherwise it is 0 and never read or written (log 16). -/
structure Port where
  base  : Word
  out   : Word
  inp   : Word
  dir   : Word
  latch : Word
  dm    : BitVec 1
  cnf   : Vector Word 32
  deriving DecidableEq, Repr

/-- The register file RF: all that the register address space holds (10_state.md R38, R58, 20_memory.md R70).
It is the model's memory, keyed by port base in rising order (log 15). -/
abbrev Memory := List Port

/-- The canonical form of the register file: its ports in rising order of base, as `PORT_BASES` constrains them
(00_scope.md R10, log 15). -/
abbrev Memory.wf (m : Memory) : Prop :=
  BasesWF (m.map (·.base))

/-- What a reset draws from outside the block: the input levels of the ports in order, and the operand registers
of the sequencers in order; a missing entry is drawn as zeros (10_state.md R59, log 6, log 7). -/
structure ResetDraw where
  ins : List Word
  ops : List Operands
  deriving DecidableEq, Repr

/-- One operand register and the value the requester writes to it (10_state.md R31). -/
inductive OperandWrite where
  | req (w : Word)
  | a (w : Word)
  | d0 (w : Word)
  | d1 (w : Word)
  | record (r : RecBus)
  deriving DecidableEq, Repr

/-- A move the schedule names: who moves and, where the move brings a value from outside the block, that value
(20_memory.md R82 to R86, 70_reset_and_hazards.md R270, 10_state.md R31 to R33, 60_exceptions.md R245). -/
inductive Action where
  | seq (k : Nat)
  | operand (k : Nat) (w : OperandWrite)
  | issue (k : Nat)
  | consume (k : Nat) (r : ResultReg)
  | envIn (base value : Word)
  | envLatch (base mask : Word)
  | otherRead (addr : Word)
  | otherWrite (addr value : Word)
  | reset (draw : ResetDraw)
  deriving DecidableEq, Repr

/-- The whole machine: the parameters (log 1), the sequencers, the register file, GFAULT (10_state.md R52), the
event history (R53), the schedule (log 2) and the sequencer whose step is being taken (log 3). -/
structure State where
  cfg    : Params
  seqs   : List Seq
  rf     : Memory
  gfault : Option (FaultCode × Word)
  hist   : List Event
  sched  : List Action
  actor  : Nat
  deriving DecidableEq, Repr

/-- The reasons a step of the model stops. The faults of the spec (60_exceptions.md R240) are NOT among them:
fault entry is a next state (R246). -/
inductive Fault where
  /-- Raised by a meaning when `State.actor` names no sequencer, which no step of the machine does
  (10_state.md R30, log 3). Safe. -/
  | noSequencer
  deriving DecidableEq, Repr

/-- The reasons the model gives no meaning. -/
inductive Refusal where
  /-- Raised by an arm of `exec` whose instruction has no meaning yet; no arm raises it. Safe. -/
  | notModelled (mnemonic : String)
  deriving DecidableEq, Repr

/-- A sequencer after reset, its operand registers as the requester left them (10_state.md R59). -/
def Seq.atReset (o : Operands) : Seq :=
  { ops := o, lat := Operands.zero, issued := false, rdata := none, rrec := none, phase := .idle,
    fault := false, cause := none, finfo := none }

/-- A port after reset: `RESET` of its parameters and an input level drawn by the environment (10_state.md R59). -/
def Port.atReset (aliased : Bool) (pp : PortParams) (inp : Word) : Port :=
  { base := pp.base, out := pp.reset.out, inp := inp, dir := if aliased then 0 else pp.reset.dir,
    latch := pp.reset.latch, dm := pp.reset.dm, cnf := pp.reset.cnf }

/-- The state after a reset under parameters `cfg` (10_state.md R59, 70_reset_and_hazards.md R271): every element
at its reset value, what R59 leaves open drawn from `d`, the reset event appended to the history, the rest of the
schedule kept (log 14). -/
def State.resetFrom (cfg : Params) (d : ResetDraw) (hist : List Event) (sched : List Action) : State :=
  { cfg := cfg
    seqs := (List.range cfg.nseq).map fun k => Seq.atReset (d.ops.getD k Operands.zero)
    rf := cfg.ports.mapIdx fun i pp => Port.atReset cfg.dirAlias pp (d.ins.getD i 0)
    gfault := none
    hist := hist ++ [.reset]
    sched := sched
    actor := 0 }

/-- The machine right after power-on reset, under the instantiation EX (log 1), with the draws zero (log 6,
log 7) and nothing scheduled (log 2). -/
def State.reset : State :=
  State.resetFrom Config.ex { ins := [], ops := [] } [] []

end Sys2Proof.Machine
end

