-- ==== Sys2Proof/Machine/Flags.lean ====
section
/-! DEFINITION. The flags of the block. It has no condition codes; its only flags are BUSY and FAULT (10_state.md
R33, R37), the flags an operation returns as a result (R32), and the conditions that enable a sequencer's steps
(40_mmio.md, R155; 60_exceptions.md R248). -/

namespace Sys2Proof.Machine

/-- `BUSY = (PHASE ≠ IDLE)` (10_state.md R33). -/
def Seq.busy (q : Seq) : Bool :=
  q.phase != .idle

/-- A flag as a result word: 0 or 1 in bit 0 (10_state.md R32). -/
def flagWord (b : Bool) : Word :=
  if b then 1 else 0

/-- `BIT(w, n) = (w >> n) & 1` (30_encoding.md R108). -/
def bitOf (w : Word) (n : Nat) : Word :=
  (w >>> n) &&& 1

/-- The direction read's result, the tested bit normalised to 0 or 1 (41_port.md R175). -/
def directionFlag (w : Word) (n : Nat) : Word :=
  flagWord (bitOf w n != 0)

/-- An accept step is enabled: IDLE, not faulted, and a request issued (10_state.md R33, 60_exceptions.md R248). -/
def Seq.canAccept (q : Seq) : Bool :=
  q.phase == .idle && !q.fault && q.issued

end Sys2Proof.Machine
end

