-- ==== Sys2Proof/Machine/Codec.lean ====
section
/-! DEFINITION. The configuration word codec: field masks, PACK, UNPACK, field extraction and the legality of a
word (30_encoding.md R100 to R107, R116). -/

namespace Sys2Proof.Machine

/-- The shift of a field in the configuration word (30_encoding.md R101). -/
def Field.shift : Field → Nat
  | .dir => 0
  | .input => 1
  | .pull => 2
  | .drive => 8
  | .sense => 16

/-- The width mask of a field (30_encoding.md R101). -/
def Field.widthMask : Field → Word
  | .dir => 0x1
  | .input => 0x1
  | .pull => 0x3
  | .drive => 0x7
  | .sense => 0x3

/-- The in-word mask `F_M` of a field (30_encoding.md R101). -/
def Field.mask : Field → Word
  | .dir => 0x00000001
  | .input => 0x00000002
  | .pull => 0x0000000C
  | .drive => 0x00000700
  | .sense => 0x00030000

/-- `FIELDS_M` (30_encoding.md R101). -/
def fieldsMask : Word := 0x0003070F

/-- `RSV_MASK`, the reserved bits of a configuration word (30_encoding.md R101). -/
def rsvMask : Word := 0xFFFCF8F0

/-- `FIELD_F(w) = (w >> sh) & wm` (30_encoding.md R106). -/
def fieldOf (f : Field) (w : Word) : Word :=
  (w >>> f.shift) &&& f.widthMask

/-- The validity verdict of a field's code: PULL code 2 and SENSE code 1 are invalid (30_encoding.md R106). -/
def Field.validCode : Field → Word → Bool
  | .pull, c => c != 2
  | .sense, c => c != 1
  | .dir, _ => true
  | .input, _ => true
  | .drive, _ => true

/-- The code of a direction (30_encoding.md R100). -/
def Dir.code : Dir → Word
  | .input => 0
  | .output => 1

/-- The code of an input-buffer setting (30_encoding.md R100). -/
def IBuf.code : IBuf → Word
  | .connect => 0
  | .disconnect => 1

/-- The code of a pull setting (30_encoding.md R100). -/
def Pull.code : Pull → Word
  | .none => 0
  | .down => 1
  | .up => 3

/-- The code of a sense setting (30_encoding.md R100). -/
def Sense.code : Sense → Word
  | .off => 0
  | .high => 2
  | .low => 3

/-- The direction a code names: bit 0 equal to 0 is input (30_encoding.md R100). -/
def Dir.ofCode (c : Word) : Dir :=
  if c = 0 then .input else .output

/-- The input-buffer setting a code names (30_encoding.md R100). -/
def IBuf.ofCode (c : Word) : IBuf :=
  if c = 0 then .connect else .disconnect

/-- The pull setting a code names; code 2 names none (30_encoding.md R100, R103). -/
def Pull.ofCode? (c : Word) : Option Pull :=
  if c = 0 then some .none
  else if c = 1 then some .down
  else if c = 3 then some .up
  else Option.none

/-- The sense setting a code names; code 1 names none (30_encoding.md R100, R103). -/
def Sense.ofCode? (c : Word) : Option Sense :=
  if c = 0 then some .off
  else if c = 2 then some .high
  else if c = 3 then some .low
  else Option.none

/-- The code of one field of a record (30_encoding.md R102). -/
def Record.code (r : Record) : Field → Word
  | .dir => r.dir.code
  | .input => r.input.code
  | .pull => r.pull.code
  | .drive => r.drive.setWidth 32
  | .sense => r.sense.code

/-- `PACK` (30_encoding.md R104). -/
def pack (r : Record) : Word :=
  r.dir.code ||| (r.input.code <<< 1) ||| (r.pull.code <<< 2) ||| (r.drive.setWidth 32 <<< 8)
    ||| (r.sense.code <<< 16)

/-- `UNPACK`: a record, or the field whose code is reserved, PULL before SENSE; the reserved bits are ignored
(30_encoding.md R105). -/
def unpack (w : Word) : Except Field Record :=
  match Pull.ofCode? (fieldOf .pull w) with
  | Option.none => .error .pull
  | some p =>
    match Sense.ofCode? (fieldOf .sense w) with
    | Option.none => .error .sense
    | some s =>
      .ok { dir := Dir.ofCode (fieldOf .dir w), input := IBuf.ofCode (fieldOf .input w), pull := p,
            drive := (fieldOf .drive w).setWidth 3, sense := s }

/-- The record the five buses of REC carry, none where PULL is 2 or SENSE is 1 (30_encoding.md R116). -/
def RecBus.record? (b : RecBus) : Option Record :=
  match Pull.ofCode? (b.pull.setWidth 32), Sense.ofCode? (b.sense.setWidth 32) with
  | some p, some s =>
    some { dir := Dir.ofCode (b.dir.setWidth 32), input := IBuf.ofCode (b.input.setWidth 32), pull := p,
           drive := b.drive, sense := s }
  | _, _ => Option.none

/-- The buses that carry a record (30_encoding.md R116). -/
def Record.toBus (r : Record) : RecBus :=
  { dir := r.dir.code.setWidth 1, input := r.input.code.setWidth 1, pull := r.pull.code.setWidth 2,
    drive := r.drive, sense := r.sense.code.setWidth 2 }

/-- A word a configuration register can hold: reserved bits 0, no reserved code (10_state.md R49, R59). -/
def legalCnf (w : Word) : Bool :=
  w &&& rsvMask == 0 && Field.pull.validCode (fieldOf .pull w) && Field.sense.validCode (fieldOf .sense w)

end Sys2Proof.Machine
end

