-- ==== Sys2Proof/Machine/Operands.lean ====
section
/-! DEFINITION. Operand assembly: pin masks, the masked combine, the set word of an update, the value domains and
the addresses of port registers and configuration words (30_encoding.md R106 to R119, 20_memory.md R74). -/

namespace Sys2Proof.Machine

/-- `PINMASK(n) = 1 << n` (30_encoding.md R108). -/
def pinMask (n : Nat) : Word :=
  1#32 <<< n

/-- `COMBINE(old, clr, set) = (old & ~clr) | set` (30_encoding.md R109). -/
def combine (old clr set : Word) : Word :=
  (old &&& ~~~clr) ||| set

/-- `UPDSET(rec, mask) = PACK(rec) & mask` (30_encoding.md R110). -/
def updSet (r : Record) (mask : Word) : Word :=
  pack r &&& mask

/-- The set word of a field setter, `zext_32(VAL) << shift_F` (30_encoding.md R119). -/
def fieldSet (f : Field) (v : Val) : Word :=
  v.setWidth 32 <<< f.shift

/-- The legal values of VAL for an operation that takes one (30_encoding.md R113, R114). -/
def valDomain : Op → List Val
  | .writeOutput => [0, 1]
  | .setDirection => [0, 1]
  | .setDetectMode => [0, 1]
  | .setCfgDir => [0, 1]
  | .setInput => [0, 1]
  | .setPull => [0, 1, 3]
  | .setDrive => [0, 1, 2, 3, 4, 5, 6, 7]
  | .setSense => [0, 2, 3]
  | .read32 | .write32 | .rmw32 | .readLatch | .getDetectMode | .readLevel | .readOutput | .setOutput
  | .clearOutput | .getDirection | .getLatch | .clearLatch | .readConfigRaw | .readConfig | .configure | .update
  | .getCfgDir | .getInput | .getPull | .getDrive | .getSense => []

/-- `CFGADDR = base + 0x700 + 4*pin`, modulo 2^32 (20_memory.md R74, 30_encoding.md R119). -/
def cfgAddr (base : Word) (pin : Nat) : Word :=
  base + 0x700 + 4 * BitVec.ofNat 32 pin

/-- The offset of a register within a port window: `OFFSETS`, and `0x700 + 4*n` for PIN_CNF[n] (10_state.md R42,
R43). -/
def offsetOf (o : Offsets) : Reg → Word
  | .out => o.out
  | .outset => o.outset
  | .outclr => o.outclr
  | .inp => o.inp
  | .dir => o.dir
  | .dirset => o.dirset
  | .dirclr => o.dirclr
  | .latch => o.latch
  | .detectmode => o.detectmode
  | .pinCnf n => 0x700 + 4 * BitVec.ofNat 32 n

/-- The registers of a port window, the nine port registers and then the 32 configuration words (20_memory.md
R71). -/
def allRegs : List Reg :=
  [.out, .outset, .outclr, .inp, .dir, .dirset, .dirclr, .latch, .detectmode] ++ (List.finRange 32).map .pinCnf

/-- The register at an offset of a port window, none where there is none (20_memory.md R71). -/
def regOfOffset (o : Offsets) (off : Word) : Option Reg :=
  allRegs.find? fun r => offsetOf o r == off

/-- `addr[1:0] = 0` (20_memory.md R72). -/
def aligned (a : Word) : Bool :=
  a.extractLsb' 0 2 == 0

end Sys2Proof.Machine
end

