-- ==== Sys2Proof/Machine/Ops.lean ====
section
/-! DEFINITION. The named operations over the state: the direction state, the register reads and writes of a port,
the address map, the bus primitives and their checks, fault entry, the request checks of VALIDATE, and the shared
shapes of an operation (10_state.md R41 to R48, 20_memory.md R70 to R73, 40_mmio.md R153 to R155,
60_exceptions.md R241 to R249). -/

namespace Sys2Proof.Machine

/-- The machine's outcome of a step. -/
abbrev Out := Host.Outcome State Fault Refusal

/-! ### The registers of a port -/

/-- Bit `n` is bit 0 of configuration word `n`: the direction state under P_DIR_ALIAS (10_state.md R41). -/
def gatherDir (cnf : Vector Word 32) : Word :=
  BitVec.ofFnLE fun n : Fin 32 => cnf[n].getLsbD 0

/-- A configuration word with its bit 0 replaced (10_state.md R41). -/
def withBit0 (w : Word) (b : Bool) : Word :=
  (w &&& ~~~1#32) ||| flagWord b

/-- Every configuration word's bit 0 set from the direction word (10_state.md R41). -/
def scatterDir (cnf : Vector Word 32) (v : Word) : Vector Word 32 :=
  Vector.ofFn fun n : Fin 32 => withBit0 cnf[n] (v.getLsbD n)

/-- `DIRV(b)`, the direction state of a port (10_state.md R41). -/
def Port.dirv (aliased : Bool) (p : Port) : Word :=
  if aliased then gatherDir p.cnf else p.dir

/-- Writing the direction state (10_state.md R41). -/
def Port.setDirv (aliased : Bool) (v : Word) (p : Port) : Port :=
  if aliased then { p with cnf := scatterDir p.cnf v } else { p with dir := v }

/-- What a read of a register returns, none for a write-only register; no read changes anything (10_state.md R43,
R45, R47). -/
def Port.read (aliased : Bool) (p : Port) : Reg → Option Word
  | .out => some p.out
  | .outset => none
  | .outclr => none
  | .inp => some p.inp
  | .dir => some (p.dirv aliased)
  | .dirset => none
  | .dirclr => none
  | .latch => some p.latch
  | .detectmode => some (p.dm.setWidth 32)
  | .pinCnf n => some p.cnf[n]

/-- What a write of `v` to a register does, the checks of the value passed (10_state.md R43, R47, R48). IN is
read-only: the checks stop every write to it (40_mmio.md R154). -/
def Port.write (aliased : Bool) (r : Reg) (v : Word) (p : Port) : Port :=
  match r with
  | .out => { p with out := v }
  | .outset => { p with out := p.out ||| v }
  | .outclr => { p with out := p.out &&& ~~~v }
  | .inp => p
  | .dir => p.setDirv aliased v
  | .dirset => p.setDirv aliased (p.dirv aliased ||| v)
  | .dirclr => p.setDirv aliased (p.dirv aliased &&& ~~~v)
  | .latch => { p with latch := p.latch &&& ~~~v }
  | .detectmode => { p with dm := v.setWidth 1 }
  | .pinCnf n => { p with cnf := p.cnf.set n v }

/-! ### The address map -/

/-- `PORT_BASES`: the bases of the ports of the register file (10_state.md R38, 00_scope.md R10). -/
def State.portBases (s : State) : List Word :=
  s.rf.map (·.base)

/-- The port at a base. -/
def State.port? (s : State) (b : Word) : Option Port :=
  s.rf.find? fun p => p.base == b

/-- `reg(addr)`: the port and the register an address is mapped to, none where it is unmapped (20_memory.md R71,
10_state.md R42). -/
def State.regAt (s : State) (addr : Word) : Option (Port × Reg) :=
  s.rf.findSome? fun p => (regOfOffset s.cfg.offsets (addr - p.base)).map fun r => (p, r)

/-- What a read of the word at an address returns now, none where it is unmapped or write-only (20_memory.md R80). -/
def State.readWord (s : State) (addr : Word) : Option Word :=
  (s.regAt addr).bind fun x => x.1.read s.cfg.dirAlias x.2

/-! ### Updates of the state -/

/-- Appends an event to the history (10_state.md R53). -/
def State.log (e : Event) (s : State) : State :=
  { s with hist := s.hist ++ [e] }

/-- Changes sequencer `k` alone. -/
def State.modifySeq (k : Nat) (f : Seq → Seq) (s : State) : State :=
  { s with seqs := s.seqs.modify k f }

/-- Changes the port at base `b` alone. -/
def State.modifyPort (b : Word) (f : Port → Port) (s : State) : State :=
  { s with rf := s.rf.map fun p => if p.base = b then f p else p }

/-- A sequencer with a word in RDATA (10_state.md R32). -/
def Seq.setRdata (v : Word) (q : Seq) : Seq :=
  { q with rdata := some v }

/-- A sequencer with a record in RREC (10_state.md R32). -/
def Seq.setRrec (r : Record) (q : Seq) : Seq :=
  { q with rrec := some r }

/-- A sequencer with its phase set (10_state.md R33). -/
def Seq.setPhase (p : Phase) (q : Seq) : Seq :=
  { q with phase := p }

/-- Fault entry in a sequencer: FAULT, CAUSE and FINFO are written and a pending RMW is abandoned; `o` holds the
REQ and A that FINFO records (60_exceptions.md R246). -/
def Seq.enterFault (o : Operands) (r : Raise) (q : Seq) : Seq :=
  { q with fault := true, cause := some r.code, finfo := some { req := o.req, a := o.a, detail := r.detail },
           phase := .idle }

/-- `RDATA <- v` of the acting sequencer. -/
def State.setRdata (v : Word) (s : State) : State :=
  s.modifySeq s.actor (Seq.setRdata v)

/-- `RREC <- r` of the acting sequencer. -/
def State.setRrec (r : Record) (s : State) : State :=
  s.modifySeq s.actor (Seq.setRrec r)

/-- `PHASE <- p` of the acting sequencer. -/
def State.setPhase (p : Phase) (s : State) : State :=
  s.modifySeq s.actor (Seq.setPhase p)

/-- `emit Done(k, op, result)` of the acting sequencer (40_mmio.md, 10_state.md R53). -/
def State.emitDone (op : Op) (res : Result) (s : State) : State :=
  s.log (.done s.actor op res)

/-- Fault entry in the acting sequencer, the one shared operation by which every fault of a sequencer's step is
taken (60_exceptions.md R246). Nothing returns from a fault but a reset (R248). -/
def State.enterFault (o : Operands) (r : Raise) (s : State) : State :=
  s.modifySeq s.actor (Seq.enterFault o r)

/-! ### The bus primitives -/

/-- `CHECK_READ(addr)`, and on success the value the read returns (40_mmio.md R153). -/
def State.checkRead (s : State) (addr : Word) : Except Raise Word :=
  if !aligned addr then .error { code := .misaligned, detail := .address addr }
  else match s.regAt addr with
    | none => .error { code := .unmapped, detail := .address addr }
    | some (p, r) =>
      match p.read s.cfg.dirAlias r with
      | none => .error { code := .writeOnlyRead, detail := .address addr }
      | some v => .ok v

/-- `CHECK_WRITE_ADDR(addr)`, and on success the base of the port and the register written (40_mmio.md R154). -/
def State.checkWriteAddr (s : State) (addr : Word) : Except Raise (Word × Reg) :=
  if !aligned addr then .error { code := .misaligned, detail := .address addr }
  else match s.regAt addr with
    | none => .error { code := .unmapped, detail := .address addr }
    | some (p, r) =>
      if r = .inp then .error { code := .readOnlyWrite, detail := .address addr } else .ok (p.base, r)

/-- `CHECK_WRITE_VALUE(addr, v)` for the register at `addr` (40_mmio.md R154, 10_state.md R47, R48). -/
def checkWriteValue (r : Reg) (addr v : Word) : Except Raise Unit :=
  match r with
  | .detectmode =>
    if v >>> 1 != 0 then .error { code := .readOnlyWrite, detail := .address addr } else .ok ()
  | .pinCnf _ =>
    if v &&& rsvMask != 0 then .error { code := .readOnlyWrite, detail := .address addr }
    else if fieldOf .pull v == 2 || fieldOf .sense v == 1 then
      .error { code := .reservedFieldWrite, detail := .address addr }
    else .ok ()
  | .out | .outset | .outclr | .inp | .dir | .dirset | .dirclr | .latch => .ok ()

/-- The bus event of `MemRead(addr, 4)` returning `v`; a read changes no register (40_mmio.md R153). -/
def State.memRead (ag : Agent) (addr v : Word) (s : State) : State :=
  s.log (.bus ag .read addr v)

/-- `MemWrite(addr, 4, v)` to register `r` of the port at `b`: the write effect and its bus event (40_mmio.md
R154). -/
def State.memWrite (ag : Agent) (b : Word) (r : Reg) (addr v : Word) (s : State) : State :=
  (s.modifyPort b (Port.write s.cfg.dirAlias r v)).log (.bus ag .write addr v)

/-! ### The request checks of VALIDATE after decoding -/

/-- The pin lies in 0 to 31 (60_exceptions.md R242, first line). -/
def checkPin (n : Nat) : Except Raise Unit :=
  if n < 32 then .ok () else .error { code := .pinRange, detail := .pin n }

/-- VAL lies in the operation's domain (60_exceptions.md R242, second line; 30_encoding.md R114). -/
def checkVal (op : Op) (v : Val) : Except Raise Unit :=
  if v ∈ valDomain op then .ok () else .error { code := .badValue, detail := .nothing }

/-- REC carries a record (60_exceptions.md R242, third line; 30_encoding.md R116). -/
def checkRec (b : RecBus) : Except Raise Record :=
  match b.record? with
  | none => .error { code := .badRecord, detail := .record b }
  | some r => .ok r

/-- A is a port base (60_exceptions.md R243). -/
def State.checkBase (s : State) (a : Word) : Except Raise Unit :=
  if !aligned a then .error { code := .misaligned, detail := .address a }
  else if a ∈ s.portBases then .ok ()
  else .error { code := .unmapped, detail := .address a }

/-! ### The shapes of an operation -/

/-- The accept step of the acting sequencer after decoding: `body` works on the latched request; a fault it raises
before its access is entered (10_state.md R33, 60_exceptions.md R246). -/
def accept (s : State) (body : Operands → Except Raise State) : Out :=
  match s.seqs[s.actor]? with
  | none => .fault .noSequencer
  | some q =>
    match body q.lat with
    | .ok t => .next t
    | .error r => .next (s.enterFault q.lat r)

/-- An operation that is one load: check, read, `RDATA <- f v`, Done (40_mmio.md R150, 41_port.md R170). -/
def State.loadOp (op : Op) (addr : Word) (f : Word → Word) (s : State) : Except Raise State := do
  let v ← s.checkRead addr
  return ((s.memRead (.seq s.actor) addr v).setRdata (f v)).emitDone op (.word (f v))

/-- A field getter whose field has a reserved code `bad`: the fault is raised after the read, whose event stays in
the history (42_config.md R206, R208, 60_exceptions.md R250, log 11). -/
def State.loadFieldOp (op : Op) (o : Operands) (addr : Word) (f : Field) (bad : Word) (s : State) :
    Except Raise State := do
  let v ← s.checkRead addr
  let s₁ := s.memRead (.seq s.actor) addr v
  if fieldOf f v = bad then
    return s₁.enterFault o { code := .reservedFieldRead, detail := .address addr }
  else
    return (s₁.setRdata (fieldOf f v)).emitDone op (.word (fieldOf f v))

/-- The read of READ_CONFIG: the word to RDATA and the decoded record to RREC; a reserved code faults after the
read, whose event stays in the history (42_config.md R201, log 11). -/
def State.loadRecordOp (o : Operands) (addr : Word) (s : State) : Except Raise State := do
  let v ← s.checkRead addr
  let s₁ := s.memRead (.seq s.actor) addr v
  match unpack v with
  | .error _ => return s₁.enterFault o { code := .reservedFieldRead, detail := .address addr }
  | .ok r => return ((s₁.setRdata v).setRrec r).emitDone .readConfig (.record r)

/-- An operation that is one store: check, write, Done. CHECK_WRITE_VALUE passes for every value the port
operations and CONFIGURE store (40_mmio.md R151, 41_port.md R172, log 13). -/
def State.storeOp (op : Op) (addr v : Word) (s : State) : Except Raise State := do
  let (b, r) ← s.checkWriteAddr addr
  checkWriteValue r addr v
  return (s.memWrite (.seq s.actor) b r addr v).emitDone op .noValue

/-- The accept step of a read-modify-write: both address checks, the read, HOLD and PHASE (40_mmio.md R152). -/
def State.rmwAccept (op : Op) (addr clr set : Word) (s : State) : Except Raise State := do
  let old ← s.checkRead addr
  let _ ← s.checkWriteAddr addr
  return (s.memRead (.seq s.actor) addr old).setPhase
    (.rmwPending { addr := addr, clr := clr, set := set, old := old, op := op })

/-- The write step of a read-modify-write, from its HOLD (40_mmio.md R155). The address is looked up again, which
cannot fail after an accept step (log 12). -/
def State.rmwWrite (h : Hold) (s : State) : Except Raise State := do
  let v := combine h.old h.clr h.set
  let (b, r) ← s.checkWriteAddr h.addr
  checkWriteValue r h.addr v
  return ((s.memWrite (.seq s.actor) b r h.addr v).setPhase .idle).emitDone h.op .noValue

end Sys2Proof.Machine
end

