-- ==== Sys2Proof/Machine/Mmio.lean ====
section
/-! DEFINITION. The MMIO primitives READ32, WRITE32 and RMW32 (40_mmio.md R150 to R158). -/

namespace Sys2Proof.Machine

/-- READ32 (40_mmio.md R150). -/
def execRead32 (s : State) : Out :=
  accept s fun o => s.loadOp .read32 o.a id

/-- WRITE32 (40_mmio.md R151). -/
def execWrite32 (s : State) : Out :=
  accept s fun o => s.storeOp .write32 o.a o.d0

/-- RMW32, the accept step (40_mmio.md R152). -/
def execRmw32 (s : State) : Out :=
  accept s fun o => s.rmwAccept .rmw32 o.a o.d0 o.d1

end Sys2Proof.Machine
end

