-- ==== Sys2Proof/Machine/PinConfig.lean ====
section
/-! DEFINITION. The pin configuration operations: whole-word reads and writes, the masked update, and the per-field
getters and setters (42_config.md R200 to R217). -/

namespace Sys2Proof.Machine

/-- READ_CONFIG_RAW (42_config.md R200). -/
def execReadConfigRaw (pin : Nat) (s : State) : Out :=
  accept s fun o => do
    checkPin pin
    s.checkBase o.a
    s.loadOp .readConfigRaw (cfgAddr o.a pin) id

/-- READ_CONFIG: the word to RDATA and the decoded record to RREC (42_config.md R201). -/
def execReadConfig (pin : Nat) (s : State) : Out :=
  accept s fun o => do
    checkPin pin
    s.checkBase o.a
    s.loadRecordOp o (cfgAddr o.a pin)

/-- CONFIGURE: one store of the packed record (42_config.md R202). -/
def execConfigure (pin : Nat) (s : State) : Out :=
  accept s fun o => do
    checkPin pin
    let r ← checkRec o.record
    s.checkBase o.a
    s.storeOp .configure (cfgAddr o.a pin) (pack r)

/-- UPDATE, the accept step (42_config.md R203). -/
def execUpdate (pin : Nat) (s : State) : Out :=
  accept s fun o => do
    checkPin pin
    let r ← checkRec o.record
    s.checkBase o.a
    s.rmwAccept .update (cfgAddr o.a pin) o.d0 (updSet r o.d0)

/-- GET_CFG_DIR (42_config.md R204). -/
def execGetCfgDir (pin : Nat) (s : State) : Out :=
  accept s fun o => do
    checkPin pin
    s.checkBase o.a
    s.loadOp .getCfgDir (cfgAddr o.a pin) (fieldOf .dir)

/-- GET_INPUT (42_config.md R205). -/
def execGetInput (pin : Nat) (s : State) : Out :=
  accept s fun o => do
    checkPin pin
    s.checkBase o.a
    s.loadOp .getInput (cfgAddr o.a pin) (fieldOf .input)

/-- GET_PULL: only the PULL field is checked, code 2 faults (42_config.md R206). -/
def execGetPull (pin : Nat) (s : State) : Out :=
  accept s fun o => do
    checkPin pin
    s.checkBase o.a
    s.loadFieldOp .getPull o (cfgAddr o.a pin) .pull 2

/-- GET_DRIVE (42_config.md R207). -/
def execGetDrive (pin : Nat) (s : State) : Out :=
  accept s fun o => do
    checkPin pin
    s.checkBase o.a
    s.loadOp .getDrive (cfgAddr o.a pin) (fieldOf .drive)

/-- GET_SENSE: only the SENSE field is checked, code 1 faults (42_config.md R208). -/
def execGetSense (pin : Nat) (s : State) : Out :=
  accept s fun o => do
    checkPin pin
    s.checkBase o.a
    s.loadFieldOp .getSense o (cfgAddr o.a pin) .sense 1

/-- The accept step of a field setter: clear word `F_M`, set word `zext_32(VAL) << shift_F` (42_config.md R209,
30_encoding.md R119). -/
def setField (op : Op) (f : Field) (pin : Nat) (val : Val) (s : State) : Out :=
  accept s fun o => do
    checkPin pin
    checkVal op val
    s.checkBase o.a
    s.rmwAccept op (cfgAddr o.a pin) f.mask (fieldSet f val)

/-- SET_CFG_DIR (42_config.md R209). -/
def execSetCfgDir (pin : Nat) (val : Val) (s : State) : Out :=
  setField .setCfgDir .dir pin val s

/-- SET_INPUT (42_config.md R210). -/
def execSetInput (pin : Nat) (val : Val) (s : State) : Out :=
  setField .setInput .input pin val s

/-- SET_PULL (42_config.md R211). -/
def execSetPull (pin : Nat) (val : Val) (s : State) : Out :=
  setField .setPull .pull pin val s

/-- SET_DRIVE (42_config.md R212). -/
def execSetDrive (pin : Nat) (val : Val) (s : State) : Out :=
  setField .setDrive .drive pin val s

/-- SET_SENSE (42_config.md R213). -/
def execSetSense (pin : Nat) (val : Val) (s : State) : Out :=
  setField .setSense .sense pin val s

end Sys2Proof.Machine
end

