-- ==== Sys2Proof/Machine/PortOps.lean ====
section
/-! DEFINITION. The port-wide operations, each a single bus access (41_port.md R170 to R184). -/

namespace Sys2Proof.Machine

/-- READ_LEVEL (41_port.md R170). -/
def execReadLevel (pin : Nat) (s : State) : Out :=
  accept s fun o => do
    checkPin pin
    s.checkBase o.a
    s.loadOp .readLevel (o.a + s.cfg.offsets.inp) fun w => bitOf w pin

/-- READ_OUTPUT (41_port.md R171). -/
def execReadOutput (pin : Nat) (s : State) : Out :=
  accept s fun o => do
    checkPin pin
    s.checkBase o.a
    s.loadOp .readOutput (o.a + s.cfg.offsets.out) fun w => bitOf w pin

/-- SET_OUTPUT (41_port.md R172). -/
def execSetOutput (pin : Nat) (s : State) : Out :=
  accept s fun o => do
    checkPin pin
    s.checkBase o.a
    s.storeOp .setOutput (o.a + s.cfg.offsets.outset) (pinMask pin)

/-- CLEAR_OUTPUT (41_port.md R173). -/
def execClearOutput (pin : Nat) (s : State) : Out :=
  accept s fun o => do
    checkPin pin
    s.checkBase o.a
    s.storeOp .clearOutput (o.a + s.cfg.offsets.outclr) (pinMask pin)

/-- WRITE_OUTPUT: one store to the set or the clear register, chosen by the value (41_port.md R174). -/
def execWriteOutput (pin : Nat) (val : Val) (s : State) : Out :=
  accept s fun o => do
    checkPin pin
    checkVal .writeOutput val
    s.checkBase o.a
    s.storeOp .writeOutput (o.a + if val = 1 then s.cfg.offsets.outset else s.cfg.offsets.outclr) (pinMask pin)

/-- GET_DIRECTION (41_port.md R175). -/
def execGetDirection (pin : Nat) (s : State) : Out :=
  accept s fun o => do
    checkPin pin
    s.checkBase o.a
    s.loadOp .getDirection (o.a + s.cfg.offsets.dir) fun w => directionFlag w pin

/-- SET_DIRECTION: one store to the direction-set or direction-clear register (41_port.md R176). -/
def execSetDirection (pin : Nat) (val : Val) (s : State) : Out :=
  accept s fun o => do
    checkPin pin
    checkVal .setDirection val
    s.checkBase o.a
    s.storeOp .setDirection (o.a + if val = 1 then s.cfg.offsets.dirset else s.cfg.offsets.dirclr) (pinMask pin)

/-- READ_LATCH: the whole latch word (41_port.md R177). -/
def execReadLatch (s : State) : Out :=
  accept s fun o => do
    s.checkBase o.a
    s.loadOp .readLatch (o.a + s.cfg.offsets.latch) id

/-- GET_LATCH (41_port.md R178). -/
def execGetLatch (pin : Nat) (s : State) : Out :=
  accept s fun o => do
    checkPin pin
    s.checkBase o.a
    s.loadOp .getLatch (o.a + s.cfg.offsets.latch) fun w => bitOf w pin

/-- CLEAR_LATCH: a one-bit store to the write-1-to-clear latch register (41_port.md R179). -/
def execClearLatch (pin : Nat) (s : State) : Out :=
  accept s fun o => do
    checkPin pin
    s.checkBase o.a
    s.storeOp .clearLatch (o.a + s.cfg.offsets.latch) (pinMask pin)

/-- GET_DETECT_MODE (41_port.md R180). -/
def execGetDetectMode (s : State) : Out :=
  accept s fun o => do
    s.checkBase o.a
    s.loadOp .getDetectMode (o.a + s.cfg.offsets.detectmode) fun w => w &&& 1

/-- SET_DETECT_MODE: a whole-register store (41_port.md R181). -/
def execSetDetectMode (val : Val) (s : State) : Out :=
  accept s fun o => do
    checkVal .setDetectMode val
    s.checkBase o.a
    s.storeOp .setDetectMode (o.a + s.cfg.offsets.detectmode) (val.setWidth 32)

end Sys2Proof.Machine
end

