-- ==== Sys2Proof/Machine/Dispatch.lean ====
section
/-! DEFINITION. The meaning of each instruction: the accept step of the acting sequencer on its latched request,
one arm per operation of 30_encoding.md R113. -/

namespace Sys2Proof.Machine

def exec (i : Instr) (s : State) : Host.Outcome State Fault Refusal :=
  match i with
  | .read32 => Sys2Proof.Machine.execRead32 s
  | .write32 => Sys2Proof.Machine.execWrite32 s
  | .rmw32 => Sys2Proof.Machine.execRmw32 s
  | .readLevel pin => Sys2Proof.Machine.execReadLevel pin s
  | .readOutput pin => Sys2Proof.Machine.execReadOutput pin s
  | .setOutput pin => Sys2Proof.Machine.execSetOutput pin s
  | .clearOutput pin => Sys2Proof.Machine.execClearOutput pin s
  | .writeOutput pin val => Sys2Proof.Machine.execWriteOutput pin val s
  | .getDirection pin => Sys2Proof.Machine.execGetDirection pin s
  | .setDirection pin val => Sys2Proof.Machine.execSetDirection pin val s
  | .readLatch => Sys2Proof.Machine.execReadLatch s
  | .getLatch pin => Sys2Proof.Machine.execGetLatch pin s
  | .clearLatch pin => Sys2Proof.Machine.execClearLatch pin s
  | .getDetectMode => Sys2Proof.Machine.execGetDetectMode s
  | .setDetectMode val => Sys2Proof.Machine.execSetDetectMode val s
  | .readConfigRaw pin => Sys2Proof.Machine.execReadConfigRaw pin s
  | .readConfig pin => Sys2Proof.Machine.execReadConfig pin s
  | .configure pin => Sys2Proof.Machine.execConfigure pin s
  | .update pin => Sys2Proof.Machine.execUpdate pin s
  | .getCfgDir pin => Sys2Proof.Machine.execGetCfgDir pin s
  | .getInput pin => Sys2Proof.Machine.execGetInput pin s
  | .getPull pin => Sys2Proof.Machine.execGetPull pin s
  | .getDrive pin => Sys2Proof.Machine.execGetDrive pin s
  | .getSense pin => Sys2Proof.Machine.execGetSense pin s
  | .setCfgDir pin val => Sys2Proof.Machine.execSetCfgDir pin val s
  | .setInput pin val => Sys2Proof.Machine.execSetInput pin val s
  | .setPull pin val => Sys2Proof.Machine.execSetPull pin val s
  | .setDrive pin val => Sys2Proof.Machine.execSetDrive pin val s
  | .setSense pin val => Sys2Proof.Machine.execSetSense pin val s

end Sys2Proof.Machine
end

