-- ==== Sys2Proof/Machine/Agents.lean ====
section
/-! DEFINITION. The steps of the agents: a sequencer's accept step and RMW write step, the requester's moves, the
pins, the other bus masters and Reset (20_memory.md R82 to R86, R93; 10_state.md R31 to R33; 60_exceptions.md
R245 to R248; 70_reset_and_hazards.md R270, R271). A move that is not enabled takes no step (log 3). -/

namespace Sys2Proof.Machine

/-- Acceptance takes the issued request and latches the operand registers (10_state.md R33). -/
def Seq.latch (q : Seq) : Seq :=
  { q with lat := q.ops, issued := false }

/-- The accept step of sequencer `k`, whose registers are `q`: latch, decode (60_exceptions.md R241), then the
operation's meaning (10_state.md R33). -/
def State.acceptStep (k : Nat) (q : Seq) (s : State) : Out :=
  let s₁ := ({ s with actor := k } : State).modifySeq k Seq.latch
  match decode q.ops.req with
  | .error c => .next (s₁.enterFault q.ops { code := c, detail := .nothing })
  | .ok i => exec i s₁

/-- The RMW write step of sequencer `k` with its HOLD `h`; a fault it raises is entered with the latched request
(40_mmio.md R155, R156, log 5). -/
def State.writeStep (k : Nat) (q : Seq) (h : Hold) (s : State) : Out :=
  let s₁ : State := { s with actor := k }
  match s₁.rmwWrite h with
  | .ok t => .next t
  | .error r => .next (s₁.enterFault q.lat r)

/-- The step of sequencer `k` that is enabled, if one is: none when it is faulted, the write step while an RMW is
pending, the accept step when it is idle with a request issued (20_memory.md R82, R93, 60_exceptions.md R248). -/
def State.seqStep (k : Nat) (s : State) : Out :=
  match s.seqs[k]? with
  | none => .next s
  | some q =>
    if q.fault then .next s
    else match q.phase with
      | .rmwPending h => s.writeStep k q h
      | .idle => if q.canAccept then s.acceptStep k q else .next s

/-- Operand registers after the requester writes one (10_state.md R31). -/
def Operands.put (o : Operands) : OperandWrite → Operands
  | .req w => { o with req := w }
  | .a w => { o with a := w }
  | .d0 w => { o with d0 := w }
  | .d1 w => { o with d1 := w }
  | .record r => { o with record := r }

/-- The requester of sequencer `k` writes an operand register (10_state.md R31, log 4). -/
def State.writeOperand (k : Nat) (w : OperandWrite) (s : State) : State :=
  s.modifySeq k fun q => { q with ops := q.ops.put w }

/-- The requester of sequencer `k` issues the request its operand registers hold; it waits until the sequencer
accepts it (10_state.md R33, 20_memory.md R93, log 4). -/
def State.issueRequest (k : Nat) (s : State) : State :=
  s.modifySeq k fun q => { q with issued := true }

/-- Whether a result register holds a value (10_state.md R32). -/
def Seq.hasResult (q : Seq) : ResultReg → Bool
  | .rdata => q.rdata.isSome
  | .rrec => q.rrec.isSome

/-- The requester of sequencer `k` consumes a result register: F_UNWRITTEN_RESULT where it holds no value
(60_exceptions.md R245). A sequencer already faulted keeps its first fault (R248, log 10). -/
def State.consumeResult (k : Nat) (r : ResultReg) (s : State) : State :=
  s.modifySeq k fun q =>
    if q.hasResult r || q.fault then q
    else q.enterFault q.ops { code := .unwrittenResult, detail := .register r }

/-- `EnvIn(b, v)` (20_memory.md R84). -/
def State.envIn (b v : Word) (s : State) : State :=
  if b ∈ s.portBases then (s.modifyPort b fun p => { p with inp := v }).log (.envIn b v) else s

/-- `EnvLatch(b, m)` (20_memory.md R85). -/
def State.envLatch (b m : Word) (s : State) : State :=
  if b ∈ s.portBases then (s.modifyPort b fun p => { p with latch := p.latch ||| m }).log (.envLatch b m) else s

/-- A fault raised by an `Other` access: GFAULT is set and no access performed (60_exceptions.md R247). -/
def State.globalFault (addr : Word) (r : Raise) (s : State) : State :=
  { s with gfault := some (r.code, addr) }

/-- A read by another bus master (20_memory.md R86, 10_state.md R53). -/
def State.otherRead (addr : Word) (s : State) : State :=
  if s.cfg.otherMasters then
    match s.checkRead addr with
    | .ok v => s.memRead .other addr v
    | .error r => s.globalFault addr r
  else s

/-- The checks of a write, in order: the address, then the value (40_mmio.md R154). -/
def State.checkWrite (s : State) (addr v : Word) : Except Raise (Word × Reg) := do
  let (b, r) ← s.checkWriteAddr addr
  checkWriteValue r addr v
  return (b, r)

/-- A write by another bus master (20_memory.md R86, 10_state.md R53). -/
def State.otherWrite (addr v : Word) (s : State) : State :=
  if s.cfg.otherMasters then
    match s.checkWrite addr v with
    | .ok (b, r) => s.memWrite .other b r addr v
    | .error r => s.globalFault addr r
  else s

/-- `Reset`: every element at its reset value, the reset event appended (70_reset_and_hazards.md R271, log 14). -/
def State.resetStep (d : ResetDraw) (s : State) : State :=
  State.resetFrom s.cfg d s.hist s.sched

/-- The step a move names. -/
def State.perform (a : Action) (s : State) : Out :=
  match a with
  | .seq k => s.seqStep k
  | .operand k w => .next (s.writeOperand k w)
  | .issue k => .next (s.issueRequest k)
  | .consume k r => .next (s.consumeResult k r)
  | .envIn b v => .next (s.envIn b v)
  | .envLatch b m => .next (s.envLatch b m)
  | .otherRead addr => .next (s.otherRead addr)
  | .otherWrite addr v => .next (s.otherWrite addr v)
  | .reset d => .next (s.resetStep d)

/-- One step: the next move of the schedule is taken; with nothing scheduled nobody moves (20_memory.md R82,
log 2). -/
def State.advance (s : State) : Out :=
  match s.sched with
  | [] => .next s
  | a :: rest => ({ s with sched := rest } : State).perform a

/-- A sequencer whose next step accepts the request word `w`: REQ written, the request issued, idle and not
faulted (10_state.md R33, log 17). -/
def Seq.withRequest (w : Word) (q : Seq) : Seq :=
  { q with ops := { q.ops with req := w }, issued := true, phase := .idle, fault := false, cause := none,
           finfo := none }

/-- The state whose very next step is sequencer 0's acceptance of the request word `w` (log 17). -/
def State.withRequest (w : Word) (s : State) : State :=
  { s with seqs := s.seqs.modify 0 (Seq.withRequest w), sched := .seq 0 :: s.sched }

end Sys2Proof.Machine
end

