-- ==== Sys2Proof/Machine/Step.lean ====
section
/-! DEFINITION. The machine's step, and a request word placed where the next step takes it (20_memory.md R82,
10_state.md R33, R34; log 2, log 17). -/

namespace Sys2Proof.Machine

/-- One step of the machine: one indivisible transition of the agent the schedule names (00_scope.md R17). -/
def step (s : State) : Host.Outcome State Fault Refusal :=
  s.advance

/-- The state with the instruction whose bits are `w`, every bit at or above `nbits` 0, as sequencer 0's issued
request, and sequencer 0 next to move. The block fetches nothing (20_memory.md R89): this stands for the requester
writing REQ and issuing (log 17). -/
def State.withFetchWord (s : State) (nbits w : Nat) : State :=
  s.withRequest (BitVec.ofNat 32 (w % 2 ^ nbits))

end Sys2Proof.Machine
end

