-- ==== Sys2Proof/Machine/Assembler.lean ====
section
/-! DEFINITION. The textual syntax of a request: one line to the operand registers the requester writes before it
issues the request (30_encoding.md R120, R121; 70_reset_and_hazards.md R273). Text is a list of characters. -/

namespace Sys2Proof.Machine

/-- A line of text: the pseudo-instruction `pin b, n`, which has no encoding and no effect (30_encoding.md R121), or
a request, as the operand registers it writes, REQ last. -/
inductive AsmLine where
  | descriptor (base : Word) (pin : Nat)
  | request (writes : List OperandWrite)
  deriving DecidableEq, Repr

/-- The character that opens a record. -/
def openBrace : Char := Char.ofNat 0x7B

/-- The character that closes a record. -/
def closeBrace : Char := Char.ofNat 0x7D

/-- The mnemonics in lower case, and DOC0's call names as aliases (30_encoding.md R120). -/
def asmMnemonics : List (List Char × Op) :=
  [("read32".toList, .read32), ("write32".toList, .write32), ("rmw32".toList, .rmw32),
   ("read_level".toList, .readLevel), ("read_output".toList, .readOutput), ("set_output".toList, .setOutput),
   ("clear_output".toList, .clearOutput), ("write_output".toList, .writeOutput),
   ("get_direction".toList, .getDirection), ("set_direction".toList, .setDirection)]
  ++ [("read_latch".toList, .readLatch), ("get_latch".toList, .getLatch), ("clear_latch".toList, .clearLatch),
   ("get_detect_mode".toList, .getDetectMode), ("set_detect_mode".toList, .setDetectMode),
   ("read_config_raw".toList, .readConfigRaw), ("read_config".toList, .readConfig),
   ("configure".toList, .configure), ("update".toList, .update), ("get_cfg_dir".toList, .getCfgDir)]
  ++ [("get_input".toList, .getInput), ("get_pull".toList, .getPull), ("get_drive".toList, .getDrive),
   ("get_sense".toList, .getSense), ("set_cfg_dir".toList, .setCfgDir), ("set_input".toList, .setInput),
   ("set_pull".toList, .setPull), ("set_drive".toList, .setDrive), ("set_sense".toList, .setSense)]
  ++ [("read_modify_write32".toList, .rmw32), ("write".toList, .writeOutput)]

/-- The value of a hexadecimal digit. -/
def hexDigit? (c : Char) : Option Nat :=
  if '0' ≤ c ∧ c ≤ '9' then some (c.toNat - '0'.toNat)
  else if 'a' ≤ c ∧ c ≤ 'f' then some (c.toNat - 'a'.toNat + 10)
  else if 'A' ≤ c ∧ c ≤ 'F' then some (c.toNat - 'A'.toNat + 10)
  else none

/-- The number the digits write in a base, from the value read so far. -/
def digits? (radix : Nat) : List Char → Nat → Option Nat
  | [], acc => some acc
  | c :: cs, acc => do
    let d ← hexDigit? c
    if d < radix then digits? radix cs (acc * radix + d) else none

/-- A C-style hexadecimal or a decimal number (30_encoding.md R120). The rule does not say whether the prefix may be
`0X` or what a leading zero means. DESIGN CHOICE (log 22): the prefix is `0x` alone, and a number without it is
decimal whatever its first digit, so `010` is ten. -/
def number? : List Char → Option Nat
  | [] => none
  | ['0', 'x'] => none
  | '0' :: 'x' :: cs => digits? 16 cs 0
  | cs => digits? 10 cs 0

/-- A number that is a 32-bit word. -/
def word? (cs : List Char) : Option Word := do
  let n ← number? cs
  if n < 0x100000000 then some (BitVec.ofNat 32 n) else none

/-- A number that is a pin index a request can hold (30_encoding.md R112). -/
def pin? (cs : List Char) : Option Nat := do
  let n ← number? cs
  if n < 32 then some n else none

/-- Spaces around an operand carry nothing. -/
def trimSpaces (cs : List Char) : List Char :=
  ((cs.dropWhile (· == ' ')).reverse.dropWhile (· == ' ')).reverse

/-- The operands of a line: separated by commas outside a record's braces (30_encoding.md R120). -/
def splitOperands : List Char → List Char → Nat → List (List Char)
  | [], cur, _ => [trimSpaces cur.reverse]
  | c :: cs, cur, depth =>
    if c = ',' ∧ depth = 0 then trimSpaces cur.reverse :: splitOperands cs [] 0
    else if c = openBrace then splitOperands cs (c :: cur) (depth + 1)
    else if c = closeBrace then splitOperands cs (c :: cur) (depth - 1)
    else splitOperands cs (c :: cur) depth

/-- The spelling of a direction (30_encoding.md R120). -/
def asmDir? (cs : List Char) : Option Dir :=
  if cs = "in".toList then some .input else if cs = "out".toList then some .output else none

/-- The spelling of an input-buffer setting (30_encoding.md R120). -/
def asmIBuf? (cs : List Char) : Option IBuf :=
  if cs = "connect".toList then some .connect else if cs = "disconnect".toList then some .disconnect else none

/-- The spelling of a pull setting (30_encoding.md R120). -/
def asmPull? (cs : List Char) : Option Pull :=
  if cs = "none".toList then some .none
  else if cs = "down".toList then some .down
  else if cs = "up".toList then some .up
  else Option.none

/-- The spelling of a drive mode, `d0` to `d7` (30_encoding.md R120). -/
def asmDrive? : List Char → Option Drive
  | ['d', c] => do
    let n ← hexDigit? c
    if n < 8 then some (BitVec.ofNat 3 n) else none
  | _ => none

/-- The spelling of a sense setting (30_encoding.md R120). -/
def asmSense? (cs : List Char) : Option Sense :=
  if cs = "off".toList then some .off
  else if cs = "high".toList then some .high
  else if cs = "low".toList then some .low
  else none

/-- The spelling of a detect mode, as program P3 of 95_test_vectors.md writes it. -/
def asmMode? (cs : List Char) : Option Val :=
  if cs = "default".toList then some 0 else if cs = "latched".toList then some 1 else none

/-- A record `dir, ibuf, pull, drive, sense` in braces (30_encoding.md R120). -/
def asmRecord? (cs : List Char) : Option Record :=
  match cs, cs.reverse with
  | o :: _, c :: _ =>
    if o = openBrace ∧ c = closeBrace then
      match splitOperands (cs.drop 1).dropLast [] 0 with
      | [d, i, p, dr, se] => do
        let d ← asmDir? d
        let i ← asmIBuf? i
        let p ← asmPull? p
        let dr ← asmDrive? dr
        let se ← asmSense? se
        some { dir := d, input := i, pull := p, drive := dr, sense := se }
      | _ => none
    else none
  | _, _ => none

/-- The VAL code an operand spells by name for an operation (30_encoding.md R114, R120). -/
def asmValName? (op : Op) (cs : List Char) : Option Val :=
  match op with
  | .setDirection | .setCfgDir => (asmDir? cs).map fun d => d.code.setWidth 3
  | .setInput => (asmIBuf? cs).map fun i => i.code.setWidth 3
  | .setPull => (asmPull? cs).map fun p => p.code.setWidth 3
  | .setDrive => asmDrive? cs
  | .setSense => (asmSense? cs).map fun x => x.code.setWidth 3
  | .setDetectMode => asmMode? cs
  | .writeOutput | .read32 | .write32 | .rmw32 | .readLevel | .readOutput | .setOutput | .clearOutput
  | .getDirection | .readLatch | .getLatch | .clearLatch | .getDetectMode | .readConfigRaw | .readConfig
  | .configure | .update | .getCfgDir | .getInput | .getPull | .getDrive | .getSense => none

/-- A VAL operand: a name, or a number that fits the 3-bit field. -/
def asmVal? (op : Op) (cs : List Char) : Option Val :=
  match asmValName? op cs with
  | some v => some v
  | none => do
    let n ← number? cs
    if n < 8 then some (BitVec.ofNat 3 n) else none

/-- The operand registers a request writes: the address or base, then by operation the pin, the value, the record
and the masks, and last the request word (30_encoding.md R113, R120). R120 gives no short form. DESIGN CHOICE
(log 22): a line that leaves out an operand R113 lists for its operation, or has one more, is no request. -/
def asmRequest? (op : Op) (args : List (List Char)) : Option (List OperandWrite) :=
  match op, args with
  | .write32, [a, w] => do
    return [.a (← word? a), .d0 (← word? w), .req (encode .write32)]
  | .rmw32, [a, c, x] => do
    return [.a (← word? a), .d0 (← word? c), .d1 (← word? x), .req (encode .rmw32)]
  | .configure, [a, n, r] => do
    return [.a (← word? a), .record ((← asmRecord? r).toBus), .req (encode (.configure (← pin? n)))]
  | .update, [a, n, r, m] => do
    return [.a (← word? a), .record ((← asmRecord? r).toBus), .d0 (← word? m),
      .req (encode (.update (← pin? n)))]
  | op, [a] =>
    if op = .read32 ∨ op = .readLatch ∨ op = .getDetectMode then do
      return [.a (← word? a), .req (encode (Instr.make op 0 0))]
    else none
  | .setDetectMode, [a, v] => do
    return [.a (← word? a), .req (encode (.setDetectMode (← asmVal? .setDetectMode v)))]
  | op, [a, n] =>
    if usesPin op ∧ ¬ usesVal op ∧ op ≠ .configure ∧ op ≠ .update then do
      return [.a (← word? a), .req (encode (Instr.make op (← pin? n) 0))]
    else none
  | op, [a, n, v] =>
    if usesPin op ∧ usesVal op then do
      return [.a (← word? a), .req (encode (Instr.make op (← pin? n) (← asmVal? op v)))]
    else none
  | _, _ => none

/-- The meaning of one line of text, none where it is no request (30_encoding.md R120, R121). -/
def assemble (line : List Char) : Option AsmLine :=
  let name := line.takeWhile (· != ' ')
  let args := splitOperands (line.dropWhile (· != ' ')) [] 0
  if name = "pin".toList then
    match args with
    | [a, n] => do return .descriptor (← word? a) (← pin? n)
    | _ => none
  else do
    let op ← asmMnemonics.lookup name
    return .request (← asmRequest? op args)

end Sys2Proof.Machine
end

