-- ==== Sys2Proof/WellFormed.lean ====
section
/-! DEFINITION. What a well-formed instruction is, and what well-formed parameters are (00_scope.md R9 to R13,
10_state.md R59, 30_encoding.md R111, R114). -/

namespace Sys2Proof

open Sys2Proof.Machine

/-- The pin operand lies in 0 to 31 (30_encoding.md R111). -/
abbrev Instr.PinOk (i : Instr) : Prop :=
  ∀ n ∈ i.pin?, n < 32

/-- The VAL operand lies in the operation's domain (30_encoding.md R114). -/
abbrev Instr.ValOk (i : Instr) : Prop :=
  ∀ v ∈ i.val?, v ∈ valDomain i.op

/-- A well-formed instruction: every operand in its documented domain. -/
abbrev Instr.WellFormed (i : Instr) : Prop :=
  i.PinOk ∧ i.ValOk

/-- The nine offsets as a list (00_scope.md R9). -/
def Offsets.toList (o : Offsets) : List Word :=
  [o.out, o.outset, o.outclr, o.inp, o.dir, o.dirset, o.dirclr, o.latch, o.detectmode]

/-- An offset is a multiple of 4, not among the configuration words, and below 0x1000 (00_scope.md R9 a, c, d). -/
def offsetOk (x : Word) : Bool :=
  x.toNat % 4 == 0 && (decide (x.toNat < 0x700) || decide (0x77C < x.toNat)) && decide (x.toNat < 0x1000)

/-- The constraints (a) to (d) on `OFFSETS` (00_scope.md R9). -/
abbrev Offsets.WF (o : Offsets) : Prop :=
  o.toList.all offsetOk = true ∧ o.toList.Nodup

/-- The constraints on a port's `RESET` values (10_state.md R59). -/
abbrev PortReset.WF (r : PortReset) : Prop :=
  ∀ n : Fin 32, legalCnf r.cnf[n] = true

/-- Well-formed parameters (00_scope.md R9 to R13, 10_state.md R59). -/
abbrev Params.WF (c : Params) : Prop :=
  c.offsets.WF ∧ BasesWF (c.ports.map (·.base)) ∧ (∀ pp ∈ c.ports, pp.reset.WF) ∧ 1 ≤ c.nseq

end Sys2Proof
end

