-- ==== Sys2Proof/Safety.lean ====
section
/-! DEFINITION. The terms claims are stated in: the machine invariant, the conditions under which a sequencer serves
a port, and the states a completed access or a fault leaves, written as record updates apart from the machine's own
operations. -/

namespace Sys2Proof.Machine

/-- A register that can be read: not a set or clear alias (10_state.md R43). -/
def Reg.readable : Reg → Bool
  | .outset | .outclr | .dirset | .dirclr => false
  | .out | .inp | .dir | .latch | .detectmode | .pinCnf _ => true

/-- The HOLD of a pending RMW names an address its accept step passed: aligned, mapped, readable and not IN
(40_mmio.md R152, R155). -/
def Seq.holdOk (s : State) (q : Seq) : Bool :=
  match q.phase with
  | .idle => true
  | .rmwPending h =>
    match s.checkWriteAddr h.addr with
    | .ok (_, r) => r.readable
    | .error _ => false

/-- A sequencer's fault state is consistent: FAULT, CAUSE and FINFO are set together, and a faulted sequencer is
IDLE (60_exceptions.md R246, R248). -/
abbrev Seq.FaultOk (q : Seq) : Prop :=
  q.cause.isSome = q.fault ∧ q.finfo.isSome = q.fault ∧ (q.fault = true → q.phase = .idle)

/-- The invariants (I1) to (I3) of the register file (10_state.md R49), and no value in direction storage that does
not exist (R41, log 16). -/
abbrev Port.Legal (aliased : Bool) (p : Port) : Prop :=
  (∀ n : Fin 32, legalCnf p.cnf[n] = true) ∧ (aliased = true → p.dir = 0)

/-- The machine invariant: well-formed parameters, one port of the register file per port base in canonical form,
legal registers (10_state.md R49), P_NSEQ sequencers, consistent fault states, and pending RMWs on addresses their
accept steps passed. -/
abbrev State.Inv (s : State) : Prop :=
  s.cfg.WF ∧ s.rf.map (·.base) = s.cfg.ports.map (·.base) ∧ (∀ p ∈ s.rf, p.Legal s.cfg.dirAlias) ∧
    s.seqs.length = s.cfg.nseq ∧ (∀ q ∈ s.seqs, q.FaultOk) ∧ ∀ q ∈ s.seqs, q.holdOk s = true

/-- The acting sequencer is `q`, the offsets and the register file are well-formed (00_scope.md R9, R10). -/
abbrev State.Acting (s : State) (q : Seq) : Prop :=
  s.cfg.offsets.WF ∧ s.rf.wf ∧ s.seqs[s.actor]? = some q

/-- The acting sequencer is `q` and its operand A is the base of port `p`: A is in PORT_BASES (60_exceptions.md
R243). -/
abbrev State.Serves (s : State) (q : Seq) (p : Port) : Prop :=
  s.Acting q ∧ s.port? q.lat.a = some p

/-- The register file with the port at base `b` changed by `f` and every other port as it was. -/
def Memory.withPort (m : Memory) (b : Word) (f : Port → Port) : Memory :=
  m.map fun p => if p.base = b then f p else p

/-- After an operation that is one load returning `v` from `addr`: the acting sequencer is `q'`, and the history
holds the read and the completion; nothing else changes. -/
def State.afterLoad (s : State) (op : Op) (addr v : Word) (q' : Seq) (res : Result) : State :=
  { s with seqs := s.seqs.set s.actor q'
           hist := s.hist ++ [.bus (.seq s.actor) .read addr v, .done s.actor op res] }

/-- After an operation that is one store of `v` to `addr`: the register file is `m`, and the history holds the write
and the completion; nothing else changes. -/
def State.afterStore (s : State) (op : Op) (addr v : Word) (m : Memory) : State :=
  { s with rf := m
           hist := s.hist ++ [.bus (.seq s.actor) .write addr v, .done s.actor op .noValue] }

/-- After the accept step of a read-modify-write with HOLD `h`: the acting sequencer `q` is RMW_PENDING, and the
history holds the read; nothing else changes. -/
def State.afterRmwRead (s : State) (q : Seq) (h : Hold) : State :=
  { s with seqs := s.seqs.set s.actor { q with phase := .rmwPending h }
           hist := s.hist ++ [.bus (.seq s.actor) .read h.addr h.old] }

/-- A sequencer after fault entry with code `c` and detail `d`, FINFO recording the REQ and A of `o`
(60_exceptions.md R246). -/
def Seq.faulted (q : Seq) (o : Operands) (c : FaultCode) (d : Detail) : Seq :=
  { q with fault := true, cause := some c, finfo := some { req := o.req, a := o.a, detail := d }, phase := .idle }

/-- After a fault of the acting sequencer `q` before any access: fault entry with its latched request, nothing else
changes. -/
def State.afterFault (s : State) (q : Seq) (c : FaultCode) (d : Detail) : State :=
  { s with seqs := s.seqs.set s.actor (q.faulted q.lat c d) }

/-- Sequencer `k`, whose registers are `q`, is next in the schedule. -/
abbrev State.Next (s : State) (k : Nat) (q : Seq) (rest : List Action) : Prop :=
  s.sched = .seq k :: rest ∧ s.seqs[k]? = some q

/-- Whether writing register `r` can change what reading register `r'` of the same port returns: an alias changes the
register it sets or clears, and under P_DIR_ALIAS the direction state and bit 0 of the configuration words are one
(10_state.md R39, R41, R43). -/
def Reg.affects (aliased : Bool) : Reg → Reg → Bool
  | .out, r' | .outset, r' | .outclr, r' => r' == .out
  | .inp, _ => false
  | .dir, r' | .dirset, r' | .dirclr, r' =>
    match r' with
    | .dir => true
    | .pinCnf _ => aliased
    | _ => false
  | .latch, r' => r' == .latch
  | .detectmode, r' => r' == .detectmode
  | .pinCnf n, r' => r' == .pinCnf n || (aliased && r' == .dir)

/-- A value a register takes: DETECTMODE bit 0 only, PIN_CNF a legal word, every other register any word
(10_state.md R44, R47, R48). -/
def Reg.takes : Reg → Word → Bool
  | .detectmode, v => v >>> 1 == 0
  | .pinCnf _, v => legalCnf v
  | .out, _ | .outset, _ | .outclr, _ | .inp, _ | .dir, _ | .dirset, _ | .dirclr, _ | .latch, _ => true

/-- The record operand `rec_F(VAL)`: field `f` carries `v`, every other field code 0 (30_encoding.md R119). -/
def RecBus.ofField (f : Field) (v : Val) : RecBus :=
  { dir := if f = .dir then v.setWidth 1 else 0, input := if f = .input then v.setWidth 1 else 0,
    pull := if f = .pull then v.setWidth 2 else 0, drive := if f = .drive then v else 0,
    sense := if f = .sense then v.setWidth 2 else 0 }

/-- Whether a detail is the info R240 gives a fault code, for a request whose operands are `o` (60_exceptions.md
R240). -/
def FaultCode.DetailFits (c : FaultCode) (o : Operands) (d : Detail) : Prop :=
  match c with
  | .illegalOp | .reservedReq | .badValue => d = .nothing
  | .pinRange => ∃ n, d = .pin n
  | .badRecord => d = .record o.record
  | .misaligned | .unmapped | .writeOnlyRead | .readOnlyWrite | .reservedFieldWrite | .reservedFieldRead =>
    ∃ a, d = .address a
  | .unwrittenResult => ∃ r, d = .register r

/-- Whether an event is a bus access (00_scope.md R23). -/
def Event.isBus : Event → Bool
  | .bus _ _ _ _ => true
  | .envIn _ _ | .envLatch _ _ | .done _ _ _ | .reset => false

/-- Two states whose registers and bus accesses are the same: equal in bus effect (30_encoding.md R121). -/
abbrev SameBusEffect (t u : State) : Prop :=
  t.rf = u.rf ∧ t.hist.filter Event.isBus = u.hist.filter Event.isBus

/-- The setter of a field (42_config.md R209 to R213). -/
def setterOf (f : Field) (pin : Nat) (val : Val) : Instr :=
  match f with
  | .dir => .setCfgDir pin val
  | .input => .setInput pin val
  | .pull => .setPull pin val
  | .drive => .setDrive pin val
  | .sense => .setSense pin val

/-- The getter of a field (42_config.md R204 to R208). -/
def getterOf (f : Field) (pin : Nat) : Instr :=
  match f with
  | .dir => .getCfgDir pin
  | .input => .getInput pin
  | .pull => .getPull pin
  | .drive => .getDrive pin
  | .sense => .getSense pin

/-- After a move of the requester of sequencer `k`: the schedule's rest, and its registers `q'`. -/
def State.afterMove (s : State) (rest : List Action) (k : Nat) (q' : Seq) : State :=
  { s with sched := rest, seqs := s.seqs.set k q' }

/-- The state with another latched request in the acting sequencer `q`. -/
def State.withLatched (s : State) (q : Seq) (o : Operands) : State :=
  { s with seqs := s.seqs.set s.actor { q with lat := o } }

end Sys2Proof.Machine

namespace Sys2Proof

open Sys2Proof.Machine

/-- The operations of the MMIO layer (40_mmio.md R158). -/
def Instr.isMmio : Instr → Bool
  | .read32 | .write32 | .rmw32 => true
  | .readLevel _ | .readOutput _ | .setOutput _ | .clearOutput _ | .writeOutput _ _ | .getDirection _
  | .setDirection _ _ | .readLatch | .getLatch _ | .clearLatch _ | .getDetectMode | .setDetectMode _
  | .readConfigRaw _ | .readConfig _ | .configure _ | .update _ | .getCfgDir _ | .getInput _ | .getPull _
  | .getDrive _ | .getSense _ | .setCfgDir _ _ | .setInput _ _ | .setPull _ _ | .setDrive _ _
  | .setSense _ _ => false

/-- The operations that read REC (60_exceptions.md R242). -/
def Instr.readsRec : Instr → Bool
  | .configure _ | .update _ => true
  | .read32 | .write32 | .rmw32 | .readLevel _ | .readOutput _ | .setOutput _ | .clearOutput _
  | .writeOutput _ _ | .getDirection _ | .setDirection _ _ | .readLatch | .getLatch _ | .clearLatch _
  | .getDetectMode | .setDetectMode _ | .readConfigRaw _ | .readConfig _ | .getCfgDir _ | .getInput _
  | .getPull _ | .getDrive _ | .getSense _ | .setCfgDir _ _ | .setInput _ _ | .setPull _ _ | .setDrive _ _
  | .setSense _ _ => false

/-- The operations that only load (70_reset_and_hazards.md R286, first row). -/
def Instr.isLoad : Instr → Bool
  | .read32 | .readLevel _ | .readOutput _ | .getDirection _ | .readLatch | .getLatch _ | .getDetectMode
  | .readConfigRaw _ | .readConfig _ | .getCfgDir _ | .getInput _ | .getPull _ | .getDrive _ | .getSense _ => true
  | .write32 | .rmw32 | .setOutput _ | .clearOutput _ | .writeOutput _ _ | .setDirection _ _ | .clearLatch _
  | .setDetectMode _ | .configure _ | .update _ | .setCfgDir _ _ | .setInput _ _ | .setPull _ _ | .setDrive _ _
  | .setSense _ _ => false

/-- The operations that are read-modify-writes (70_reset_and_hazards.md R286, last row). -/
def Instr.isRmw : Instr → Bool
  | .rmw32 | .update _ | .setCfgDir _ _ | .setInput _ _ | .setPull _ _ | .setDrive _ _ | .setSense _ _ => true
  | .read32 | .readLevel _ | .readOutput _ | .getDirection _ | .readLatch | .getLatch _ | .getDetectMode
  | .readConfigRaw _ | .readConfig _ | .getCfgDir _ | .getInput _ | .getPull _ | .getDrive _ | .getSense _
  | .write32 | .setOutput _ | .clearOutput _ | .writeOutput _ _ | .setDirection _ _ | .clearLatch _
  | .setDetectMode _ | .configure _ => false

/-- The address an operation that is one store writes, from the address form its rule gives, none for any other
operation (30_encoding.md R119, 41_port.md R172 to R181, 42_config.md R202). -/
def Instr.storeAddr? (i : Instr) (o : Offsets) (a : Word) : Option Word :=
  match i with
  | .write32 => some a
  | .setOutput _ => some (a + o.outset)
  | .clearOutput _ => some (a + o.outclr)
  | .writeOutput _ v => some (a + if v = 1 then o.outset else o.outclr)
  | .setDirection _ v => some (a + if v = 1 then o.dirset else o.dirclr)
  | .clearLatch _ => some (a + o.latch)
  | .setDetectMode _ => some (a + o.detectmode)
  | .configure n => some (cfgAddr a n)
  | .read32 | .rmw32 | .readLevel _ | .readOutput _ | .getDirection _ | .readLatch | .getLatch _ | .getDetectMode
  | .readConfigRaw _ | .readConfig _ | .update _ | .getCfgDir _ | .getInput _ | .getPull _ | .getDrive _
  | .getSense _ | .setCfgDir _ _ | .setInput _ _ | .setPull _ _ | .setDrive _ _ | .setSense _ _ => none

/-- Whether a move of an agent is a write to address `a` where its checks pass: an access of another bus master, the
accept step of an instruction that is one store, or the write step of a pending RMW (20_memory.md R82, R86). -/
def Machine.Action.Stores (s : State) (a : Word) : Action → Prop
  | .otherWrite addr _ => addr = a
  | .seq j => ∃ q, s.seqs[j]? = some q ∧
      ((q.phase = .idle ∧ ∃ i, decode q.ops.req = .ok i ∧ i.storeAddr? s.cfg.offsets q.ops.a = some a) ∨
        ∃ h, q.phase = .rmwPending h ∧ h.addr = a)
  | .operand _ _ | .issue _ | .consume _ _ | .envIn _ _ | .envLatch _ _ | .otherRead _ | .reset _ => False

/-- The fault codes an operation's accept step can raise after decoding, in a state that meets the invariant
(60_exceptions.md R244). -/
def Instr.acceptFaults : Instr → List FaultCode
  | .read32 => [.misaligned, .unmapped, .writeOnlyRead]
  | .write32 => [.misaligned, .unmapped, .readOnlyWrite, .reservedFieldWrite]
  | .rmw32 => [.misaligned, .unmapped, .writeOnlyRead, .readOnlyWrite]
  | .readLevel _ | .readOutput _ | .getDirection _ | .getLatch _ | .readConfigRaw _ | .getCfgDir _ | .getInput _
  | .getDrive _ | .setOutput _ | .clearOutput _ | .clearLatch _ | .readConfig _ | .getPull _ | .getSense _ =>
    [.pinRange, .misaligned, .unmapped]
  | .readLatch | .getDetectMode => [.misaligned, .unmapped]
  | .writeOutput _ _ | .setDirection _ _ | .setCfgDir _ _ | .setInput _ _ | .setPull _ _ | .setSense _ _ =>
    [.pinRange, .badValue, .misaligned, .unmapped]
  | .setDrive _ _ => [.pinRange, .misaligned, .unmapped]
  | .setDetectMode _ => [.badValue, .misaligned, .unmapped]
  | .configure _ | .update _ => [.pinRange, .badRecord, .misaligned, .unmapped]

end Sys2Proof
end

