-- ==== Sys2Proof/Certificates/Slice0/Obligations.lean ====
section
/-! DEFINITION. The statements for the provers, each for every state and every parameter value: `State.cfg` carries
the OPEN parameters (log 1), so a statement holds for both values of P_DIR_ALIAS and every OFFSETS, PORT_BASES and
RESET that meet the premises it names. -/

open Sys2Proof Sys2Proof.Machine

/-! ### Encodings -/

/-- Decoding the request word of an instruction gives it back, every pin and every VAL (30_encoding.md R112, R113). -/
def Obligations.RequestRoundTrip : Prop :=
  ∀ i : Instr, i.Encodable → decode (encode i) = .ok i

/-- A request word that decodes is the word of the instruction it decodes to: no bit of it is dropped
(30_encoding.md R112, R115). -/
def Obligations.DecodedRequestReencodes : Prop :=
  ∀ (w : Word) (i : Instr), decode w = .ok i → i.Encodable ∧ encode i = w

/-- R118: every word has exactly one verdict. F_ILLEGAL_OP exactly for the 35 opcodes R117 lists; F_RESERVED_REQ
exactly when the opcode is assigned and the word fails its row's mask; otherwise the operation with its PIN and VAL,
whatever VAL is. -/
def Obligations.DecoderVerdicts : Prop :=
  ∀ w : Word,
    (decode w = .error .illegalOp ↔
      (fieldOp w).toNat ∈ [0x00] ++ List.range' 0x04 4 ++ List.range' 0x14 4 ++ List.range' 0x1C 4
        ++ List.range' 0x25 3 ++ List.range' 0x2D 19) ∧
    (decode w = .error .reservedReq ↔
      ∃ op, opcode op = fieldOp w ∧ w &&& requestMask op ≠ requestMatch op) ∧
    (∀ i, decode w = .ok i ↔
      opcode i.op = fieldOp w ∧ w &&& requestMask i.op = requestMatch i.op ∧
        i.pin? = (if usesPin i.op then some (fieldPin w).toNat else none) ∧
        i.val? = (if usesVal i.op then some (fieldVal w) else none)) ∧
    (∀ c, decode w = .error c → c = .illegalOp ∨ c = .reservedReq)

/-- R115: for an assigned opcode the verdict is F_RESERVED_REQ exactly when one of bits 7:6, 15:13, 31:19 is
nonzero, or PIN or VAL is nonzero where the row has none; equivalently when `w & mask ≠ match`. -/
def Obligations.ReservedRequestBits : Prop :=
  ∀ (w : Word) (op : Op), opcode op = fieldOp w →
    (decode w = .error .reservedReq ↔
      w.extractLsb' 6 2 ≠ 0 ∨ w.extractLsb' 13 3 ≠ 0 ∨ w.extractLsb' 19 13 ≠ 0 ∨
        (usesPin op = false ∧ fieldPin w ≠ 0) ∨ (usesVal op = false ∧ fieldVal w ≠ 0)) ∧
    (decode w = .error .reservedReq ↔ w &&& requestMask op ≠ requestMatch op)

/-- A few request words of 95_test_vectors.md V4, written out from R112 and R113. -/
def Obligations.SampleWordsDecode : Prop :=
  decode 0x00000001 = .ok .read32 ∧ decode 0x00000D08 = .ok (.readLevel 13) ∧
    decode 0x00030D2A = .ok (.setPull 13 3) ∧ decode 0x00071F2B = .ok (.setDrive 31 7) ∧
    decode 0x00010013 = .ok (.setDetectMode 1) ∧ decode 0x00000044 = .error .illegalOp ∧
    decode 0x00000041 = .error .reservedReq

/-- R107 (a) to (e): the round-trip laws of the codec. -/
def Obligations.PackUnpackLaws : Prop :=
  (∀ r : Record, unpack (pack r) = .ok r) ∧
    (∀ (w : Word) (r : Record), unpack w = .ok r → pack r = w &&& fieldsMask) ∧
    (∀ r r' : Record, pack r = pack r' → r = r') ∧
    (∀ (r : Record) (f : Field), fieldOf f (pack r) = r.code f) ∧
    (∀ (m : Word) (r₁ r₂ : Record) (f : Field),
      (f.mask &&& m = f.mask →
        fieldOf f ((pack r₁ &&& ~~~m) ||| (pack r₂ &&& m)) = fieldOf f (pack r₂)) ∧
      (f.mask &&& m = 0 → fieldOf f ((pack r₁ &&& ~~~m) ||| (pack r₂ &&& m)) = fieldOf f (pack r₁)))

/-- R105: UNPACK of any word, by its bits; the reserved bits do not matter. -/
def Obligations.UnpackVerdicts : Prop :=
  ∀ w : Word,
    (w.extractLsb' 2 2 = 2 → unpack w = .error .pull) ∧
    (w.extractLsb' 2 2 ≠ 2 → w.extractLsb' 16 2 = 1 → unpack w = .error .sense) ∧
    (w.extractLsb' 2 2 ≠ 2 → w.extractLsb' 16 2 ≠ 1 →
      ∃ r, unpack w = .ok r ∧ r.dir.code = (w.extractLsb' 0 1).setWidth 32 ∧
        r.input.code = (w.extractLsb' 1 1).setWidth 32 ∧ r.pull.code = (w.extractLsb' 2 2).setWidth 32 ∧
        r.drive = w.extractLsb' 8 3 ∧ r.sense.code = (w.extractLsb' 16 2).setWidth 32) ∧
    unpack (w &&& ~~~rsvMask) = unpack w

/-- R104: PACK is the OR of the shifted codes, leaves the reserved bits 0 and never makes a reserved code. -/
def Obligations.PackIsLegal : Prop :=
  ∀ r : Record,
    pack r = r.dir.code ||| (r.input.code <<< 1) ||| (r.pull.code <<< 2) ||| (r.drive.setWidth 32 <<< 8)
      ||| (r.sense.code <<< 16) ∧
    pack r &&& 0xFFFCF8F0 = 0 ∧ (pack r).extractLsb' 2 2 ≠ 2 ∧ (pack r).extractLsb' 16 2 ≠ 1

/-- R109: COMBINE bit by bit; a bit set in `set` ends up 1 even where it is also in `clr`. -/
def Obligations.CombineSetsAfterClearing : Prop :=
  ∀ (old clr set : Word) (n : Nat),
    (combine old clr set).getLsbD n = (set.getLsbD n || (old.getLsbD n && !clr.getLsbD n)) ∧
    (set.getLsbD n = true → (combine old clr set).getLsbD n = true)

/-- The worked lines of R120 assemble to the operand registers and request words of R112 and R113. -/
def Obligations.AssembledExamples : Prop :=
  assemble "read32 0x50000510".toList = some (.request [.a 0x50000510, .req 0x00000001]) ∧
    assemble "rmw32 0x50000714, 0x0000000C, 0x00000004".toList
      = some (.request [.a 0x50000714, .d0 0x0000000C, .d1 0x00000004, .req 0x00000003]) ∧
    assemble "set_pull 0x50000000, 13, up".toList = some (.request [.a 0x50000000, .req 0x00030D2A])

/-! ### The step, scheduling and the hold -/

/-- A sequencer's accept step on a request that decodes is `exec` of the decoded instruction, at the state where
this sequencer acts, its operand registers are latched and the request is taken (10_state.md R33; the flag and the
schedule are the model's own, log 2 to log 4). -/
def Obligations.StepRunsDecodedRequest : Prop :=
  ∀ (s : State) (k : Nat) (q : Seq) (rest : List Action) (i : Instr), s.Next k q rest →
    q.fault = false → q.phase = .idle → q.issued = true → decode q.ops.req = .ok i →
    step s = exec i { s with sched := rest, actor := k,
                             seqs := s.seqs.set k { q with lat := q.ops, issued := false } }

/-- R241: an accept step on a request word with an unassigned opcode enters F_ILLEGAL_OP, and on a word that fails
its row's mask F_RESERVED_REQ, before any bus access: only the sequencer's registers change. -/
def Obligations.UndecodableRequestFaults : Prop :=
  ∀ (s : State) (k : Nat) (q : Seq) (rest : List Action), s.Next k q rest →
    q.fault = false → q.phase = .idle → q.issued = true →
    ((∀ op, opcode op ≠ fieldOp q.ops.req) →
      step s = .next { s with sched := rest, actor := k,
                              seqs := s.seqs.set k
                                (Seq.faulted { q with lat := q.ops, issued := false } q.ops .illegalOp .nothing) }) ∧
    (∀ op, opcode op = fieldOp q.ops.req → q.ops.req &&& requestMask op ≠ requestMatch op →
      step s = .next { s with sched := rest, actor := k,
                              seqs := s.seqs.set k
                                (Seq.faulted { q with lat := q.ops, issued := false } q.ops .reservedReq .nothing) })

/-- A faulted sequencer takes no step: a scheduled step of it changes nothing but the schedule, so a request issued
to it is stuck (60_exceptions.md R248). That an unenabled move is consumed is the model's choice (log 3). -/
def Obligations.FaultedSequencerTakesNoStep : Prop :=
  ∀ (s : State) (k : Nat) (q : Seq) (rest : List Action), s.Next k q rest → q.fault = true →
    step s = .next { s with sched := rest }

/-- A pending RMW's write step is enabled whenever its sequencer is scheduled unfaulted, it ends IDLE, and a request
issued meanwhile is still held with its operand registers (20_memory.md R93, 70_reset_and_hazards.md R287). -/
def Obligations.PendingWriteStepReturnsToIdle : Prop :=
  ∀ (s : State) (k : Nat) (q : Seq) (rest : List Action) (h : Hold), s.Next k q rest → q.fault = false →
    q.phase = .rmwPending h →
    ∃ t q', step s = .next t ∧ t.seqs[k]? = some q' ∧ q'.phase = .idle ∧ q'.issued = q.issued ∧
      q'.ops = q.ops ∧ q'.lat = q.lat

/-- Every step of every state answers a next state: the faults of the spec are next states, and no step of the
machine stops (60_exceptions.md R246, log 8). -/
def Obligations.EveryStepAnswersNext : Prop :=
  ∀ s : State, ∃ t, step s = .next t

/-! ### Invariants and reset -/

/-- Every step keeps the machine invariant: canonical register file, legal configuration words, P_NSEQ sequencers,
consistent fault states, pending RMWs on addresses their accept steps passed. -/
def Obligations.StepKeepsInvariant : Prop :=
  ∀ s t : State, s.Inv → step s = .next t → t.Inv

/-- The machine invariant holds after power-on reset under EX (log 1). -/
def Obligations.ResetSatisfiesInvariant : Prop :=
  State.reset.Inv

/-- A Reset step establishes the machine invariant in any state whose parameters are well-formed, whatever else that
state holds and whatever the reset draws (70_reset_and_hazards.md R270, R271). -/
def Obligations.ResetEstablishesInvariant : Prop :=
  ∀ (s t : State) (d : ResetDraw) (rest : List Action), s.cfg.WF → s.sched = .reset d :: rest →
    step s = .next t → t.Inv

/-- R49: (I1) to (I3) hold after any reset under well-formed parameters, and every step of every agent keeps them. -/
def Obligations.ConfigWordsStayLegal : Prop :=
  (∀ (c : Params) (d : ResetDraw) (h : List Event) (l : List Action), c.WF →
    ∀ p ∈ (State.resetFrom c d h l).rf, ∀ n : Fin 32,
      p.cnf[n] &&& 0xFFFCF8F0 = 0 ∧ p.cnf[n].extractLsb' 2 2 ≠ 2 ∧ p.cnf[n].extractLsb' 16 2 ≠ 1) ∧
  (∀ s t : State, s.cfg.WF →
    (∀ p ∈ s.rf, ∀ n : Fin 32,
      p.cnf[n] &&& 0xFFFCF8F0 = 0 ∧ p.cnf[n].extractLsb' 2 2 ≠ 2 ∧ p.cnf[n].extractLsb' 16 2 ≠ 1) →
    step s = .next t →
    ∀ p ∈ t.rf, ∀ n : Fin 32,
      p.cnf[n] &&& 0xFFFCF8F0 = 0 ∧ p.cnf[n].extractLsb' 2 2 ≠ 2 ∧ p.cnf[n].extractLsb' 16 2 ≠ 1)

/-- R271: a Reset step at any point of a run clears every fault, abandons a pending RMW, empties the result
registers and GFAULT, gives every port register its RESET value, and appends the reset event. -/
def Obligations.ResetStepEffect : Prop :=
  ∀ (s : State) (d : ResetDraw) (rest : List Action), s.sched = .reset d :: rest →
    ∃ t, step s = .next t ∧ t.cfg = s.cfg ∧ t.hist = s.hist ++ [.reset] ∧ t.gfault = none ∧
      t.seqs.length = s.cfg.nseq ∧
      (∀ q ∈ t.seqs, q.phase = .idle ∧ q.fault = false ∧ q.cause = none ∧ q.finfo = none ∧ q.rdata = none ∧
        q.rrec = none) ∧
      t.rf.length = s.cfg.ports.length ∧
      (∀ (i : Nat) (p : Port) (pp : PortParams), t.rf[i]? = some p → s.cfg.ports[i]? = some pp →
        p.base = pp.base ∧ p.out = pp.reset.out ∧ p.latch = pp.reset.latch ∧ p.dm = pp.reset.dm ∧
          p.cnf = pp.reset.cnf ∧ (s.cfg.dirAlias = false → p.dir = pp.reset.dir))

/-- The parameters never change during a run, and the ports of the register file stay those of PORT_BASES
(70_reset_and_hazards.md R273). -/
def Obligations.ParametersNeverChange : Prop :=
  ∀ s t : State, step s = .next t →
    t.cfg = s.cfg ∧ (s.portBases = s.cfg.ports.map (·.base) → t.portBases = s.portBases)

/-- The history only grows (10_state.md R53), at a Reset too (log 14). -/
def Obligations.HistoryOnlyGrows : Prop :=
  ∀ s t : State, step s = .next t → ∃ l, t.hist = s.hist ++ l

/-- Nothing in the machine reads the history: with another history behind it a step does the same (10_state.md
R53). -/
def Obligations.HistoryIsNeverRead : Prop :=
  ∀ (s t : State) (h : List Event), step s = .next t →
    step { s with hist := h ++ s.hist } = .next { t with hist := h ++ t.hist }

/-- R46: IN of a port changes only by EnvIn (or a Reset), which gives it any value whatever else the port holds; a
latch bit is set only by EnvLatch (or a Reset) and cleared only by a write to LATCH, whoever steps. -/
def Obligations.InputsChangeOnlyByEnvironment : Prop :=
  ∀ (s t : State) (a : Action) (rest : List Action) (i : Nat) (p p' : Port), s.sched = a :: rest →
    step s = .next t → s.rf[i]? = some p → t.rf[i]? = some p' → (∀ d, a ≠ .reset d) →
    ((∀ b v, a ≠ .envIn b v) → p'.inp = p.inp) ∧
      (∀ v, a = .envIn p.base v → p' = { p with inp := v }) ∧
      ((∀ b m, a ≠ .envLatch b m) → p'.latch &&& ~~~p.latch = 0) ∧
      (p.latch &&& ~~~p'.latch ≠ 0 →
        ∃ ag v l, t.hist = s.hist ++ .bus ag .write (p.base + s.cfg.offsets.latch) v :: l)

/-! ### The registers of a port -/

/-- R41: the direction state under both values of P_DIR_ALIAS. Not aliased, it is the register DIR, independent of
the configuration words; aliased, it is bit 0 of the 32 configuration words, and the storage DIR is never touched. -/
def Obligations.DirectionStateAliasing : Prop :=
  ∀ (p : Port) (v : Word) (n : Fin 32),
    (p.dirv false = p.dir ∧ p.setDirv false v = { p with dir := v } ∧
      ((p.write false (.pinCnf n) v).dirv false = p.dirv false)) ∧
    ((p.dirv true).getLsbD n = p.cnf[n].getLsbD 0 ∧
      (p.setDirv true v).cnf[n] = (p.cnf[n] &&& ~~~1#32) ||| ((v >>> n.val) &&& 1#32) ∧
      { p.setDirv true v with cnf := p.cnf } = p ∧
      (p.setDirv true v).dirv true = v ∧
      ((p.write true (.pinCnf n) v).dirv true).getLsbD n = v.getLsbD 0)

/-- The write effects of R43, register by register; no row changes IN, and none changes another register but
through the direction alias: a write of the direction state changes DIR alone, or under the alias bit 0 of the
configuration words alone. -/
def Obligations.RegisterWriteEffects : Prop :=
  ∀ (aliased : Bool) (p : Port) (v : Word) (n : Fin 32),
    p.write aliased .out v = { p with out := v } ∧
    p.write aliased .outset v = { p with out := p.out ||| v } ∧
    p.write aliased .outclr v = { p with out := p.out &&& ~~~v } ∧
    (p.write aliased .dir v).dirv aliased = v ∧
    (p.write aliased .dirset v).dirv aliased = p.dirv aliased ||| v ∧
    (p.write aliased .dirclr v).dirv aliased = p.dirv aliased &&& ~~~v ∧
    (∀ r ∈ [Reg.dir, .dirset, .dirclr],
      { p.write aliased r v with dir := p.dir, cnf := p.cnf } = p ∧
      (aliased = false → (p.write aliased r v).cnf = p.cnf) ∧
      (aliased = true → (p.write aliased r v).dir = p.dir ∧
        ∀ m : Fin 32, (p.write aliased r v).cnf[m] &&& ~~~1#32 = p.cnf[m] &&& ~~~1#32)) ∧
    p.write aliased .latch v = { p with latch := p.latch &&& ~~~v } ∧
    p.write aliased .detectmode v = { p with dm := v.setWidth 1 } ∧
    p.write aliased (.pinCnf n) v = { p with cnf := p.cnf.set n v } ∧
    (∀ r, (p.write aliased r v).inp = p.inp ∧ (p.write aliased r v).base = p.base)

/-- The read column of R43 through the address map: the word at each register's address, none at the write-only
aliases (20_memory.md R71, R80). -/
def Obligations.RegisterReadsByAddress : Prop :=
  ∀ (s : State) (b : Word) (p : Port), s.cfg.offsets.WF → s.rf.wf → s.port? b = some p →
    s.readWord (b + s.cfg.offsets.out) = some p.out ∧
    s.readWord (b + s.cfg.offsets.outset) = none ∧
    s.readWord (b + s.cfg.offsets.outclr) = none ∧
    s.readWord (b + s.cfg.offsets.inp) = some p.inp ∧
    s.readWord (b + s.cfg.offsets.dir) = some (p.dirv s.cfg.dirAlias) ∧
    s.readWord (b + s.cfg.offsets.dirset) = none ∧
    s.readWord (b + s.cfg.offsets.dirclr) = none ∧
    s.readWord (b + s.cfg.offsets.latch) = some p.latch ∧
    s.readWord (b + s.cfg.offsets.detectmode) = some (p.dm.setWidth 32) ∧
    ∀ n : Fin 32, s.readWord (b + 0x700 + 4 * BitVec.ofNat 32 n) = some p.cnf[n]

/-! ### MMIO primitives and the write step -/

/-- READ32 of a readable register returns its value in RDATA, with one read event, and changes nothing else
(40_mmio.md R150). -/
def Obligations.Read32ReturnsRegister : Prop :=
  ∀ (s : State) (q : Seq) (b : Word) (p : Port) (r : Reg) (v : Word), s.Acting q → s.port? b = some p →
    q.lat.a = b + offsetOf s.cfg.offsets r → p.read s.cfg.dirAlias r = some v →
    exec .read32 s = .next (s.afterLoad .read32 q.lat.a v { q with rdata := some v } (.word v))

/-- WRITE32 of a value a writable register takes applies the register's write effect to its port alone, with one
write event (40_mmio.md R151). -/
def Obligations.Write32AppliesWriteEffect : Prop :=
  ∀ (s : State) (q : Seq) (b : Word) (p : Port) (r : Reg), s.Acting q → s.port? b = some p →
    q.lat.a = b + offsetOf s.cfg.offsets r → r ≠ .inp → r.takes q.lat.d0 = true →
    exec .write32 s = .next (s.afterStore .write32 q.lat.a q.lat.d0
      (s.rf.withPort b fun x => x.write s.cfg.dirAlias r q.lat.d0))

/-- RMW32's accept step reads the register into HOLD and leaves the sequencer RMW_PENDING (40_mmio.md R152). -/
def Obligations.Rmw32AcceptHoldsOldValue : Prop :=
  ∀ (s : State) (q : Seq) (b : Word) (p : Port) (r : Reg) (v : Word), s.Acting q → s.port? b = some p →
    q.lat.a = b + offsetOf s.cfg.offsets r → r ≠ .inp → p.read s.cfg.dirAlias r = some v →
    exec .rmw32 s = .next (s.afterRmwRead q
      { addr := q.lat.a, clr := q.lat.d0, set := q.lat.d1, old := v, op := .rmw32 })

/-- Where the MMIO operations trap, in the order of CHECK_READ, CHECK_WRITE_ADDR and CHECK_WRITE_VALUE; no trap
makes a bus access (40_mmio.md R153, R154, 60_exceptions.md R249, 70_reset_and_hazards.md R280). Which addresses have
`regAt a = none` is said by `MappedAddresses`. -/
def Obligations.MmioAccessTraps : Prop :=
  ∀ (s : State) (q : Seq), s.seqs[s.actor]? = some q →
    (q.lat.a.extractLsb' 0 2 ≠ 0 → ∀ i : Instr, i.isMmio = true →
      exec i s = .next (s.afterFault q .misaligned (.address q.lat.a))) ∧
    (q.lat.a.extractLsb' 0 2 = 0 → s.regAt q.lat.a = none → ∀ i : Instr, i.isMmio = true →
      exec i s = .next (s.afterFault q .unmapped (.address q.lat.a))) ∧
    (∀ p r, q.lat.a.extractLsb' 0 2 = 0 → s.regAt q.lat.a = some (p, r) →
      (r.readable = false → exec .read32 s = .next (s.afterFault q .writeOnlyRead (.address q.lat.a)) ∧
        exec .rmw32 s = .next (s.afterFault q .writeOnlyRead (.address q.lat.a))) ∧
      (r = .inp → exec .write32 s = .next (s.afterFault q .readOnlyWrite (.address q.lat.a)) ∧
        exec .rmw32 s = .next (s.afterFault q .readOnlyWrite (.address q.lat.a))) ∧
      (r = .detectmode → q.lat.d0 >>> 1 ≠ 0 →
        exec .write32 s = .next (s.afterFault q .readOnlyWrite (.address q.lat.a))) ∧
      (∀ n, r = .pinCnf n → q.lat.d0 &&& 0xFFFCF8F0 ≠ 0 →
        exec .write32 s = .next (s.afterFault q .readOnlyWrite (.address q.lat.a))) ∧
      (∀ n, r = .pinCnf n → q.lat.d0 &&& 0xFFFCF8F0 = 0 →
        q.lat.d0.extractLsb' 2 2 = 2 ∨ q.lat.d0.extractLsb' 16 2 = 1 →
        exec .write32 s = .next (s.afterFault q .reservedFieldWrite (.address q.lat.a))))

/-- The RMW write step writes COMBINE of the held values, whatever the register holds now; a value that fails
CHECK_WRITE_VALUE faults instead, with no write and no Done event (40_mmio.md R154, R155, R156). FINFO then records
the REQ and A of the latched request, which is DEDUCED (log 5), and the address of HOLD. A sequencer that is faulted,
or is IDLE with no request, has no step; that a scheduled move of it is consumed and changes nothing else is the
model's choice (log 3). -/
def Obligations.RmwWriteStep : Prop :=
  (∀ (s : State) (k : Nat) (q : Seq) (rest : List Action) (h : Hold) (b : Word) (p : Port) (r : Reg),
    s.Next k q rest → q.fault = false → q.phase = .rmwPending h → s.cfg.offsets.WF → s.rf.wf →
    s.port? b = some p → h.addr = b + offsetOf s.cfg.offsets r → r ≠ .inp →
    let v := (h.old &&& ~~~h.clr) ||| h.set
    (r.takes v = true →
      step s = .next { s with sched := rest, actor := k,
                              rf := s.rf.withPort b fun x => x.write s.cfg.dirAlias r v,
                              seqs := s.seqs.set k { q with phase := .idle },
                              hist := s.hist ++ [.bus (.seq k) .write h.addr v, .done k h.op .noValue] }) ∧
    (∀ c, (r = .detectmode ∧ v >>> 1 ≠ 0 ∧ c = .readOnlyWrite) ∨
          (∃ n, r = .pinCnf n ∧ v &&& 0xFFFCF8F0 ≠ 0 ∧ c = .readOnlyWrite) ∨
          (∃ n, r = .pinCnf n ∧ v &&& 0xFFFCF8F0 = 0 ∧ (v.extractLsb' 2 2 = 2 ∨ v.extractLsb' 16 2 = 1) ∧
            c = .reservedFieldWrite) →
      step s = .next { s with sched := rest, actor := k,
                              seqs := s.seqs.set k (q.faulted q.lat c (.address h.addr)) })) ∧
  (∀ (s : State) (k : Nat) (q : Seq) (rest : List Action), s.Next k q rest →
    q.fault = true ∨ (q.phase = .idle ∧ q.issued = false) → step s = .next { s with sched := rest })

/-- R157: an RMW on LATCH clears every latch bit set in the written word, among them every bit that was set at the
read and is not in the clear mask. -/
def Obligations.RmwOnLatchClearsPendingBits : Prop :=
  ∀ (s : State) (k : Nat) (q : Seq) (rest : List Action) (h : Hold) (b : Word) (p : Port),
    s.Next k q rest → q.fault = false → q.phase = .rmwPending h → s.cfg.offsets.WF → s.rf.wf →
    s.port? b = some p → h.addr = b + s.cfg.offsets.latch →
    ∃ t p', step s = .next t ∧ t.port? b = some p' ∧
      p' = { p with latch := p.latch &&& ~~~((h.old &&& ~~~h.clr) ||| h.set) } ∧
      ∀ n, h.old.getLsbD n = true → h.clr.getLsbD n = false → p'.latch.getLsbD n = false

/-- A write another agent makes to OUT, the direction register, DETECTMODE or a configuration word inside the RMW
window is lost, whether another bus master makes it or another sequencer, by a single store or by the write step of
its own RMW: after the write step the register file is the one the write step alone would have left (20_memory.md
R77, R88, 70_reset_and_hazards.md R275). -/
def Obligations.WriteInRmwWindowIsLost : Prop :=
  ∀ (s : State) (k : Nat) (q : Seq) (m : Action) (rest : List Action) (h : Hold) (b : Word) (p : Port) (r : Reg),
    s.sched = m :: .seq k :: rest → m ≠ .seq k → m.Stores s h.addr → s.seqs[k]? = some q → q.fault = false →
    q.phase = .rmwPending h → s.cfg.offsets.WF → s.rf.wf → s.port? b = some p →
    h.addr = b + offsetOf s.cfg.offsets r → (r = .out ∨ r = .dir ∨ r = .detectmode ∨ ∃ n, r = .pinCnf n) →
    r.takes ((h.old &&& ~~~h.clr) ||| h.set) = true →
    ∃ s₁ t, step s = .next s₁ ∧ step s₁ = .next t ∧
      t.rf = s.rf.withPort b fun y => y.write s.cfg.dirAlias r ((h.old &&& ~~~h.clr) ||| h.set)

/-- An RMW32 whose two steps nothing separates has the effect of one atomic write of COMBINE of the value it read,
and leaves the sequencer IDLE (20_memory.md R92). -/
def Obligations.UninterruptedRmwIsAtomic : Prop :=
  ∀ (s : State) (k : Nat) (q : Seq) (rest : List Action) (b : Word) (p : Port) (r : Reg) (v : Word),
    s.Next k q (.seq k :: rest) → q.fault = false → q.phase = .idle → q.issued = true →
    decode q.ops.req = .ok .rmw32 → s.cfg.offsets.WF → s.rf.wf → s.port? b = some p →
    q.ops.a = b + offsetOf s.cfg.offsets r → r ≠ .inp → p.read s.cfg.dirAlias r = some v →
    r.takes ((v &&& ~~~q.ops.d0) ||| q.ops.d1) = true →
    ∃ s₁ t q', step s = .next s₁ ∧ step s₁ = .next t ∧
      t.rf = s.rf.withPort b (fun x => x.write s.cfg.dirAlias r ((v &&& ~~~q.ops.d0) ||| q.ops.d1)) ∧
      t.seqs[k]? = some q' ∧ q'.phase = .idle ∧ q'.fault = false

/-- Two sequencers with pending RMWs on one configuration word: the word after both is the value of the later
write, computed from its own read, whichever of the two reads came first (42_config.md R215). -/
def Obligations.LaterWriteOfTwoPendingWins : Prop :=
  ∀ (s : State) (j k : Nat) (qj qk : Seq) (rest : List Action) (hj hk : Hold) (b : Word) (p : Port) (n : Fin 32),
    s.sched = .seq j :: .seq k :: rest → j ≠ k → s.seqs[j]? = some qj → s.seqs[k]? = some qk →
    qj.fault = false → qk.fault = false → qj.phase = .rmwPending hj → qk.phase = .rmwPending hk →
    s.cfg.offsets.WF → s.rf.wf → s.port? b = some p →
    hj.addr = b + offsetOf s.cfg.offsets (.pinCnf n) → hk.addr = b + offsetOf s.cfg.offsets (.pinCnf n) →
    legalCnf ((hj.old &&& ~~~hj.clr) ||| hj.set) = true → legalCnf ((hk.old &&& ~~~hk.clr) ||| hk.set) = true →
    ∃ s₁ t p', step s = .next s₁ ∧ step s₁ = .next t ∧ t.port? b = some p' ∧
      p'.cnf[n] = (hk.old &&& ~~~hk.clr) ||| hk.set

/-! ### Port-wide operations -/

/-- The port reads return the pin's bit, or the latch word, or the detect mode, in RDATA, each with one read event,
and change nothing else (41_port.md R170, R171, R175, R177, R178, R180). -/
def Obligations.PortReadsReturnTheirBit : Prop :=
  ∀ (s : State) (q : Seq) (p : Port) (n : Nat), s.Serves q p → n < 32 →
    let bit := fun w : Word => (w >>> n) &&& 1
    exec (.readLevel n) s = .next (s.afterLoad .readLevel (q.lat.a + s.cfg.offsets.inp) p.inp
      { q with rdata := some (bit p.inp) } (.word (bit p.inp))) ∧
    exec (.readOutput n) s = .next (s.afterLoad .readOutput (q.lat.a + s.cfg.offsets.out) p.out
      { q with rdata := some (bit p.out) } (.word (bit p.out))) ∧
    exec (.getDirection n) s = .next (s.afterLoad .getDirection (q.lat.a + s.cfg.offsets.dir)
      (p.dirv s.cfg.dirAlias) { q with rdata := some (if (p.dirv s.cfg.dirAlias).getLsbD n then 1 else 0) }
      (.word (if (p.dirv s.cfg.dirAlias).getLsbD n then 1 else 0))) ∧
    exec .readLatch s = .next (s.afterLoad .readLatch (q.lat.a + s.cfg.offsets.latch) p.latch
      { q with rdata := some p.latch } (.word p.latch)) ∧
    exec (.getLatch n) s = .next (s.afterLoad .getLatch (q.lat.a + s.cfg.offsets.latch) p.latch
      { q with rdata := some (bit p.latch) } (.word (bit p.latch))) ∧
    exec .getDetectMode s = .next (s.afterLoad .getDetectMode (q.lat.a + s.cfg.offsets.detectmode)
      (p.dm.setWidth 32) { q with rdata := some (p.dm.setWidth 32) } (.word (p.dm.setWidth 32)))

/-- The port writes store one word to the register their rule names, each with one write event, and change nothing
else (41_port.md R172, R173, R174, R176, R179, R181). -/
def Obligations.PortWritesStoreTheirMask : Prop :=
  ∀ (s : State) (q : Seq) (p : Port) (n : Nat), s.Serves q p → n < 32 →
    let mask : Word := 1#32 <<< n
    let o := s.cfg.offsets
    let al := s.cfg.dirAlias
    let setOut := s.rf.withPort q.lat.a fun x => { x with out := x.out ||| mask }
    let clrOut := s.rf.withPort q.lat.a fun x => { x with out := x.out &&& ~~~mask }
    exec (.setOutput n) s = .next (s.afterStore .setOutput (q.lat.a + o.outset) mask setOut) ∧
    exec (.clearOutput n) s = .next (s.afterStore .clearOutput (q.lat.a + o.outclr) mask clrOut) ∧
    exec (.writeOutput n 1) s = .next (s.afterStore .writeOutput (q.lat.a + o.outset) mask setOut) ∧
    exec (.writeOutput n 0) s = .next (s.afterStore .writeOutput (q.lat.a + o.outclr) mask clrOut) ∧
    exec (.setDirection n 1) s = .next (s.afterStore .setDirection (q.lat.a + o.dirset) mask
      (s.rf.withPort q.lat.a fun x => x.setDirv al (x.dirv al ||| mask))) ∧
    exec (.setDirection n 0) s = .next (s.afterStore .setDirection (q.lat.a + o.dirclr) mask
      (s.rf.withPort q.lat.a fun x => x.setDirv al (x.dirv al &&& ~~~mask))) ∧
    exec (.clearLatch n) s = .next (s.afterStore .clearLatch (q.lat.a + o.latch) mask
      (s.rf.withPort q.lat.a fun x => { x with latch := x.latch &&& ~~~mask })) ∧
    exec (.setDetectMode 0) s = .next (s.afterStore .setDetectMode (q.lat.a + o.detectmode) 0
      (s.rf.withPort q.lat.a fun x => { x with dm := 0 })) ∧
    exec (.setDetectMode 1) s = .next (s.afterStore .setDetectMode (q.lat.a + o.detectmode) 1
      (s.rf.withPort q.lat.a fun x => { x with dm := 1 }))

/-- R183: each port write changes exactly one bit of exactly one register of port A and no other port; under
P_DIR_ALIAS the bit SET_DIRECTION changes is bit 0 of the pin's configuration word. -/
def Obligations.PortWritesAreIsolated : Prop :=
  ∀ (s : State) (q : Seq) (p : Port) (n : Fin 32) (d : Val), s.Serves q p → d = 0 ∨ d = 1 →
    (∀ i ∈ [Instr.setOutput n, .clearOutput n, .writeOutput n d, .setDirection n d, .clearLatch n, .setDetectMode d],
      ∃ t, exec i s = .next t ∧ ∀ b, b ≠ q.lat.a → t.port? b = s.port? b) ∧
    (∀ i ∈ [Instr.setOutput n, .clearOutput n, .writeOutput n d], ∀ t p', exec i s = .next t →
      t.port? q.lat.a = some p' → { p' with out := p.out } = p ∧
        (∀ m : Nat, m ≠ n → p'.out.getLsbD m = p.out.getLsbD m) ∧
        p'.out.getLsbD n = (i = .setOutput n ∨ i = .writeOutput n 1 : Bool)) ∧
    (∀ t p', exec (.setDirection n d) s = .next t → t.port? q.lat.a = some p' →
      (p'.dirv s.cfg.dirAlias).getLsbD n = (d = 1 : Bool) ∧
      (∀ m : Nat, m ≠ n → (p'.dirv s.cfg.dirAlias).getLsbD m = (p.dirv s.cfg.dirAlias).getLsbD m) ∧
      (s.cfg.dirAlias = false → { p' with dir := p.dir } = p) ∧
      (s.cfg.dirAlias = true → { p' with cnf := p.cnf } = p ∧
        (∀ m : Fin 32, m ≠ n → p'.cnf[m] = p.cnf[m]) ∧
        p'.cnf[n] = (p.cnf[n] &&& ~~~1#32) ||| d.setWidth 32)) ∧
    (∀ t p', exec (.clearLatch n) s = .next t → t.port? q.lat.a = some p' →
      { p' with latch := p.latch } = p ∧ p'.latch.getLsbD n = false ∧
        (∀ m : Nat, m ≠ n → p'.latch.getLsbD m = p.latch.getLsbD m)) ∧
    (∀ t p', exec (.setDetectMode d) s = .next t → t.port? q.lat.a = some p' →
      { p' with dm := p.dm } = p ∧ p'.dm = d.setWidth 1)

/-- SET_DIRECTION then GET_DIRECTION returns the direction set, for every pin, both directions and both values of
P_DIR_ALIAS (95_test_vectors.md L1.2; 41_port.md R175, R176). -/
def Obligations.SetDirectionThenGetDirection : Prop :=
  ∀ (s t u : State) (q : Seq) (p : Port) (n : Nat) (d : Val), s.Serves q p → n < 32 → d = 0 ∨ d = 1 →
    exec (.setDirection n d) s = .next t → exec (.getDirection n) t = .next u →
    ∃ q', u.seqs[s.actor]? = some q' ∧ q'.rdata = some (d.setWidth 32)

/-! ### Pin configuration operations -/

/-- READ_CONFIG_RAW, GET_CFG_DIR, GET_INPUT and GET_DRIVE return the word or the field of the pin's configuration
word, with one read event, and change nothing else (42_config.md R200, R204, R205, R207). -/
def Obligations.ConfigReadsReturnWordOrField : Prop :=
  ∀ (s : State) (q : Seq) (p : Port) (n : Fin 32), s.Serves q p →
    let addr := q.lat.a + 0x700 + 4 * BitVec.ofNat 32 n
    let w := p.cnf[n]
    exec (.readConfigRaw n) s = .next (s.afterLoad .readConfigRaw addr w { q with rdata := some w } (.word w)) ∧
    exec (.getCfgDir n) s = .next (s.afterLoad .getCfgDir addr w
      { q with rdata := some ((w.extractLsb' 0 1).setWidth 32) } (.word ((w.extractLsb' 0 1).setWidth 32))) ∧
    exec (.getInput n) s = .next (s.afterLoad .getInput addr w
      { q with rdata := some ((w.extractLsb' 1 1).setWidth 32) } (.word ((w.extractLsb' 1 1).setWidth 32))) ∧
    exec (.getDrive n) s = .next (s.afterLoad .getDrive addr w
      { q with rdata := some ((w.extractLsb' 8 3).setWidth 32) } (.word ((w.extractLsb' 8 3).setWidth 32)))

/-- READ_CONFIG, GET_PULL and GET_SENSE complete on a word without the reserved code they check, and otherwise fault
after the read, whose event stays (42_config.md R201, R206, R208; the event is DEDUCED, log 11). -/
def Obligations.DecodingReadsCheckTheirCodes : Prop :=
  ∀ (s : State) (q : Seq) (p : Port) (n : Fin 32), s.Serves q p →
    let addr := q.lat.a + 0x700 + 4 * BitVec.ofNat 32 n
    let w := p.cnf[n]
    let pull : Word := (w.extractLsb' 2 2).setWidth 32
    let sense : Word := (w.extractLsb' 16 2).setWidth 32
    let faulted := { s.afterFault q .reservedFieldRead (.address addr) with
                     hist := s.hist ++ [.bus (.seq s.actor) .read addr w] }
    (∀ r, unpack w = .ok r → exec (.readConfig n) s = .next (s.afterLoad .readConfig addr w
      { q with rdata := some w, rrec := some r } (.record r))) ∧
    (pull ≠ 2 → exec (.getPull n) s = .next (s.afterLoad .getPull addr w { q with rdata := some pull }
      (.word pull))) ∧
    (sense ≠ 1 → exec (.getSense n) s = .next (s.afterLoad .getSense addr w { q with rdata := some sense }
      (.word sense))) ∧
    (∀ f, unpack w = .error f → exec (.readConfig n) s = .next faulted) ∧
    (pull = 2 → exec (.getPull n) s = .next faulted) ∧
    (sense = 1 → exec (.getSense n) s = .next faulted)

/-- CONFIGURE stores PACK of the record REC carries to the pin's configuration word, whatever was there (42_config.md
R202, R216). -/
def Obligations.ConfigureStoresPackedRecord : Prop :=
  ∀ (s : State) (q : Seq) (p : Port) (n : Fin 32) (rec : Record), s.Serves q p →
    q.lat.record.record? = some rec →
    exec (.configure n) s = .next (s.afterStore .configure (q.lat.a + 0x700 + 4 * BitVec.ofNat 32 n) (pack rec)
      (s.rf.withPort q.lat.a fun x => { x with cnf := x.cnf.set n (pack rec) }))

/-- CONFIGURE then READ_CONFIG returns the record and its packed word, for all 288 records and every pin
(95_test_vectors.md L1.4; 42_config.md R201, R202). -/
def Obligations.ConfigureThenReadConfig : Prop :=
  ∀ (s : State) (q : Seq) (p : Port) (n : Nat) (rec : Record), s.Serves q p → n < 32 →
    q.lat.record = rec.toBus →
    ∃ t u q', exec (.configure n) s = .next t ∧ exec (.readConfig n) t = .next u ∧
      u.seqs[s.actor]? = some q' ∧ q'.rrec = some rec ∧ q'.rdata = some (pack rec)

/-- The accept steps of UPDATE and the five setters read the pin's configuration word into HOLD, with the clear and
set words of their rules, and leave the sequencer RMW_PENDING (42_config.md R203, R209 to R213). -/
def Obligations.MaskedAcceptsHoldTheirMasks : Prop :=
  ∀ (s : State) (q : Seq) (p : Port) (n : Fin 32), s.Serves q p →
    let addr := q.lat.a + 0x700 + 4 * BitVec.ofNat 32 n
    (∀ rec, q.lat.record.record? = some rec → exec (.update n) s = .next (s.afterRmwRead q
      { addr := addr, clr := q.lat.d0, set := pack rec &&& q.lat.d0, old := p.cnf[n], op := .update })) ∧
    (∀ d : Val, d ∈ [0, 1] → exec (.setCfgDir n d) s = .next (s.afterRmwRead q
      { addr := addr, clr := 0x00000001, set := d.setWidth 32, old := p.cnf[n], op := .setCfgDir })) ∧
    (∀ i : Val, i ∈ [0, 1] → exec (.setInput n i) s = .next (s.afterRmwRead q
      { addr := addr, clr := 0x00000002, set := i.setWidth 32 <<< 1, old := p.cnf[n], op := .setInput })) ∧
    (∀ c : Val, c ∈ [0, 1, 3] → exec (.setPull n c) s = .next (s.afterRmwRead q
      { addr := addr, clr := 0x0000000C, set := c.setWidth 32 <<< 2, old := p.cnf[n], op := .setPull })) ∧
    (∀ d : Val, exec (.setDrive n d) s = .next (s.afterRmwRead q
      { addr := addr, clr := 0x00000700, set := d.setWidth 32 <<< 8, old := p.cnf[n], op := .setDrive })) ∧
    (∀ c : Val, c ∈ [0, 2, 3] → exec (.setSense n c) s = .next (s.afterRmwRead q
      { addr := addr, clr := 0x00030000, set := c.setWidth 32 <<< 16, old := p.cnf[n], op := .setSense }))

/-- A field setter whose two steps nothing separates sets its own field of the pin's configuration word and leaves
every other field and the word legal; its write step never faults (42_config.md R209 to R213, R214). -/
def Obligations.SetterChangesOnlyItsField : Prop :=
  ∀ (s : State) (k : Nat) (q : Seq) (rest : List Action) (p : Port) (f : Field) (n : Fin 32) (c : Val),
    s.Next k q (.seq k :: rest) → q.fault = false → q.phase = .idle → q.issued = true →
    decode q.ops.req = .ok (setterOf f n c) → c ∈ valDomain (setterOf f n c).op →
    s.cfg.offsets.WF → s.rf.wf → s.port? q.ops.a = some p → legalCnf p.cnf[n] = true →
    ∃ s₁ t p' q', step s = .next s₁ ∧ step s₁ = .next t ∧ t.port? q.ops.a = some p' ∧
      t.seqs[k]? = some q' ∧ q'.phase = .idle ∧ q'.fault = false ∧
      legalCnf p'.cnf[n] = true ∧ fieldOf f p'.cnf[n] = c.setWidth 32 ∧
      (∀ g, g ≠ f → fieldOf g p'.cnf[n] = fieldOf g p.cnf[n]) ∧
      (∀ m : Fin 32, m ≠ n → p'.cnf[m] = p.cnf[m])

/-- The equivalences of R121: WRITE_OUTPUT with SET_OUTPUT or CLEAR_OUTPUT, a setter with UPDATE of `rec_F(VAL)`
under `F_M`, CONFIGURE with WRITE32 of the packed record, UPDATE with RMW32 of its mask, and a getter with
READ_CONFIG_RAW, equal in bus effect; two read-modify-writes hold the same values for their write steps. -/
def Obligations.EqualBusEffects : Prop :=
  ∀ (s : State) (q : Seq) (p : Port) (n : Fin 32), s.Serves q p →
    (∀ t u, exec (.writeOutput n 1) s = .next t → exec (.setOutput n) s = .next u → SameBusEffect t u) ∧
    (∀ t u, exec (.writeOutput n 0) s = .next t → exec (.clearOutput n) s = .next u → SameBusEffect t u) ∧
    (∀ f c t u, c ∈ valDomain (setterOf f n c).op → exec (setterOf f n c) s = .next t →
      exec (.update n) (s.withLatched q { q.lat with record := RecBus.ofField f c, d0 := f.mask }) = .next u →
      SameBusEffect t u ∧ ∃ qt qu ht hu, t.seqs[s.actor]? = some qt ∧ u.seqs[s.actor]? = some qu ∧
        qt.phase = .rmwPending ht ∧ qu.phase = .rmwPending hu ∧ { ht with op := .update } = hu) ∧
    (∀ rec t u, q.lat.record.record? = some rec → exec (.configure n) s = .next t →
      exec .write32 (s.withLatched q
        { q.lat with a := q.lat.a + 0x700 + 4 * BitVec.ofNat 32 n, d0 := pack rec }) = .next u →
      SameBusEffect t u) ∧
    (∀ rec t u, q.lat.record.record? = some rec → exec (.update n) s = .next t →
      exec .rmw32 (s.withLatched q
        { q.lat with a := q.lat.a + 0x700 + 4 * BitVec.ofNat 32 n, d1 := pack rec &&& q.lat.d0 }) = .next u →
      SameBusEffect t u ∧ ∃ qt qu ht hu, t.seqs[s.actor]? = some qt ∧ u.seqs[s.actor]? = some qu ∧
        qt.phase = .rmwPending ht ∧ qu.phase = .rmwPending hu ∧ { hu with op := .update } = ht) ∧
    (∀ f t u, exec (getterOf f n) s = .next t → exec (.readConfigRaw n) s = .next u → SameBusEffect t u)

/-! ### Faults -/

/-- R242 and R243, in the order of R249: the pin's range, then VAL's domain, then the record, then the port base;
each enters its fault before any access, and only the acting sequencer's registers change. A decoded pin is always in
range. -/
def Obligations.ValidateOrder : Prop :=
  ∀ (s : State) (q : Seq) (i : Instr), s.seqs[s.actor]? = some q →
    (∀ n, i.pin? = some n → 32 ≤ n → exec i s = .next (s.afterFault q .pinRange (.pin n))) ∧
    (∀ v, i.PinOk → i.val? = some v → v ∉ valDomain i.op →
      exec i s = .next (s.afterFault q .badValue .nothing)) ∧
    (i.PinOk → i.readsRec = true → q.lat.record.pull = 2 ∨ q.lat.record.sense = 1 →
      exec i s = .next (s.afterFault q .badRecord (.record q.lat.record))) ∧
    (i.isMmio = false → i.WellFormed →
      (i.readsRec = true → q.lat.record.pull ≠ 2 ∧ q.lat.record.sense ≠ 1) →
      (q.lat.a.extractLsb' 0 2 ≠ 0 → exec i s = .next (s.afterFault q .misaligned (.address q.lat.a))) ∧
      (q.lat.a.extractLsb' 0 2 = 0 → q.lat.a ∉ s.portBases →
        exec i s = .next (s.afterFault q .unmapped (.address q.lat.a)))) ∧
    (∀ w, decode w = .ok i → i.PinOk)

/-- The accept step of each operation raises only the faults its row of R244 lists; in a state that meets the
invariant neither 8, 9 nor 11 arises from a port or configuration operation. -/
def Obligations.FaultsOfEachOperation : Prop :=
  ∀ (s t : State) (i : Instr) (q q' : Seq), s.Inv → s.seqs[s.actor]? = some q → q.fault = false →
    exec i s = .next t → t.seqs[s.actor]? = some q' → q'.fault = true →
    ∃ c, q'.cause = some c ∧ c ∈ i.acceptFaults

/-- R246: whatever fault a sequencer's own step raises, FAULT is set, CAUSE takes the code, FINFO the request word, A
and the kind of info R240 gives that code, PHASE is IDLE; the operand and result registers, the register file, GFAULT,
the parameters and every other sequencer are unchanged, and no write or Done event is recorded. An accept step has
latched the operand registers and taken the request, a write step keeps the latched request and one that waits. A
read event of the same step stays (R250, log 11); FINFO at the write step is of the latched request (DEDUCED, log 5).
Which address FINFO records is said by `MmioAccessTraps`, `RmwWriteStep`, `DecodingReadsCheckTheirCodes` and
`ValidateOrder`. -/
def Obligations.FaultEntryEffect : Prop :=
  ∀ (s t : State) (k : Nat) (q q' : Seq) (rest : List Action), s.Next k q rest → q.fault = false →
    step s = .next t → t.seqs[k]? = some q' → q'.fault = true →
    q'.phase = .idle ∧ q'.rdata = q.rdata ∧ q'.rrec = q.rrec ∧ q'.ops = q.ops ∧
      (q.phase = .idle → q'.lat = q.ops ∧ q'.issued = false) ∧
      (∀ h, q.phase = .rmwPending h → q'.lat = q.lat ∧ q'.issued = q.issued) ∧
      (∃ c d, q'.cause = some c ∧ c.DetailFits q'.lat d ∧
        q'.finfo = some { req := q'.lat.req, a := q'.lat.a, detail := d }) ∧
      t.rf = s.rf ∧ t.gfault = s.gfault ∧ t.cfg = s.cfg ∧ t.sched = rest ∧
      (∀ j, j ≠ k → t.seqs[j]? = s.seqs[j]?) ∧
      (t.hist = s.hist ∨ ∃ a v, t.hist = s.hist ++ [.bus (.seq k) .read a v])

/-- R245: consuming a result register that holds no value enters F_UNWRITTEN_RESULT in that sequencer, and consuming
one that holds a value changes nothing. What FINFO records of REQ and A, and that a sequencer already faulted keeps
its first fault when an empty register is consumed, is DEDUCED (log 10). -/
def Obligations.ConsumingEmptyResultFaults : Prop :=
  ∀ (s : State) (k : Nat) (q : Seq) (r : ResultReg) (rest : List Action), s.sched = .consume k r :: rest →
    s.seqs[k]? = some q →
    ((r = .rdata ∧ q.rdata = none ∨ r = .rrec ∧ q.rrec = none) →
      (q.fault = false → step s = .next (s.afterMove rest k (q.faulted q.ops .unwrittenResult (.register r)))) ∧
      (q.fault = true → step s = .next { s with sched := rest })) ∧
    ((r = .rdata ∧ q.rdata ≠ none ∨ r = .rrec ∧ q.rrec ≠ none) → step s = .next { s with sched := rest })

/-! ### The environment and the requester -/

/-- R84 and R85: EnvIn gives a port's IN any value, EnvLatch sets any latch bits and clears none; each records its
environment event and changes nothing else. -/
def Obligations.EnvironmentSteps : Prop :=
  ∀ (s : State) (b v : Word) (rest : List Action), b ∈ s.portBases →
    (s.sched = .envIn b v :: rest →
      step s = .next { s with sched := rest, rf := s.rf.withPort b fun x => { x with inp := v },
                              hist := s.hist ++ [.envIn b v] }) ∧
    (s.sched = .envLatch b v :: rest →
      step s = .next { s with sched := rest, rf := s.rf.withPort b fun x => { x with latch := x.latch ||| v },
                              hist := s.hist ++ [.envLatch b v] })

/-- R247: an Other access that fails a check sets GFAULT to the code and the address and performs no access; no
sequencer changes; and GFAULT stays set in every step but a Reset. The checks are CHECK_READ for a read,
CHECK_WRITE_ADDR and then CHECK_WRITE_VALUE for a write. -/
def Obligations.OtherFaultSetsGfault : Prop :=
  ∀ (s : State) (a v : Word) (rest : List Action) (x : Raise), s.cfg.otherMasters = true →
    (s.sched = .otherRead a :: rest → s.checkRead a = .error x →
      step s = .next { s with sched := rest, gfault := some (x.code, a) }) ∧
    (s.sched = .otherWrite a v :: rest → s.checkWriteAddr a = .error x →
      step s = .next { s with sched := rest, gfault := some (x.code, a) }) ∧
    (∀ b r, s.sched = .otherWrite a v :: rest → s.checkWriteAddr a = .ok (b, r) → checkWriteValue r a v = .error x →
      step s = .next { s with sched := rest, gfault := some (x.code, a) }) ∧
    (∀ t m, s.gfault.isSome = true → s.sched = m :: rest → (∀ d, m ≠ .reset d) → step s = .next t →
      t.gfault.isSome = true)

/-- An Other access that passes its checks is one atomic access: a read changes no register, a write has the write
effect of R43 on its port alone; both are recorded as bus events of Other (10_state.md R53) and need
P_OTHER_MASTERS (20_memory.md R86). Without it the step is not enabled; that a scheduled Other move is then consumed
and changes nothing else is the model's choice (log 3). -/
def Obligations.OtherAccessIsOneAtomicAccess : Prop :=
  ∀ (s : State) (b v w : Word) (p : Port) (r : Reg) (rest : List Action), s.cfg.offsets.WF → s.rf.wf →
    s.port? b = some p →
    let a := b + offsetOf s.cfg.offsets r
    (s.cfg.otherMasters = true → s.sched = .otherRead a :: rest → p.read s.cfg.dirAlias r = some w →
      step s = .next { s with sched := rest, hist := s.hist ++ [.bus .other .read a w] }) ∧
    (s.cfg.otherMasters = true → s.sched = .otherWrite a v :: rest → r ≠ .inp → r.takes v = true →
      step s = .next { s with sched := rest, rf := s.rf.withPort b fun x => x.write s.cfg.dirAlias r v,
                              hist := s.hist ++ [.bus .other .write a v] }) ∧
    (s.cfg.otherMasters = false → s.sched = .otherRead a :: rest ∨ s.sched = .otherWrite a v :: rest →
      step s = .next { s with sched := rest })

/-- The requester's moves: writing an operand register changes that register alone, also while an RMW is pending,
and never a latched request; issuing marks the request as waiting (10_state.md R31, R33, 20_memory.md R89). That
these moves are always enabled is the model's choice (log 4). -/
def Obligations.RequesterWritesOnlyItsRegisters : Prop :=
  ∀ (s : State) (k : Nat) (q : Seq) (rest : List Action), s.seqs[k]? = some q →
    (∀ w, s.sched = .operand k (.req w) :: rest →
      step s = .next (s.afterMove rest k { q with ops := { q.ops with req := w } })) ∧
    (∀ w, s.sched = .operand k (.a w) :: rest →
      step s = .next (s.afterMove rest k { q with ops := { q.ops with a := w } })) ∧
    (∀ w, s.sched = .operand k (.d0 w) :: rest →
      step s = .next (s.afterMove rest k { q with ops := { q.ops with d0 := w } })) ∧
    (∀ w, s.sched = .operand k (.d1 w) :: rest →
      step s = .next (s.afterMove rest k { q with ops := { q.ops with d1 := w } })) ∧
    (∀ r, s.sched = .operand k (.record r) :: rest →
      step s = .next (s.afterMove rest k { q with ops := { q.ops with record := r } })) ∧
    (s.sched = .issue k :: rest →
      step s = .next (s.afterMove rest k { q with issued := true }))

/-! ### Frames and isolation -/

/-- Loads and the accept steps of read-modify-writes change no register: every address reads as before, and so do
GFAULT, the parameters, the schedule, every other sequencer, and of the acting sequencer the operand registers, the
latched request and the issued flag; an RMW accept step leaves both result registers, every load but READ_CONFIG
leaves RREC (10_state.md R45, 42_config.md R217). -/
def Obligations.ReadingStepsFrame : Prop :=
  ∀ (s t : State) (i : Instr) (q : Seq), i.isLoad = true ∨ i.isRmw = true → s.seqs[s.actor]? = some q →
    exec i s = .next t →
    t.rf = s.rf ∧ (∀ a, t.readWord a = s.readWord a) ∧ t.gfault = s.gfault ∧ t.cfg = s.cfg ∧
      t.sched = s.sched ∧ t.actor = s.actor ∧ (∀ j, j ≠ s.actor → t.seqs[j]? = s.seqs[j]?) ∧
      ∃ q', t.seqs[s.actor]? = some q' ∧ q'.ops = q.ops ∧ q'.lat = q.lat ∧ q'.issued = q.issued ∧
        (i.isRmw = true → q'.rdata = q.rdata) ∧ ((∀ n, i ≠ .readConfig n) → q'.rrec = q.rrec) ∧
        (q'.fault = false → q.fault = false ∧ q'.cause = q.cause ∧ q'.finfo = q.finfo ∧
          (i.isLoad = true → q'.phase = q.phase))

/-- A single-store operation changes no address but those its register affects: with the address its rule computes,
every address whose register is in another port, or is not affected by the written register, reads as before; the
result registers, operands and other sequencers, GFAULT, parameters and schedule are unchanged (41_port.md R183,
10_state.md R61). -/
def Obligations.StoringStepsFrame : Prop :=
  ∀ (s t : State) (i : Instr) (q : Seq) (addr : Word), s.Acting q →
    i.storeAddr? s.cfg.offsets q.lat.a = some addr → exec i s = .next t →
    (∀ a, (∀ p r p' r', s.regAt addr = some (p, r) → s.regAt a = some (p', r') → p'.base = p.base →
        r.affects s.cfg.dirAlias r' = false) → t.readWord a = s.readWord a) ∧
      t.gfault = s.gfault ∧ t.cfg = s.cfg ∧ t.sched = s.sched ∧ t.actor = s.actor ∧
      (∀ j, j ≠ s.actor → t.seqs[j]? = s.seqs[j]?) ∧
      ∃ q', t.seqs[s.actor]? = some q' ∧ q'.ops = q.ops ∧ q'.lat = q.lat ∧ q'.issued = q.issued ∧
        q'.rdata = q.rdata ∧ q'.rrec = q.rrec ∧ (q'.fault = false → q' = q)

/-- Ports are independent: an operation on port A neither reads nor writes another port, so whatever change is made
to another port before it can be made after it (10_state.md R61). -/
def Obligations.PortsAreIndependent : Prop :=
  ∀ (s t : State) (i : Instr) (q : Seq) (b : Word) (f : Port → Port), s.Acting q → i.isMmio = false →
    b ≠ q.lat.a → (∀ p, (f p).base = p.base) → exec i s = .next t →
    exec i (s.modifyPort b f) = .next (t.modifyPort b f)

/-- A sequencer changes the register file only through one bus write, which the history records: the change is the
write effect of the register at the recorded address with the recorded value, and the address is the one the accepted
instruction's rule computes, or at a write step the one HOLD keeps, with COMBINE of the held values (10_state.md R43,
R60, 20_memory.md R81, 40_mmio.md R155). -/
def Obligations.RegisterChangesAreBusWrites : Prop :=
  ∀ (s t : State) (k : Nat) (q : Seq) (rest : List Action), s.Next k q rest → step s = .next t → t.rf ≠ s.rf →
    ∃ a v b r op, s.checkWriteAddr a = .ok (b, r) ∧ t.rf = s.rf.withPort b (Port.write s.cfg.dirAlias r v) ∧
      t.hist = s.hist ++ [.bus (.seq k) .write a v, .done k op .noValue] ∧
      ((q.phase = .idle ∧ ∃ i, decode q.ops.req = .ok i ∧ i.op = op ∧
          i.storeAddr? s.cfg.offsets q.ops.a = some a) ∨
        ∃ h, q.phase = .rmwPending h ∧ h.addr = a ∧ h.op = op ∧ v = (h.old &&& ~~~h.clr) ||| h.set)

/-! ### The address map -/

/-- R71: an address is mapped to register `r` of port `p` exactly when it is the port's base plus that register's
offset; it is unmapped exactly when it is no port base plus one of the nine OFFSETS or `0x700 + 4*n`. The premises
are the spec's own constraints on its parameters (00_scope.md R9, R10). -/
def Obligations.MappedAddresses : Prop :=
  ∀ (s : State) (a : Word), s.cfg.offsets.WF → s.rf.wf →
    (∀ p r, s.regAt a = some (p, r) ↔ p ∈ s.rf ∧ a = p.base + offsetOf s.cfg.offsets r) ∧
    (s.regAt a = none ↔ ∀ b ∈ s.portBases, (∀ o ∈ s.cfg.offsets.toList, a ≠ b + o) ∧
      ∀ n : Nat, n ≤ 31 → a ≠ b + BitVec.ofNat 32 (0x700 + 4 * n))
end

