-- ==== Sys2Proof/Laws/State.lean ====
section
/-! SUPPORT. What each update of the state leaves in each field: one lemma per field per update. -/

namespace Sys2Proof.Machine

section
variable (s : State) (e : Event) (k : Nat) (f : Seq → Seq) (b : Word) (g : Port → Port)

@[simp] theorem State.log_cfg : (s.log e).cfg = s.cfg := rfl
@[simp] theorem State.log_seqs : (s.log e).seqs = s.seqs := rfl
@[simp] theorem State.log_rf : (s.log e).rf = s.rf := rfl
@[simp] theorem State.log_gfault : (s.log e).gfault = s.gfault := rfl
@[simp] theorem State.log_hist : (s.log e).hist = s.hist ++ [e] := rfl
@[simp] theorem State.log_sched : (s.log e).sched = s.sched := rfl
@[simp] theorem State.log_actor : (s.log e).actor = s.actor := rfl

@[simp] theorem State.modifySeq_cfg : (s.modifySeq k f).cfg = s.cfg := rfl
@[simp] theorem State.modifySeq_seqs : (s.modifySeq k f).seqs = s.seqs.modify k f := rfl
@[simp] theorem State.modifySeq_rf : (s.modifySeq k f).rf = s.rf := rfl
@[simp] theorem State.modifySeq_gfault : (s.modifySeq k f).gfault = s.gfault := rfl
@[simp] theorem State.modifySeq_hist : (s.modifySeq k f).hist = s.hist := rfl
@[simp] theorem State.modifySeq_sched : (s.modifySeq k f).sched = s.sched := rfl
@[simp] theorem State.modifySeq_actor : (s.modifySeq k f).actor = s.actor := rfl

@[simp] theorem State.modifyPort_cfg : (s.modifyPort b g).cfg = s.cfg := rfl
@[simp] theorem State.modifyPort_seqs : (s.modifyPort b g).seqs = s.seqs := rfl
@[simp] theorem State.modifyPort_rf :
    (s.modifyPort b g).rf = s.rf.map fun p => if p.base = b then g p else p := rfl
@[simp] theorem State.modifyPort_gfault : (s.modifyPort b g).gfault = s.gfault := rfl
@[simp] theorem State.modifyPort_hist : (s.modifyPort b g).hist = s.hist := rfl
@[simp] theorem State.modifyPort_sched : (s.modifyPort b g).sched = s.sched := rfl
@[simp] theorem State.modifyPort_actor : (s.modifyPort b g).actor = s.actor := rfl

@[simp] theorem State.globalFault_cfg (r : Raise) : (s.globalFault b r).cfg = s.cfg := rfl
@[simp] theorem State.globalFault_seqs (r : Raise) : (s.globalFault b r).seqs = s.seqs := rfl
@[simp] theorem State.globalFault_rf (r : Raise) : (s.globalFault b r).rf = s.rf := rfl
@[simp] theorem State.globalFault_gfault (r : Raise) : (s.globalFault b r).gfault = some (r.code, b) := rfl
@[simp] theorem State.globalFault_hist (r : Raise) : (s.globalFault b r).hist = s.hist := rfl
@[simp] theorem State.globalFault_sched (r : Raise) : (s.globalFault b r).sched = s.sched := rfl
@[simp] theorem State.globalFault_actor (r : Raise) : (s.globalFault b r).actor = s.actor := rfl

end

section
variable (q : Seq) (v : Word) (r : Record) (p : Phase) (o : Operands) (x : Raise)

@[simp] theorem Seq.setRdata_ops : (q.setRdata v).ops = q.ops := rfl
@[simp] theorem Seq.setRdata_lat : (q.setRdata v).lat = q.lat := rfl
@[simp] theorem Seq.setRdata_issued : (q.setRdata v).issued = q.issued := rfl
@[simp] theorem Seq.setRdata_rdata : (q.setRdata v).rdata = some v := rfl
@[simp] theorem Seq.setRdata_rrec : (q.setRdata v).rrec = q.rrec := rfl
@[simp] theorem Seq.setRdata_phase : (q.setRdata v).phase = q.phase := rfl
@[simp] theorem Seq.setRdata_fault : (q.setRdata v).fault = q.fault := rfl
@[simp] theorem Seq.setRdata_cause : (q.setRdata v).cause = q.cause := rfl
@[simp] theorem Seq.setRdata_finfo : (q.setRdata v).finfo = q.finfo := rfl

@[simp] theorem Seq.setRrec_ops : (q.setRrec r).ops = q.ops := rfl
@[simp] theorem Seq.setRrec_lat : (q.setRrec r).lat = q.lat := rfl
@[simp] theorem Seq.setRrec_issued : (q.setRrec r).issued = q.issued := rfl
@[simp] theorem Seq.setRrec_rdata : (q.setRrec r).rdata = q.rdata := rfl
@[simp] theorem Seq.setRrec_rrec : (q.setRrec r).rrec = some r := rfl
@[simp] theorem Seq.setRrec_phase : (q.setRrec r).phase = q.phase := rfl
@[simp] theorem Seq.setRrec_fault : (q.setRrec r).fault = q.fault := rfl
@[simp] theorem Seq.setRrec_cause : (q.setRrec r).cause = q.cause := rfl
@[simp] theorem Seq.setRrec_finfo : (q.setRrec r).finfo = q.finfo := rfl

@[simp] theorem Seq.setPhase_ops : (q.setPhase p).ops = q.ops := rfl
@[simp] theorem Seq.setPhase_lat : (q.setPhase p).lat = q.lat := rfl
@[simp] theorem Seq.setPhase_issued : (q.setPhase p).issued = q.issued := rfl
@[simp] theorem Seq.setPhase_rdata : (q.setPhase p).rdata = q.rdata := rfl
@[simp] theorem Seq.setPhase_rrec : (q.setPhase p).rrec = q.rrec := rfl
@[simp] theorem Seq.setPhase_phase : (q.setPhase p).phase = p := rfl
@[simp] theorem Seq.setPhase_fault : (q.setPhase p).fault = q.fault := rfl
@[simp] theorem Seq.setPhase_cause : (q.setPhase p).cause = q.cause := rfl
@[simp] theorem Seq.setPhase_finfo : (q.setPhase p).finfo = q.finfo := rfl

@[simp] theorem Seq.enterFault_ops : (q.enterFault o x).ops = q.ops := rfl
@[simp] theorem Seq.enterFault_lat : (q.enterFault o x).lat = q.lat := rfl
@[simp] theorem Seq.enterFault_issued : (q.enterFault o x).issued = q.issued := rfl
@[simp] theorem Seq.enterFault_rdata : (q.enterFault o x).rdata = q.rdata := rfl
@[simp] theorem Seq.enterFault_rrec : (q.enterFault o x).rrec = q.rrec := rfl
@[simp] theorem Seq.enterFault_phase : (q.enterFault o x).phase = .idle := rfl
@[simp] theorem Seq.enterFault_fault : (q.enterFault o x).fault = true := rfl
@[simp] theorem Seq.enterFault_cause : (q.enterFault o x).cause = some x.code := rfl
@[simp] theorem Seq.enterFault_finfo :
    (q.enterFault o x).finfo = some { req := o.req, a := o.a, detail := x.detail } := rfl

@[simp] theorem Seq.latch_ops : q.latch.ops = q.ops := rfl
@[simp] theorem Seq.latch_lat : q.latch.lat = q.ops := rfl
@[simp] theorem Seq.latch_issued : q.latch.issued = false := rfl
@[simp] theorem Seq.latch_rdata : q.latch.rdata = q.rdata := rfl
@[simp] theorem Seq.latch_rrec : q.latch.rrec = q.rrec := rfl
@[simp] theorem Seq.latch_phase : q.latch.phase = q.phase := rfl
@[simp] theorem Seq.latch_fault : q.latch.fault = q.fault := rfl
@[simp] theorem Seq.latch_cause : q.latch.cause = q.cause := rfl
@[simp] theorem Seq.latch_finfo : q.latch.finfo = q.finfo := rfl

end

/-- A modified list at its own index, as a replacement by the modified element. -/
theorem modify_eq_set_of_getElem? {α : Type} (l : List α) (k : Nat) (f : α → α) (x : α) (h : l[k]? = some x) :
    l.modify k f = l.set k (f x) := by
  obtain ⟨hlt, hx⟩ := List.getElem?_eq_some_iff.mp h
  apply List.ext_getElem?
  intro i
  by_cases hi : k = i
  · subst hi
    simp [hlt, hx]
  · simp [hi]

end Sys2Proof.Machine
end

