-- ==== Sys2Proof/Laws/AddressMap.lean ====
section
/-! SUPPORT. The address map: within well-formed parameters each register of each port has an address of its own,
and the bus checks find it (20_memory.md R71, R74). -/

namespace Sys2Proof.Machine

theorem offsetOf_pinCnf_toNat (o : Offsets) (n : Fin 32) : (offsetOf o (.pinCnf n)).toNat = 0x700 + 4 * n.val := by
  have := n.isLt
  simp [offsetOf, BitVec.toNat_add, BitVec.toNat_mul]
  omega

theorem offsetOk_of_mem {o : Offsets} (h : o.WF) {x : Word} (hx : x ∈ o.toList) :
    x.toNat % 4 = 0 ∧ (x.toNat < 0x700 ∨ 0x77C < x.toNat) ∧ x.toNat < 0x1000 := by
  have := List.all_eq_true.mp h.1 x hx
  simpa [offsetOk, and_assoc] using this

theorem offsetOf_aligned {o : Offsets} (h : o.WF) (r : Reg) : (offsetOf o r).toNat % 4 = 0 := by
  cases r with
  | pinCnf n => rw [offsetOf_pinCnf_toNat]; omega
  | _ => exact (offsetOk_of_mem h (by simp [Offsets.toList, offsetOf])).1

theorem offsetOf_lt {o : Offsets} (h : o.WF) (r : Reg) : (offsetOf o r).toNat < 0x1000 := by
  cases r with
  | pinCnf n => rw [offsetOf_pinCnf_toNat]; omega
  | _ => exact (offsetOk_of_mem h (by simp [Offsets.toList, offsetOf])).2.2

/-- No offset lies among the configuration words (00_scope.md R9c). -/
theorem offsetOf_ne_pinCnf {o : Offsets} (h : o.WF) {x : Word} (hx : x ∈ o.toList) (n : Fin 32) :
    x ≠ offsetOf o (.pinCnf n) := by
  intro e
  have h1 := (offsetOk_of_mem h hx).2.1
  rw [e, offsetOf_pinCnf_toNat] at h1
  omega

theorem offsetOf_injective {o : Offsets} (h : o.WF) {r r' : Reg} (e : offsetOf o r = offsetOf o r') : r = r' := by
  have hn := h.2
  cases r with
  | pinCnf n =>
    cases r' with
    | pinCnf n' =>
      have h1 := congrArg BitVec.toNat e
      rw [offsetOf_pinCnf_toNat, offsetOf_pinCnf_toNat] at h1
      have : n = n' := Fin.ext (by omega)
      rw [this]
    | _ => exact absurd e.symm (offsetOf_ne_pinCnf h (by simp [Offsets.toList, offsetOf]) n)
  | _ =>
    cases r' with
    | pinCnf n' => exact absurd e (offsetOf_ne_pinCnf h (by simp [Offsets.toList, offsetOf]) n')
    | _ => first | rfl | (simp [Offsets.toList, offsetOf] at hn e; simp_all)

theorem mem_allRegs (r : Reg) : r ∈ allRegs := by
  cases r <;> simp [allRegs]

theorem regOfOffset_some {o : Offsets} {x : Word} {r : Reg} (h : regOfOffset o x = some r) : x = offsetOf o r := by
  have := List.find?_some h
  simpa using (beq_iff_eq.mp this).symm

theorem regOfOffset_offsetOf {o : Offsets} (h : o.WF) (r : Reg) : regOfOffset o (offsetOf o r) = some r := by
  cases hf : regOfOffset o (offsetOf o r) with
  | none =>
    have := List.find?_eq_none.mp hf r (mem_allRegs r)
    simp at this
  | some r' => rw [offsetOf_injective h (regOfOffset_some hf)]

theorem port?_some {s : State} {b : Word} {p : Port} (h : s.port? b = some p) : p ∈ s.rf ∧ p.base = b :=
  ⟨List.mem_of_find?_eq_some h, by simpa using List.find?_some h⟩

/-- Two ports of a well-formed register file with one base are one port. -/
theorem eq_of_base_eq {m : Memory} (h : m.wf) {p p' : Port} (hp : p ∈ m) (hp' : p' ∈ m) (e : p.base = p'.base) :
    p = p' := by
  have hpw := List.pairwise_map.mp h.2
  by_contra hne
  rcases List.pairwise_iff_getElem.mp hpw with hij
  obtain ⟨i, hi, rfl⟩ := List.getElem_of_mem hp
  obtain ⟨j, hj, rfl⟩ := List.getElem_of_mem hp'
  have hne' : i ≠ j := fun hh => hne (by subst hh; rfl)
  rcases Nat.lt_or_gt_of_ne hne' with hlt | hlt
  · have := hij i j hi hj hlt; rw [e] at this; omega
  · have := hij j i hj hi hlt; rw [e] at this; omega

theorem port?_eq_some_of_mem {s : State} (h : s.rf.wf) {p : Port} (hp : p ∈ s.rf) : s.port? p.base = some p := by
  cases hf : s.port? p.base with
  | none =>
    have := List.find?_eq_none.mp hf p hp
    simp at this
  | some p' =>
    obtain ⟨hm, hb⟩ := port?_some hf
    rw [eq_of_base_eq h hm hp hb]

theorem portBases_of_port? {s : State} {b : Word} {p : Port} (h : s.port? b = some p) : b ∈ s.portBases := by
  obtain ⟨hm, hb⟩ := port?_some h
  exact List.mem_map.mpr ⟨p, hm, hb⟩

theorem port?_of_mem_portBases {s : State} {b : Word} (h : b ∈ s.portBases) : ∃ p, s.port? b = some p := by
  obtain ⟨p, hp, hb⟩ := List.mem_map.mp h
  cases hf : s.port? b with
  | none =>
    have := List.find?_eq_none.mp hf p hp
    simp [hb] at this
  | some p' => exact ⟨p', rfl⟩

theorem base_bounds {m : Memory} (h : m.wf) {p : Port} (hp : p ∈ m) :
    p.base.toNat % 4 = 0 ∧ p.base.toNat + 0x1000 ≤ 0x100000000 := by
  have := List.all_eq_true.mp h.1 p.base (List.mem_map.mpr ⟨p, hp, rfl⟩)
  simpa [baseOk] using this

/-- A register's address lies in its own port's window and in no other's. -/
theorem regOfOffset_other_port {o : Offsets} (ho : o.WF) {m : Memory} (h : m.wf) {p p' : Port} (hp : p ∈ m)
    (hp' : p' ∈ m) (hne : p'.base ≠ p.base) (r : Reg) :
    regOfOffset o (p.base + offsetOf o r - p'.base) = none := by
  cases hf : regOfOffset o (p.base + offsetOf o r - p'.base) with
  | none => rfl
  | some r' =>
    exfalso
    have e := congrArg BitVec.toNat (regOfOffset_some hf)
    have h1 := offsetOf_lt ho r
    have h2 := offsetOf_lt ho r'
    have h3 := base_bounds h hp
    have h4 := base_bounds h hp'
    have hpw := List.pairwise_map.mp h.2
    obtain ⟨i, hi, rfl⟩ := List.getElem_of_mem hp
    obtain ⟨j, hj, rfl⟩ := List.getElem_of_mem hp'
    have hij : i ≠ j := fun hh => hne (by subst hh; rfl)
    rw [BitVec.toNat_sub, BitVec.toNat_add] at e
    rcases Nat.lt_or_gt_of_ne hij with hlt | hlt
    · have := List.pairwise_iff_getElem.mp hpw i j hi hj hlt
      omega
    · have := List.pairwise_iff_getElem.mp hpw j i hj hi hlt
      omega

theorem findSome?_unique {α β : Type} {f : α → Option β} {x : α} {y : β} :
    ∀ {l : List α}, x ∈ l → f x = some y → (∀ z ∈ l, f z = none ∨ f z = some y) → l.findSome? f = some y
  | [], hx, _, _ => by simp at hx
  | a :: l, hx, hy, hz => by
    rw [List.findSome?_cons]
    rcases hz a (by simp) with ha | ha
    · rw [ha]
      rcases List.mem_cons.mp hx with rfl | hx
      · rw [hy] at ha; exact absurd ha (by simp)
      · exact findSome?_unique hx hy fun z hz' => hz z (List.mem_cons_of_mem _ hz')
    · rw [ha]

/-- The address of a register of a port is mapped to it (20_memory.md R71, 10_state.md R42). -/
theorem regAt_port {s : State} (ho : s.cfg.offsets.WF) (h : s.rf.wf) {b : Word} {p : Port}
    (hp : s.port? b = some p) (r : Reg) : s.regAt (b + offsetOf s.cfg.offsets r) = some (p, r) := by
  obtain ⟨hm, rfl⟩ := port?_some hp
  have hself := regOfOffset_offsetOf ho r
  refine findSome?_unique (x := p) hm (by simp [hself]) fun p' hp' => ?_
  by_cases hb : p'.base = p.base
  · rw [eq_of_base_eq h hp' hm hb]; simp [hself]
  · simp [regOfOffset_other_port ho h hm hp' hb]

/-- An address that is mapped is the address of the register it is mapped to. -/
theorem regAt_some {s : State} {addr : Word} {p : Port} {r : Reg} (h : s.regAt addr = some (p, r)) :
    p ∈ s.rf ∧ addr = p.base + offsetOf s.cfg.offsets r := by
  obtain ⟨l₁, a, l₂, hl, ha, -⟩ := List.findSome?_eq_some_iff.mp h
  obtain ⟨r', hr', e⟩ := Option.map_eq_some_iff.mp ha
  obtain ⟨rfl, rfl⟩ := Prod.mk.inj e
  refine ⟨by simp [hl], ?_⟩
  rw [← regOfOffset_some hr', BitVec.add_comm, BitVec.sub_add_cancel]

theorem aligned_iff (a : Word) : aligned a = true ↔ a.toNat % 4 = 0 := by
  simp only [aligned, beq_iff_eq]
  constructor
  · intro h
    have := congrArg BitVec.toNat h
    simpa [BitVec.extractLsb'_toNat] using this
  · intro h
    apply BitVec.eq_of_toNat_eq
    simpa [BitVec.extractLsb'_toNat] using h

/-- A port base is aligned. -/
theorem aligned_base {s : State} (h : s.rf.wf) {b : Word} {p : Port} (hp : s.port? b = some p) :
    aligned b = true := by
  obtain ⟨hm, rfl⟩ := port?_some hp
  exact (aligned_iff _).mpr (base_bounds h hm).1

/-- A register's address is aligned. -/
theorem aligned_regAddr {s : State} (ho : s.cfg.offsets.WF) (h : s.rf.wf) {b : Word} {p : Port}
    (hp : s.port? b = some p) (r : Reg) : aligned (b + offsetOf s.cfg.offsets r) = true := by
  obtain ⟨hm, rfl⟩ := port?_some hp
  have h1 := base_bounds h hm
  have h2 := offsetOf_lt ho r
  have h3 := offsetOf_aligned ho r
  rw [aligned_iff, BitVec.toNat_add]
  omega

/-- CHECK_READ at a register's address. -/
theorem checkRead_port {s : State} (ho : s.cfg.offsets.WF) (h : s.rf.wf) {b : Word} {p : Port}
    (hp : s.port? b = some p) {r : Reg} {v : Word} (hv : p.read s.cfg.dirAlias r = some v) :
    s.checkRead (b + offsetOf s.cfg.offsets r) = .ok v := by
  simp [State.checkRead, aligned_regAddr ho h hp, regAt_port ho h hp, hv]

/-- CHECK_WRITE_ADDR at a register's address. -/
theorem checkWriteAddr_port {s : State} (ho : s.cfg.offsets.WF) (h : s.rf.wf) {b : Word} {p : Port}
    (hp : s.port? b = some p) {r : Reg} (hr : r ≠ .inp) :
    s.checkWriteAddr (b + offsetOf s.cfg.offsets r) = .ok (b, r) := by
  simp [State.checkWriteAddr, aligned_regAddr ho h hp, regAt_port ho h hp, hr, (port?_some hp).2]

/-- VALIDATE's base check passes at a port base (60_exceptions.md R243). -/
theorem checkBase_port {s : State} (h : s.rf.wf) {b : Word} {p : Port} (hp : s.port? b = some p) :
    s.checkBase b = .ok () := by
  simp [State.checkBase, aligned_base h hp, portBases_of_port? hp]

/-- The configuration word of a pin is a register of its port (20_memory.md R74). -/
theorem cfgAddr_eq (o : Offsets) (b : Word) {n : Nat} (hn : n < 32) :
    cfgAddr b n = b + offsetOf o (.pinCnf ⟨n, hn⟩) := by
  simp [cfgAddr, offsetOf, BitVec.add_assoc]

end Sys2Proof.Machine
end

