-- ==== Sys2Proof/Laws/Codec.lean ====
section
/-! SUPPORT. The small lemmas of the codec, the value check of a write and the direction state: what each computes, bit
by bit, so that no later proof unfolds it. -/

namespace Sys2Proof.Machine

theorem fieldOf_getLsbD (f : Field) (w : Word) (k : Nat) :
    (fieldOf f w).getLsbD k = (w.getLsbD (f.shift + k) && f.widthMask.getLsbD k) := by
  simp [fieldOf]

theorem fieldOf_dir (w : Word) : fieldOf .dir w = (w.extractLsb' 0 1).setWidth 32 := by
  apply BitVec.eq_of_getLsbD_eq
  intro k hk
  rw [fieldOf_getLsbD]
  simp only [Field.shift, Field.widthMask]
  interval_cases k <;> simp

theorem fieldOf_input (w : Word) : fieldOf .input w = (w.extractLsb' 1 1).setWidth 32 := by
  apply BitVec.eq_of_getLsbD_eq
  intro k hk
  rw [fieldOf_getLsbD]
  simp only [Field.shift, Field.widthMask]
  interval_cases k <;> simp

theorem fieldOf_pull (w : Word) : fieldOf .pull w = (w.extractLsb' 2 2).setWidth 32 := by
  apply BitVec.eq_of_getLsbD_eq
  intro k hk
  rw [fieldOf_getLsbD]
  simp only [Field.shift, Field.widthMask]
  interval_cases k <;> simp

theorem fieldOf_drive (w : Word) : fieldOf .drive w = (w.extractLsb' 8 3).setWidth 32 := by
  apply BitVec.eq_of_getLsbD_eq
  intro k hk
  rw [fieldOf_getLsbD]
  simp only [Field.shift, Field.widthMask]
  interval_cases k <;> simp

theorem fieldOf_sense (w : Word) : fieldOf .sense w = (w.extractLsb' 16 2).setWidth 32 := by
  apply BitVec.eq_of_getLsbD_eq
  intro k hk
  rw [fieldOf_getLsbD]
  simp only [Field.shift, Field.widthMask]
  interval_cases k <;> simp

/-- Which record buses carry no record (30_encoding.md R116), field by field. -/
theorem pull_ofCode?_eq_none (p : BitVec 2) : Pull.ofCode? (p.setWidth 32) = none ↔ p = 2 := by
  revert p; decide

theorem sense_ofCode?_eq_none (s : BitVec 2) : Sense.ofCode? (s.setWidth 32) = none ↔ s = 1 := by
  revert s; decide

/-- Legality of a configuration word by its bits (10_state.md R49). -/
theorem legalCnf_iff (w : Word) :
    legalCnf w = true ↔ w &&& 0xFFFCF8F0 = 0 ∧ w.extractLsb' 2 2 ≠ 2 ∧ w.extractLsb' 16 2 ≠ 1 := by
  have hp : ∀ x : BitVec 2, (x.setWidth 32 : Word) = 2 ↔ x = 2 := by decide
  have hs : ∀ x : BitVec 2, (x.setWidth 32 : Word) = 1 ↔ x = 1 := by decide
  simp only [legalCnf, Bool.and_eq_true, beq_iff_eq, Field.validCode, fieldOf_pull, fieldOf_sense, rsvMask,
    bne_iff_ne, ne_eq, and_assoc, hp, hs]

/-- CHECK_WRITE_VALUE passes exactly for the values the register takes (40_mmio.md R154). -/
theorem checkWriteValue_eq_ok_iff {r : Reg} {addr v : Word} :
    checkWriteValue r addr v = .ok () ↔ r.takes v = true := by
  cases r with
  | pinCnf n =>
    simp only [checkWriteValue, Reg.takes, legalCnf, Field.validCode]
    split
    · simp_all
    · split <;> simp_all <;> tauto
  | detectmode => simp only [checkWriteValue, Reg.takes]; split <;> simp_all
  | _ => simp [checkWriteValue, Reg.takes]

@[simp] theorem withBit0_getLsbD_zero (w : Word) (b : Bool) : (withBit0 w b).getLsbD 0 = b := by
  cases b <;> simp [withBit0, flagWord]

theorem gatherDir_getLsbD (cnf : Vector Word 32) (n : Fin 32) : (gatherDir cnf).getLsbD n = cnf[n].getLsbD 0 := by
  simp [gatherDir]

theorem scatterDir_getElem (cnf : Vector Word 32) (v : Word) (n : Fin 32) :
    (scatterDir cnf v)[n] = withBit0 cnf[n] (v.getLsbD n) := by
  simp [scatterDir]

/-- The direction bits written to configuration words read back as the word written (10_state.md R41). -/
theorem gatherDir_scatterDir (cnf : Vector Word 32) (v : Word) : gatherDir (scatterDir cnf v) = v := by
  apply BitVec.eq_of_getLsbD_eq
  intro k hk
  have := gatherDir_getLsbD (scatterDir cnf v) ⟨k, hk⟩
  rwa [scatterDir_getElem, withBit0_getLsbD_zero] at this

/-- A pin mask has the pin's bit alone (30_encoding.md R108). -/
theorem pinMask_getLsbD {n m : Nat} (hm : m < 32) : (pinMask n).getLsbD m = decide (m = n) := by
  simp only [pinMask, BitVec.getLsbD_shiftLeft, hm]
  by_cases h : m < n <;> simp [h] <;> omega

end Sys2Proof.Machine
end

