-- ==== Sys2Proof/Laws/Effects.lean ====
section
/-! SUPPORT. What the shared shapes of an operation can do, said once: the results of a load, a store and a
read-modify-write on a register of a port, and the six effects an accepted request can have. -/

namespace Sys2Proof.Machine

/-- A chain of checks succeeds exactly when its first check does and the rest does. -/
theorem bind_eq_ok {α β : Type} {x : Except Raise α} {f : α → Except Raise β} {t : β} :
    (x >>= f) = .ok t ↔ ∃ a, x = .ok a ∧ f a = .ok t := by
  cases x <;> simp [bind, Except.bind]

@[simp] theorem ok_bind {α β : Type} (a : α) (f : α → Except Raise β) : (Except.ok a >>= f) = f a := rfl

@[simp] theorem error_bind {α β : Type} (r : Raise) (f : α → Except Raise β) :
    (Except.error r >>= f) = .error r := rfl

@[simp] theorem checkPin_lt {n : Nat} (h : n < 32) : checkPin n = .ok () := by simp [checkPin, h]

@[simp] theorem checkVal_mem {op : Op} {v : Val} (h : v ∈ valDomain op) : checkVal op v = .ok () := by
  simp [checkVal, h]

@[simp] theorem checkRec_some {b : RecBus} {r : Record} (h : b.record? = some r) : checkRec b = .ok r := by
  simp [checkRec, h]

section
variable {s : State} {q : Seq}

theorem accept_of_ok {body : Operands → Except Raise State} {t : State} (hq : s.seqs[s.actor]? = some q)
    (h : body q.lat = .ok t) : accept s body = .next t := by
  simp [accept, hq, h]

theorem enterFault_eq (hq : s.seqs[s.actor]? = some q) (r : Raise) :
    s.enterFault q.lat r = s.afterFault q r.code r.detail := by
  simp [State.enterFault, State.modifySeq, modify_eq_set_of_getElem? _ _ _ _ hq, State.afterFault, Seq.faulted,
    Seq.enterFault]

theorem accept_of_error {body : Operands → Except Raise State} {r : Raise} (hq : s.seqs[s.actor]? = some q)
    (h : body q.lat = .error r) : accept s body = .next (s.afterFault q r.code r.detail) := by
  simp [accept, hq, h, enterFault_eq hq]

theorem loaded_eq_afterLoad (hq : s.seqs[s.actor]? = some q) (op : Op) (addr v w : Word) (res : Result) :
    ((s.memRead (.seq s.actor) addr v).setRdata w).emitDone op res
      = s.afterLoad op addr v { q with rdata := some w } res := by
  simp [State.memRead, State.setRdata, State.emitDone, State.log, State.modifySeq,
    modify_eq_set_of_getElem? _ _ _ _ hq, State.afterLoad, Seq.setRdata]

/-- A load from a register of a port. -/
theorem loadOp_port {p : Port} {b : Word} (ho : s.cfg.offsets.WF) (hm : s.rf.wf)
    (hq : s.seqs[s.actor]? = some q) (hp : s.port? b = some p) (op : Op) {r : Reg} {v : Word}
    (hv : p.read s.cfg.dirAlias r = some v) (f : Word → Word) :
    s.loadOp op (b + offsetOf s.cfg.offsets r) f
      = .ok (s.afterLoad op (b + offsetOf s.cfg.offsets r) v { q with rdata := some (f v) } (.word (f v))) := by
  rw [State.loadOp, checkRead_port ho hm hp hv, ok_bind, loaded_eq_afterLoad hq]
  rfl

/-- A store to a register of a port whose value checks pass. -/
theorem storeOp_port {p : Port} {b : Word} (ho : s.cfg.offsets.WF) (hm : s.rf.wf) (hp : s.port? b = some p)
    (op : Op) {r : Reg} (hr : r ≠ .inp) {v : Word}
    (hv : checkWriteValue r (b + offsetOf s.cfg.offsets r) v = .ok ()) :
    s.storeOp op (b + offsetOf s.cfg.offsets r) v
      = .ok (s.afterStore op (b + offsetOf s.cfg.offsets r) v
          (s.rf.withPort b (Port.write s.cfg.dirAlias r v))) := by
  rw [State.storeOp, checkWriteAddr_port ho hm hp hr, ok_bind]
  simp only [hv, ok_bind]
  simp [State.memWrite, State.modifyPort, State.log, State.emitDone, State.afterStore, Memory.withPort, pure,
    Except.pure]

/-- The accept step of a read-modify-write on a readable and writable register of a port. -/
theorem rmwAccept_port {p : Port} {b : Word} (ho : s.cfg.offsets.WF) (hm : s.rf.wf)
    (hq : s.seqs[s.actor]? = some q) (hp : s.port? b = some p) (op : Op) {r : Reg} (hr : r ≠ .inp) {old : Word}
    (hv : p.read s.cfg.dirAlias r = some old) (clr set : Word) :
    s.rmwAccept op (b + offsetOf s.cfg.offsets r) clr set
      = .ok (s.afterRmwRead q { addr := b + offsetOf s.cfg.offsets r, clr := clr, set := set, old := old,
                                op := op }) := by
  rw [State.rmwAccept, checkRead_port ho hm hp hv, ok_bind, checkWriteAddr_port ho hm hp hr, ok_bind]
  simp [State.memRead, State.setPhase, State.log, State.modifySeq, modify_eq_set_of_getElem? _ _ _ _ hq,
    State.afterRmwRead, Seq.setPhase, pure, Except.pure]

end

/-- The info R240 gives a raised fault's code, for a request whose operands are `o`. -/
abbrev Raise.Fits (o : Operands) (r : Raise) : Prop :=
  r.code.DetailFits o r.detail

/-- The effects an accepted request of the acting sequencer `q` can have (10_state.md R33, 60_exceptions.md R246). -/
inductive Effect (s : State) (q : Seq) : State → Prop where
  | fault (r : Raise) (hr : r.Fits q.lat) : Effect s q (s.enterFault q.lat r)
  | load (op : Op) (addr v w : Word) (h : s.checkRead addr = .ok v) :
      Effect s q (((s.memRead (.seq s.actor) addr v).setRdata w).emitDone op (.word w))
  | loadRecord (addr v : Word) (r : Record) (h : s.checkRead addr = .ok v) :
      Effect s q ((((s.memRead (.seq s.actor) addr v).setRdata v).setRrec r).emitDone .readConfig (.record r))
  | loadFault (addr v : Word) (h : s.checkRead addr = .ok v) :
      Effect s q ((s.memRead (.seq s.actor) addr v).enterFault q.lat
        { code := .reservedFieldRead, detail := .address addr })
  | store (op : Op) (addr v b : Word) (r : Reg) (h : s.checkWriteAddr addr = .ok (b, r))
      (hv : checkWriteValue r addr v = .ok ()) :
      Effect s q ((s.memWrite (.seq s.actor) b r addr v).emitDone op .noValue)
  | rmwRead (op : Op) (addr clr set old b : Word) (r : Reg) (h : s.checkRead addr = .ok old)
      (hw : s.checkWriteAddr addr = .ok (b, r)) :
      Effect s q ((s.memRead (.seq s.actor) addr old).setPhase
        (.rmwPending { addr := addr, clr := clr, set := set, old := old, op := op }))

section
variable {s t : State} {q : Seq}

/-- What the body of an accept step answers: an effect, or a raised fault with its info. -/
def BodyOutcome (s : State) (q : Seq) : Except Raise State → Prop
  | .ok t => Effect s q t
  | .error r => r.Fits q.lat

theorem checkRead_fits {addr : Word} {r : Raise} {o : Operands} (h : s.checkRead addr = .error r) : r.Fits o := by
  unfold State.checkRead at h
  split at h
  · cases h; exact ⟨_, rfl⟩
  · split at h
    · cases h; exact ⟨_, rfl⟩
    · split at h <;> cases h
      exact ⟨_, rfl⟩

theorem checkWriteAddr_fits {addr : Word} {r : Raise} {o : Operands} (h : s.checkWriteAddr addr = .error r) :
    r.Fits o := by
  unfold State.checkWriteAddr at h
  split at h
  · cases h; exact ⟨_, rfl⟩
  · split at h
    · cases h; exact ⟨_, rfl⟩
    · split at h <;> cases h
      exact ⟨_, rfl⟩

theorem checkWriteValue_fits {g : Reg} {addr v : Word} {r : Raise} {o : Operands}
    (h : checkWriteValue g addr v = .error r) : r.Fits o := by
  unfold checkWriteValue at h
  split at h
  · split at h <;> cases h
    exact ⟨_, rfl⟩
  · split at h
    · cases h; exact ⟨_, rfl⟩
    · split at h <;> cases h
      exact ⟨_, rfl⟩
  all_goals cases h

theorem checkPin_fits {n : Nat} {r : Raise} {o : Operands} (h : checkPin n = .error r) : r.Fits o := by
  unfold checkPin at h
  split at h <;> cases h
  exact ⟨_, rfl⟩

theorem checkVal_fits {op : Op} {v : Val} {r : Raise} {o : Operands} (h : checkVal op v = .error r) : r.Fits o := by
  unfold checkVal at h
  split at h <;> cases h
  rfl

theorem checkRec_fits {r : Raise} {o : Operands} (h : checkRec o.record = .error r) : r.Fits o := by
  unfold checkRec at h
  split at h <;> cases h
  rfl

theorem checkBase_fits {a : Word} {r : Raise} {o : Operands} (h : s.checkBase a = .error r) : r.Fits o := by
  unfold State.checkBase at h
  split at h
  · cases h; exact ⟨_, rfl⟩
  · split at h <;> cases h
    exact ⟨_, rfl⟩

/-- A check whose faults carry their info, before a body with a known outcome. -/
theorem outcome_bind {α : Type} {x : Except Raise α} {f : α → Except Raise State}
    (hx : ∀ r, x = .error r → r.Fits q.lat) (hf : ∀ a, x = .ok a → BodyOutcome s q (f a)) :
    BodyOutcome s q (x >>= f) := by
  cases x with
  | error r => exact hx r rfl
  | ok a => exact hf a rfl

theorem loadOp_outcome {op : Op} {addr : Word} {f : Word → Word} : BodyOutcome s q (s.loadOp op addr f) :=
  outcome_bind (fun _ => checkRead_fits) fun v hv => .load op addr v (f v) hv

theorem loadFieldOp_outcome {op : Op} {addr bad : Word} {f : Field} :
    BodyOutcome s q (s.loadFieldOp op q.lat addr f bad) :=
  outcome_bind (fun _ => checkRead_fits) fun v hv => by
    dsimp only
    split
    · exact Effect.loadFault addr v hv
    · exact Effect.load op addr v _ hv

theorem loadRecordOp_outcome {addr : Word} : BodyOutcome s q (s.loadRecordOp q.lat addr) :=
  outcome_bind (fun _ => checkRead_fits) fun v hv => by
    dsimp only
    split
    · exact Effect.loadFault addr v hv
    · exact Effect.loadRecord addr v _ hv

theorem storeOp_outcome {op : Op} {addr v : Word} : BodyOutcome s q (s.storeOp op addr v) :=
  outcome_bind (fun _ => checkWriteAddr_fits) fun ⟨b, r⟩ hw =>
    outcome_bind (fun _ => checkWriteValue_fits) fun _ hv => .store op addr v b r hw hv

theorem rmwAccept_outcome {op : Op} {addr clr set : Word} : BodyOutcome s q (s.rmwAccept op addr clr set) :=
  outcome_bind (fun _ => checkRead_fits) fun old hr =>
    outcome_bind (fun _ => checkWriteAddr_fits) fun ⟨b, r⟩ hw => .rmwRead op addr clr set old b r hr hw

/-- What the accept step can do, from what its body can do. -/
theorem accept_effect {body : Operands → Except Raise State} (hq : s.seqs[s.actor]? = some q)
    (hb : BodyOutcome s q (body q.lat)) (h : accept s body = .next t) : Effect s q t := by
  simp only [accept, hq] at h
  cases hx : body q.lat with
  | ok u => rw [hx] at h hb; cases h; exact hb
  | error r => rw [hx] at h hb; cases h; exact .fault r hb

theorem setField_effect {op : Op} {f : Field} {pin : Nat} {val : Val} (hq : s.seqs[s.actor]? = some q)
    (h : setField op f pin val s = .next t) : Effect s q t :=
  accept_effect hq
    (outcome_bind (fun _ => checkPin_fits) fun _ _ => outcome_bind (fun _ => checkVal_fits) fun _ _ =>
      outcome_bind (fun _ => checkBase_fits) fun _ _ => rmwAccept_outcome) h

/-- Every instruction's next state is one of the six effects on the acting sequencer. -/
theorem exec_effect {i : Instr} (hq : s.seqs[s.actor]? = some q) (h : exec i s = .next t) : Effect s q t := by
  cases i with
  | setCfgDir | setInput | setPull | setDrive | setSense => exact setField_effect hq h
  | _ =>
    simp only [exec, execRead32, execWrite32, execRmw32, execReadLevel, execReadOutput, execSetOutput,
      execClearOutput, execWriteOutput, execGetDirection, execSetDirection, execReadLatch, execGetLatch,
      execClearLatch, execGetDetectMode, execSetDetectMode, execReadConfigRaw, execReadConfig, execConfigure,
      execUpdate, execGetCfgDir, execGetInput, execGetPull, execGetDrive, execGetSense] at h
    refine accept_effect hq ?_ h
    repeat' first
      | exact loadOp_outcome
      | exact storeOp_outcome
      | exact rmwAccept_outcome
      | exact loadFieldOp_outcome
      | exact loadRecordOp_outcome
      | refine outcome_bind (fun _ => checkPin_fits) fun _ _ => ?_
      | refine outcome_bind (fun _ => checkVal_fits) fun _ _ => ?_
      | refine outcome_bind (fun _ => checkBase_fits) fun _ _ => ?_
      | refine outcome_bind (fun _ => checkRec_fits) fun _ _ => ?_

/-- Without an acting sequencer no instruction has a next state. -/
theorem exec_no_seq {i : Instr} (hq : s.seqs[s.actor]? = none) : exec i s = .fault .noSequencer := by
  cases i <;> simp [exec, execRead32, execWrite32, execRmw32, execReadLevel, execReadOutput, execSetOutput,
    execClearOutput, execWriteOutput, execGetDirection, execSetDirection, execReadLatch, execGetLatch,
    execClearLatch, execGetDetectMode, execSetDetectMode, execReadConfigRaw, execReadConfig, execConfigure,
    execUpdate, execGetCfgDir, execGetInput, execGetPull, execGetDrive, execGetSense, execSetCfgDir, execSetInput,
    execSetPull, execSetDrive, execSetSense, setField, accept, hq]

end

end Sys2Proof.Machine
end

