-- ==== Sys2Proof/Laws/Memory.lean ====
section
/-! SUPPORT. The register file's canonical form and what its operations keep: every change of a port leaves its base,
so every memory operation keeps the form, and the memory after reset has it (log 15). -/

namespace Sys2Proof.Machine

@[simp] theorem Port.setDirv_base (a : Bool) (v : Word) (p : Port) : (p.setDirv a v).base = p.base := by
  unfold Port.setDirv; split <;> rfl

@[simp] theorem Port.write_base (a : Bool) (r : Reg) (v : Word) (p : Port) : (p.write a r v).base = p.base := by
  cases r <;> simp [Port.write]

/-- Changing a port without its base keeps the bases of the register file. -/
theorem map_base_modify (m : Memory) (b : Word) {f : Port → Port} (hf : ∀ p, (f p).base = p.base) :
    (m.map fun p => if p.base = b then f p else p).map (·.base) = m.map (·.base) := by
  rw [List.map_map]
  apply List.map_congr_left
  intro p _
  simp only [Function.comp]
  split <;> simp [hf]

theorem portBases_modifyPort (s : State) (b : Word) {f : Port → Port} (hf : ∀ p, (f p).base = p.base) :
    (s.modifyPort b f).portBases = s.portBases :=
  map_base_modify s.rf b hf

/-- The memory operation of every agent keeps the canonical form. -/
theorem modifyPort_wf {s : State} (h : s.rf.wf) (b : Word) {f : Port → Port} (hf : ∀ p, (f p).base = p.base) :
    (s.modifyPort b f).rf.wf := by
  unfold Memory.wf
  rw [State.modifyPort_rf, map_base_modify s.rf b hf]
  exact h

theorem memWrite_wf {s : State} (h : s.rf.wf) (ag : Agent) (b : Word) (r : Reg) (addr v : Word) :
    (s.memWrite ag b r addr v).rf.wf :=
  modifyPort_wf h b fun p => Port.write_base _ r v p

theorem memRead_wf {s : State} (h : s.rf.wf) (ag : Agent) (addr v : Word) : (s.memRead ag addr v).rf.wf :=
  h

theorem envIn_wf {s : State} (h : s.rf.wf) (b v : Word) : (s.envIn b v).rf.wf := by
  unfold State.envIn
  split
  · exact modifyPort_wf h b fun _ => rfl
  · exact h

theorem envLatch_wf {s : State} (h : s.rf.wf) (b m : Word) : (s.envLatch b m).rf.wf := by
  unfold State.envLatch
  split
  · exact modifyPort_wf h b fun _ => rfl
  · exact h

/-- The bases of the register file after a reset are the parameter `PORT_BASES`. -/
theorem resetFrom_bases (c : Params) (d : ResetDraw) (h : List Event) (l : List Action) :
    (State.resetFrom c d h l).rf.map (·.base) = c.ports.map (·.base) := by
  apply List.ext_getElem <;> simp [State.resetFrom, Port.atReset]

theorem resetFrom_wf {c : Params} (hc : c.WF) (d : ResetDraw) (h : List Event) (l : List Action) :
    (State.resetFrom c d h l).rf.wf := by
  unfold Memory.wf
  rw [resetFrom_bases]
  exact hc.2.1

/-- The instantiation EX meets the constraints on the parameters (95_test_vectors.md section 0). -/
theorem ex_wf : Config.ex.WF := by decide +kernel

theorem reset_wf : State.reset.rf.wf := resetFrom_wf ex_wf _ _ _

/-- The port found at a base after a change of one port: the changed port there, the old port elsewhere. -/
theorem port?_modifyPort (s : State) (b b' : Word) {f : Port → Port} (hf : ∀ p, (f p).base = p.base) :
    (s.modifyPort b f).port? b' = (s.port? b').map fun p => if b' = b then f p else p := by
  simp only [State.port?, State.modifyPort_rf, List.find?_map]
  have hb : ∀ p : Port, (if p.base = b then f p else p).base = p.base := fun p => by split <;> simp [hf]
  simp only [Function.comp_def, hb]
  cases hq : s.rf.find? fun p => p.base == b' with
  | none => rfl
  | some p =>
    have : p.base = b' := by simpa using List.find?_some hq
    simp [this]

end Sys2Proof.Machine
end

