-- ==== Sys2Proof/Laws/PerInstr.lean ====
section
/-! SUPPORT. The request word of each instruction matches its row of the opcode table, instruction by instruction
(30_encoding.md R113, R115). -/

namespace Sys2Proof

open Sys2Proof.Machine

/-- A pin field and a value field leave a row's fixed bits alone where the row has those fields. -/
theorem masked_request (op : Op) (p : BitVec 5) (v : Val) (hp : usesPin op = false → p = 0)
    (hv : usesVal op = false → v = 0) :
    (requestMatch op ||| (p.setWidth 32 <<< 8) ||| (v.setWidth 32 <<< 16)) &&& requestMask op = requestMatch op := by
  have hm : ∀ k, (requestMatch op).getLsbD k = (decide (k < 32) && (opcode op).getLsbD k) := fun k => by
    simp [requestMatch, BitVec.getLsbD_setWidth]
  apply BitVec.eq_of_getLsbD_eq
  intro k hk
  cases hup : usesPin op <;> cases huv : usesVal op <;> simp only [requestMask, hup, huv] <;>
    simp only [hup, huv, forall_const, reduceCtorEq, false_implies] at hp hv <;> (try subst hp) <;> (try subst hv) <;>
    simp only [BitVec.getLsbD_and, BitVec.getLsbD_or, hm, BitVec.getLsbD_shiftLeft, BitVec.getLsbD_setWidth] <;>
    interval_cases k <;> simp

end Sys2Proof

namespace Sys2Proof.Laws.MatchesRow

open Sys2Proof

/-- The request word of an instruction whose pin it can hold meets `w & mask = match` of the instruction's row
(30_encoding.md R112, R115). -/
def Statement (i : Instr) : Prop :=
  i.Encodable → encode i &&& requestMask i.op = requestMatch i.op

theorem of_row (i : Instr) (hp : usesPin i.op = false → i.pin? = none) (hv : usesVal i.op = false → i.val? = none) :
    Statement i := fun _ =>
  masked_request i.op _ _ (fun h => by rw [hp h]; rfl) (fun h => by rw [hv h]; rfl)

theorem read32 : Statement .read32 :=
  of_row _ (fun _ => rfl) (fun _ => rfl)

theorem write32 : Statement .write32 :=
  of_row _ (fun _ => rfl) (fun _ => rfl)

theorem rmw32 : Statement .rmw32 :=
  of_row _ (fun _ => rfl) (fun _ => rfl)

theorem readLevel (pin : Nat) : Statement (.readLevel pin) :=
  of_row _ (fun h => nomatch h) (fun _ => rfl)

theorem readOutput (pin : Nat) : Statement (.readOutput pin) :=
  of_row _ (fun h => nomatch h) (fun _ => rfl)

theorem setOutput (pin : Nat) : Statement (.setOutput pin) :=
  of_row _ (fun h => nomatch h) (fun _ => rfl)

theorem clearOutput (pin : Nat) : Statement (.clearOutput pin) :=
  of_row _ (fun h => nomatch h) (fun _ => rfl)

theorem writeOutput (pin : Nat) (val : Val) : Statement (.writeOutput pin val) :=
  of_row _ (fun h => nomatch h) (fun h => nomatch h)

theorem getDirection (pin : Nat) : Statement (.getDirection pin) :=
  of_row _ (fun h => nomatch h) (fun _ => rfl)

theorem setDirection (pin : Nat) (val : Val) : Statement (.setDirection pin val) :=
  of_row _ (fun h => nomatch h) (fun h => nomatch h)

theorem readLatch : Statement .readLatch :=
  of_row _ (fun _ => rfl) (fun _ => rfl)

theorem getLatch (pin : Nat) : Statement (.getLatch pin) :=
  of_row _ (fun h => nomatch h) (fun _ => rfl)

theorem clearLatch (pin : Nat) : Statement (.clearLatch pin) :=
  of_row _ (fun h => nomatch h) (fun _ => rfl)

theorem getDetectMode : Statement .getDetectMode :=
  of_row _ (fun _ => rfl) (fun _ => rfl)

theorem setDetectMode (val : Val) : Statement (.setDetectMode val) :=
  of_row _ (fun _ => rfl) (fun h => nomatch h)

theorem readConfigRaw (pin : Nat) : Statement (.readConfigRaw pin) :=
  of_row _ (fun h => nomatch h) (fun _ => rfl)

theorem readConfig (pin : Nat) : Statement (.readConfig pin) :=
  of_row _ (fun h => nomatch h) (fun _ => rfl)

theorem configure (pin : Nat) : Statement (.configure pin) :=
  of_row _ (fun h => nomatch h) (fun _ => rfl)

theorem update (pin : Nat) : Statement (.update pin) :=
  of_row _ (fun h => nomatch h) (fun _ => rfl)

theorem getCfgDir (pin : Nat) : Statement (.getCfgDir pin) :=
  of_row _ (fun h => nomatch h) (fun _ => rfl)

theorem getInput (pin : Nat) : Statement (.getInput pin) :=
  of_row _ (fun h => nomatch h) (fun _ => rfl)

theorem getPull (pin : Nat) : Statement (.getPull pin) :=
  of_row _ (fun h => nomatch h) (fun _ => rfl)

theorem getDrive (pin : Nat) : Statement (.getDrive pin) :=
  of_row _ (fun h => nomatch h) (fun _ => rfl)

theorem getSense (pin : Nat) : Statement (.getSense pin) :=
  of_row _ (fun h => nomatch h) (fun _ => rfl)

theorem setCfgDir (pin : Nat) (val : Val) : Statement (.setCfgDir pin val) :=
  of_row _ (fun h => nomatch h) (fun h => nomatch h)

theorem setInput (pin : Nat) (val : Val) : Statement (.setInput pin val) :=
  of_row _ (fun h => nomatch h) (fun h => nomatch h)

theorem setPull (pin : Nat) (val : Val) : Statement (.setPull pin val) :=
  of_row _ (fun h => nomatch h) (fun h => nomatch h)

theorem setDrive (pin : Nat) (val : Val) : Statement (.setDrive pin val) :=
  of_row _ (fun h => nomatch h) (fun h => nomatch h)

theorem setSense (pin : Nat) (val : Val) : Statement (.setSense pin val) :=
  of_row _ (fun h => nomatch h) (fun h => nomatch h)

end Sys2Proof.Laws.MatchesRow
end

