-- ==== Sys2Proof/Laws/Step.lean ====
section
/-! SUPPORT. What one step of the machine can do, said once: every invariant and frame of the machine is a case
analysis over `StepEffect` (20_memory.md R82). -/

namespace Sys2Proof.Machine

/-- Sequencer `k` accepting its issued request: its operand registers latched, the request taken (10_state.md R33). -/
abbrev State.accepting (s : State) (k : Nat) (q : Seq) (rest : List Action) : State :=
  { s with sched := rest, actor := k, seqs := s.seqs.set k q.latch }

/-- Everything a step can do. -/
inductive StepEffect (s : State) : State → Prop where
  | nobody (h : s.sched = []) : StepEffect s s
  | skip (a : Action) (rest : List Action) (h : s.sched = a :: rest) (hr : ∀ d, a ≠ .reset d)
      (hb : ∀ b v, a = .envIn b v ∨ a = .envLatch b v → b ∉ s.portBases) : StepEffect s { s with sched := rest }
  | undecodable (k : Nat) (q : Seq) (rest : List Action) (c : FaultCode) (hn : s.Next k q rest)
      (hf : q.fault = false) (hp : q.phase = .idle) (hd : decode q.ops.req = .error c) :
      StepEffect s ((s.accepting k q rest).afterFault q.latch c .nothing)
  | accept (k : Nat) (q : Seq) (rest : List Action) (i : Instr) (t : State) (hn : s.Next k q rest)
      (hf : q.fault = false) (hp : q.phase = .idle) (hd : decode q.ops.req = .ok i)
      (he : Effect (s.accepting k q rest) q.latch t) : StepEffect s t
  | write (k : Nat) (q : Seq) (rest : List Action) (h : Hold) (b : Word) (r : Reg) (hn : s.Next k q rest)
      (hf : q.fault = false) (hp : q.phase = .rmwPending h) (hw : s.checkWriteAddr h.addr = .ok (b, r))
      (hv : checkWriteValue r h.addr (combine h.old h.clr h.set) = .ok ()) :
      StepEffect s { s with sched := rest, actor := k,
                            rf := s.rf.withPort b (Port.write s.cfg.dirAlias r (combine h.old h.clr h.set)),
                            seqs := s.seqs.set k { q with phase := .idle },
                            hist := s.hist ++ [.bus (.seq k) .write h.addr (combine h.old h.clr h.set),
                                               .done k h.op .noValue] }
  | writeFault (k : Nat) (q : Seq) (rest : List Action) (h : Hold) (x : Raise) (hn : s.Next k q rest)
      (hf : q.fault = false) (hp : q.phase = .rmwPending h) (hx : x.Fits q.lat) :
      StepEffect s { s with sched := rest, actor := k, seqs := s.seqs.set k (q.faulted q.lat x.code x.detail) }
  | operand (k : Nat) (w : OperandWrite) (rest : List Action) (h : s.sched = .operand k w :: rest) :
      StepEffect s { s with sched := rest, seqs := s.seqs.modify k fun q => { q with ops := q.ops.put w } }
  | issue (k : Nat) (rest : List Action) (h : s.sched = .issue k :: rest) :
      StepEffect s { s with sched := rest, seqs := s.seqs.modify k fun q => { q with issued := true } }
  | consume (k : Nat) (r : ResultReg) (rest : List Action) (h : s.sched = .consume k r :: rest) :
      StepEffect s { s with sched := rest,
                            seqs := s.seqs.modify k fun q =>
                              if q.hasResult r || q.fault then q
                              else q.faulted q.ops .unwrittenResult (.register r) }
  | envIn (b v : Word) (rest : List Action) (h : s.sched = .envIn b v :: rest) (hb : b ∈ s.portBases) :
      StepEffect s { s with sched := rest, rf := s.rf.withPort b fun p => { p with inp := v },
                            hist := s.hist ++ [.envIn b v] }
  | envLatch (b m : Word) (rest : List Action) (h : s.sched = .envLatch b m :: rest) (hb : b ∈ s.portBases) :
      StepEffect s { s with sched := rest, rf := s.rf.withPort b fun p => { p with latch := p.latch ||| m },
                            hist := s.hist ++ [.envLatch b m] }
  | otherRead (addr v : Word) (rest : List Action) (h : s.sched = .otherRead addr :: rest)
      (ho : s.cfg.otherMasters = true) (hc : s.checkRead addr = .ok v) :
      StepEffect s { s with sched := rest, hist := s.hist ++ [.bus .other .read addr v] }
  | otherWrite (addr v b : Word) (r : Reg) (rest : List Action) (h : s.sched = .otherWrite addr v :: rest)
      (ho : s.cfg.otherMasters = true) (hw : s.checkWriteAddr addr = .ok (b, r))
      (hv : checkWriteValue r addr v = .ok ()) :
      StepEffect s { s with sched := rest, rf := s.rf.withPort b (Port.write s.cfg.dirAlias r v),
                            hist := s.hist ++ [.bus .other .write addr v] }
  | otherFault (addr : Word) (x : Raise) (a : Action) (rest : List Action) (h : s.sched = a :: rest)
      (ha : a = .otherRead addr ∨ ∃ v, a = .otherWrite addr v) (ho : s.cfg.otherMasters = true) :
      StepEffect s { s with sched := rest, gfault := some (x.code, addr) }
  | reset (d : ResetDraw) (rest : List Action) (h : s.sched = .reset d :: rest) :
      StepEffect s (State.resetFrom s.cfg d s.hist rest)

theorem checkWrite_ok {s : State} {addr v b : Word} {r : Reg} (h : s.checkWrite addr v = .ok (b, r)) :
    s.checkWriteAddr addr = .ok (b, r) ∧ checkWriteValue r addr v = .ok () := by
  obtain ⟨⟨b', r'⟩, hw, h⟩ := bind_eq_ok.mp h
  obtain ⟨_, hv, h⟩ := bind_eq_ok.mp h
  cases h
  exact ⟨hw, hv⟩

theorem rmwWrite_ok {s t : State} {h : Hold} (e : s.rmwWrite h = .ok t) :
    ∃ b r, s.checkWriteAddr h.addr = .ok (b, r) ∧
      checkWriteValue r h.addr (combine h.old h.clr h.set) = .ok () ∧
      t = ((s.memWrite (.seq s.actor) b r h.addr (combine h.old h.clr h.set)).setPhase .idle).emitDone h.op
        .noValue := by
  obtain ⟨⟨b, r⟩, hw, e⟩ := bind_eq_ok.mp e
  obtain ⟨_, hv, e⟩ := bind_eq_ok.mp e
  cases e
  exact ⟨b, r, hw, hv, rfl⟩

theorem rmwWrite_fits {s : State} {h : Hold} {r : Raise} {o : Operands} (e : s.rmwWrite h = .error r) :
    r.Fits o := by
  simp only [State.rmwWrite] at e
  cases hw : s.checkWriteAddr h.addr with
  | error x => rw [hw] at e; cases e; exact checkWriteAddr_fits hw
  | ok b =>
    rw [hw, ok_bind] at e
    cases hv : checkWriteValue b.2 h.addr (combine h.old h.clr h.set) with
    | error x => rw [hv] at e; cases e; exact checkWriteValue_fits hv
    | ok _ => rw [hv] at e; cases e

theorem writeStep_effect {s t : State} {k : Nat} {q : Seq} {h : Hold} {rest : List Action} (hn : s.Next k q rest)
    (hf : q.fault = false) (hp : q.phase = .rmwPending h)
    (e : ({ s with sched := rest } : State).writeStep k q h = .next t) : StepEffect s t := by
  simp only [State.writeStep] at e
  split at e
  · rename_i u hu
    obtain ⟨b, r, hw, hv, rfl⟩ := rmwWrite_ok hu
    cases e
    have hs := modify_eq_set_of_getElem? _ _ (Seq.setPhase .idle) _ hn.2
    simpa [State.memWrite, State.setPhase, State.emitDone, State.log, State.modifySeq, State.modifyPort,
      Memory.withPort, hs, Seq.setPhase] using StepEffect.write k q rest h b r hn hf hp hw hv
  · rename_i x hx
    cases e
    have hs := modify_eq_set_of_getElem? _ _ (Seq.enterFault q.lat x) _ hn.2
    simpa [State.enterFault, State.modifySeq, hs, Seq.enterFault, Seq.faulted]
      using StepEffect.writeFault k q rest h x hn hf hp (rmwWrite_fits hx)

theorem acceptStep_effect {s t : State} {k : Nat} {q : Seq} {rest : List Action} (hn : s.Next k q rest)
    (hf : q.fault = false) (hp : q.phase = .idle)
    (e : ({ s with sched := rest } : State).acceptStep k q = .next t) : StepEffect s t := by
  have hs := modify_eq_set_of_getElem? _ _ Seq.latch _ hn.2
  have hlt := (List.getElem?_eq_some_iff.mp hn.2).1
  have hq : (s.accepting k q rest).seqs[(s.accepting k q rest).actor]? = some q.latch := by simp [hlt]
  simp only [State.acceptStep, State.modifySeq, hs] at e
  cases hd : decode q.ops.req with
  | error c =>
    rw [hd] at e
    cases e
    rw [show q.ops = q.latch.lat from rfl, enterFault_eq hq]
    exact .undecodable k q rest c hn hf hp hd
  | ok i =>
    rw [hd] at e
    exact .accept k q rest i t hn hf hp hd (exec_effect hq e)

/-- What a step of the machine does. -/
theorem step_effect {s t : State} (e : step s = .next t) : StepEffect s t := by
  simp only [step, State.advance] at e
  split at e
  · cases e; exact .nobody (by assumption)
  · rename_i a rest hs
    cases a with
    | seq k =>
      simp only [State.perform, State.seqStep] at e
      split at e
      · cases e; exact .skip _ _ hs (by simp) (by simp)
      · rename_i q hq
        split at e
        · cases e; exact .skip _ _ hs (by simp) (by simp)
        · rename_i hf
          replace hf : q.fault = false := by simpa using hf
          split at e
          · exact writeStep_effect ⟨hs, hq⟩ hf (by assumption) e
          · split at e
            · exact acceptStep_effect ⟨hs, hq⟩ hf (by assumption) e
            · cases e; exact .skip _ _ hs (by simp) (by simp)
    | operand k w => cases e; exact .operand k w rest hs
    | issue k => cases e; exact .issue k rest hs
    | consume k r => cases e; exact .consume k r rest hs
    | envIn b v =>
      cases e
      by_cases hb : b ∈ s.portBases
      · simpa [State.envIn, show b ∈ ({ s with sched := rest } : State).portBases from hb, State.log,
          State.modifyPort, Memory.withPort] using StepEffect.envIn b v rest hs hb
      · simpa [State.envIn, show b ∉ ({ s with sched := rest } : State).portBases from hb]
          using StepEffect.skip _ _ hs (by simp) (by simpa using hb)
    | envLatch b m =>
      cases e
      by_cases hb : b ∈ s.portBases
      · simpa [State.envLatch, show b ∈ ({ s with sched := rest } : State).portBases from hb, State.log,
          State.modifyPort, Memory.withPort] using StepEffect.envLatch b m rest hs hb
      · simpa [State.envLatch, show b ∉ ({ s with sched := rest } : State).portBases from hb]
          using StepEffect.skip _ _ hs (by simp) (by simpa using hb)
    | otherRead addr =>
      cases e
      cases ho : s.cfg.otherMasters
      · simpa [State.otherRead, ho] using StepEffect.skip _ _ hs (by simp) (by simp)
      · simp only [State.otherRead, ho, if_true]
        split
        · rename_i v hc
          exact .otherRead addr v rest hs ho hc
        · rename_i x _
          exact .otherFault addr x _ rest hs (.inl rfl) ho
    | otherWrite addr v =>
      cases e
      cases ho : s.cfg.otherMasters
      · simpa [State.otherWrite, ho] using StepEffect.skip _ _ hs (by simp) (by simp)
      · simp only [State.otherWrite, ho, if_true]
        split
        · rename_i b r hc
          exact .otherWrite addr v b r rest hs ho (checkWrite_ok hc).1 (checkWrite_ok hc).2
        · rename_i x _
          exact .otherFault addr x _ rest hs (.inr ⟨v, rfl⟩) ho
    | reset d => cases e; exact .reset d rest hs

end Sys2Proof.Machine
end

