-- ==== Sys2Proof/Tests/Slice0.lean ====
section
/-! SUPPORT. Tests: expected results come from 95_test_vectors.md, words from 30_encoding.md. The `witness_` theorems
show that the hypotheses of each statement of Certificates/Slice0/Obligations.lean can be met together. -/

namespace Sys2Proof.Tests

open Sys2Proof Sys2Proof.Machine

set_option Elab.async false

/-! ### Small machines under EX (95_test_vectors.md section 0) -/

/-- The port base of EX. -/
abbrev base : Word := 0x50000000

/-- EX's port after reset. -/
def port : Port := Port.atReset false { base := base, reset := Config.exReset } 0

/-- EX's port with the configuration word of one pin replaced. -/
def portCnf (n : Fin 32) (w : Word) : Port := { port with cnf := port.cnf.set n w }

/-- A second port, for statements about two. -/
def port2 : Port := { port with base := 0x50001000, out := 0x0000000F }

/-- The record operand as five codes (30_encoding.md R116). -/
def bus (d i : BitVec 1) (p : BitVec 2) (dr : BitVec 3) (se : BitVec 2) : RecBus :=
  { dir := d, input := i, pull := p, drive := dr, sense := se }

/-- Operand registers with REQ, A, D0 and D1. -/
def operands (req a d0 d1 : Word) : Operands := { req := req, a := a, d0 := d0, d1 := d1, record := bus 0 0 3 0 0 }

/-- A sequencer that has latched its operand registers. -/
def serving (o : Operands) : Seq := { Seq.atReset o with lat := o }

/-- A sequencer with a request waiting. -/
def waiting (o : Operands) : Seq := { Seq.atReset o with issued := true }

/-- A sequencer whose RMW is pending. -/
def pending (h : Hold) : Seq := { Seq.atReset (operands 0 0 0 0) with phase := .rmwPending h }

/-- The HOLD of an RMW32. -/
def hold (addr clr set old : Word) : Hold := { addr := addr, clr := clr, set := set, old := old, op := .rmw32 }

/-- EX with other masters, `P_DIR_ALIAS` chosen, and the given ports, sequencers and schedule. -/
def machine (aliased : Bool) (ps : List Port) (qs : List Seq) (sched : List Action) : State :=
  { cfg := { Config.ex with dirAlias := aliased, nseq := qs.length, otherMasters := true,
                            ports := ps.map fun p => { base := p.base, reset := Config.exReset } }
    seqs := qs, rf := ps, gfault := none, hist := [], sched := sched, actor := 0 }

/-- One sequencer serving a request on one port. -/
def one (aliased : Bool) (p : Port) (o : Operands) : State := machine aliased [p] [serving o] []

/-- Whether a step answers a next state with a property. -/
def answers (x : Out) (f : State → Bool) : Bool :=
  match x with
  | .next t => f t
  | .fault _ => false
  | .refused _ => false

/-- The state a step answers. -/
def nextOf (x : Out) : State :=
  match x with
  | .next t => t
  | .fault _ => State.reset
  | .refused _ => State.reset

theorem next_of_answers {x : Out} {f : State → Bool} (h : answers x f = true) :
    x = .next (nextOf x) ∧ f (nextOf x) = true := by
  cases x with
  | next t => exact ⟨rfl, h⟩
  | fault r => cases h
  | refused r => cases h

/-- What the tests look at. -/
def rdata (t : State) : Option Word := t.seqs.head?.bind (·.rdata)
def rrec (t : State) : Option Record := t.seqs.head?.bind (·.rrec)
def cause (t : State) : Option FaultCode := t.seqs.head?.bind (·.cause)
def reg {α : Type} (f : Port → α) (t : State) : Option α := t.rf.head?.map f
def cnf (n : Fin 32) (t : State) : Option Word := reg (fun p => p.cnf[n]) t

/-- The fault of a request with no access made. -/
def faults (c : FaultCode) (t : State) : Bool := cause t == some c && t.hist == []

/-- The word held from the read and the word the write step would write (40_mmio.md R152, R155). -/
def readThenWrite (old new : Word) (t : State) : Bool :=
  match t.seqs.head?.map Seq.phase with
  | some (.rmwPending h) => h.old == old && combine h.old h.clr h.set == new
  | _ => false

/-! ### Well-formedness: one ill-formed term per check -/

theorem test_ill_formed_pin : ¬ (Instr.readLevel 32).WellFormed ∧ (Instr.readLevel 31).WellFormed := by decide

/-- 30_encoding.md R114. -/
theorem test_ill_formed_flags :
    ([.writeOutput 5 2, .setDirection 5 2, .setDetectMode 2, .setCfgDir 5 2, .setInput 5 2] : List Instr).all
      (fun i => decide (¬ i.WellFormed)) = true := by
  decide

theorem test_ill_formed_codes :
    ([.setPull 13 2, .setPull 13 4, .setSense 13 1, .setDrive 32 7] : List Instr).all
      (fun i => decide (¬ i.WellFormed)) = true ∧
    (Instr.setDrive 31 7).WellFormed ∧ (Instr.setSense 13 2).WellFormed := by
  decide

/-- 00_scope.md R9 (a) to (d). -/
theorem test_ill_formed_offsets :
    Config.exOffsets.WF ∧ ¬ ({ Config.exOffsets with out := 0x502 } : Offsets).WF ∧
    ¬ ({ Config.exOffsets with out := 0x508 } : Offsets).WF ∧
    ¬ ({ Config.exOffsets with out := 0x77C } : Offsets).WF ∧
    ¬ ({ Config.exOffsets with out := 0x1000 } : Offsets).WF := by
  decide

/-- 00_scope.md R10. -/
theorem test_ill_formed_bases :
    BasesWF [0x50000000, 0x50001000] ∧ ¬ BasesWF [0x50000002] ∧ ¬ BasesWF [0x50000000, 0x50000800] ∧
    ¬ BasesWF [0xFFFFF004] ∧ BasesWF [0xFFFFF000] := by
  decide

/-- 10_state.md R59, 00_scope.md R12. -/
theorem test_ill_formed_params :
    Config.ex.WF ∧ ¬ ({ Config.ex with nseq := 0 } : Params).WF ∧
    ¬ ({ Config.exReset with cnf := Vector.replicate 32 0x00000008 } : PortReset).WF ∧
    ¬ ({ Config.exReset with cnf := Vector.replicate 32 0x00000010 } : PortReset).WF := by
  decide +kernel

/-! ### The codec and the decoder -/

/-- V1: PACK. -/
theorem test_pack :
    pack { dir := .output, input := .disconnect, pull := .down, drive := 3, sense := .high } = 0x00020307 ∧
    pack { dir := .output, input := .disconnect, pull := .up, drive := 7, sense := .low } = 0x0003070F ∧
    pack { dir := .input, input := .connect, pull := .none, drive := 7, sense := .off } = 0x00000700 := by
  decide

/-- V2: UNPACK. -/
theorem test_unpack :
    unpack 0xFFFFFFFF = .ok { dir := .output, input := .disconnect, pull := .up, drive := 7, sense := .low } ∧
    unpack 0xFFFCF8F0 = .ok { dir := .input, input := .connect, pull := .none, drive := 0, sense := .off } ∧
    unpack 0x00000008 = .error .pull ∧ unpack 0x00010000 = .error .sense ∧ unpack 0x00010008 = .error .pull ∧
    unpack 0x0001000C = .error .sense := by
  decide

/-- V3: fields, masks, COMBINE and UPDSET. -/
theorem test_fields :
    fieldOf .drive 0x00020307 = 3 ∧ fieldOf .sense 0x0003000C = 3 ∧ fieldOf .pull 0x0002030F = 3 ∧
    pinMask 31 = 0x80000000 ∧ bitOf 0x00002000 13 = 1 ∧ bitOf 0x00002000 12 = 0 ∧
    combine 0xFFFF0000 0x00FF0000 0x0000FF00 = 0xFF00FF00 ∧ combine 0 0xF 1 = 1 ∧
    updSet { dir := .output, input := .disconnect, pull := .down, drive := 3, sense := .high } 0x700 = 0x300 := by
  decide

/-- The MMIO words (30_encoding.md R112, R113), bit 31 first. -/
theorem test_decode_mmio :
    decode 0b00000000000000000000000000000001#32 = .ok .read32 ∧
    decode 0b00000000000000000000000000000010#32 = .ok .write32 ∧
    decode 0b00000000000000000000000000000011#32 = .ok .rmw32 := by
  decide

/-- Port words, first half (30_encoding.md R112, R113). -/
theorem test_decode_port_first :
    decode 0b00000000000000000001010100001000#32 = .ok (.readLevel 21) ∧
    decode 0b00000000000000000001000100001001#32 = .ok (.readOutput 17) ∧
    decode 0b00000000000000000000010100001010#32 = .ok (.setOutput 5) ∧
    decode 0b00000000000000000000110100001011#32 = .ok (.clearOutput 13) ∧
    decode 0b00000000000000010001111100001100#32 = .ok (.writeOutput 31 1) ∧
    decode 0b00000000000000000000000000001101#32 = .ok (.getDirection 0) := by
  decide

/-- Port words, second half (30_encoding.md R112, R113). -/
theorem test_decode_port_second :
    decode 0b00000000000000010001010100001110#32 = .ok (.setDirection 21 1) ∧
    decode 0b00000000000000000000000000001111#32 = .ok .readLatch ∧
    decode 0b00000000000000000000010100010000#32 = .ok (.getLatch 5) ∧
    decode 0b00000000000000000000110100010001#32 = .ok (.clearLatch 13) ∧
    decode 0b00000000000000000000000000010010#32 = .ok .getDetectMode ∧
    decode 0b00000000000000010000000000010011#32 = .ok (.setDetectMode 1) := by
  decide

/-- Configuration words, READ_CONFIG_RAW to GET_PULL (30_encoding.md R112, R113). -/
theorem test_decode_config_first :
    decode 0b00000000000000000001010100011000#32 = .ok (.readConfigRaw 21) ∧
    decode 0b00000000000000000001000100011001#32 = .ok (.readConfig 17) ∧
    decode 0b00000000000000000000010100011010#32 = .ok (.configure 5) ∧
    decode 0b00000000000000000000110100011011#32 = .ok (.update 13) ∧
    decode 0b00000000000000000001111100100000#32 = .ok (.getCfgDir 31) ∧
    decode 0b00000000000000000000000000100001#32 = .ok (.getInput 0) ∧
    decode 0b00000000000000000001010100100010#32 = .ok (.getPull 21) := by
  decide

/-- Configuration words, GET_DRIVE to SET_SENSE (30_encoding.md R112, R113). -/
theorem test_decode_config_second :
    decode 0b00000000000000000001000100100011#32 = .ok (.getDrive 17) ∧
    decode 0b00000000000000000000010100100100#32 = .ok (.getSense 5) ∧
    decode 0b00000000000000010000110100101000#32 = .ok (.setCfgDir 13 1) ∧
    decode 0b00000000000000010001111100101001#32 = .ok (.setInput 31 1) ∧
    decode 0b00000000000000110000000000101010#32 = .ok (.setPull 0 3) ∧
    decode 0b00000000000001110001010100101011#32 = .ok (.setDrive 21 7) ∧
    decode 0b00000000000000110001000100101100#32 = .ok (.setSense 17 3) := by
  decide

/-- V4: the verdicts on words that do not decode. -/
theorem test_decode_verdicts :
    ([0x00000000, 0x00000004, 0x0000003F, 0x00000044] : List Word).all
      (fun w => decide (decode w = .error .illegalOp)) = true ∧
    ([0x00000041, 0x00002001, 0x00080D08, 0x00000101, 0x00010D08, 0x00000D0F, 0x00000113] : List Word).all
      (fun w => decide (decode w = .error .reservedReq)) = true := by
  decide

/-- Records in the text syntax, which writes them in braces (30_encoding.md R120), program P5 step 1. -/
theorem test_assemble_record :
    assemble ("configure 0x50000000, 13, ".toList ++ [openBrace] ++ "out, disconnect, down, d3, high".toList
        ++ [closeBrace])
      = some (.request [.a 0x50000000, .record (bus 1 1 1 3 2), .req 0x00000D1A]) := by
  decide +kernel

/-- The pseudo-operation and a line that is no request (30_encoding.md R120, R121). -/
theorem test_assemble_pin :
    assemble "pin 0x50000000, 13".toList = some (.descriptor 0x50000000 13) ∧
    assemble "set_pull 0x50000000, 32, up".toList = none ∧ assemble "nop".toList = none := by
  decide +kernel

/-- A request needs every operand of its row of R113; three rows have A alone. -/
theorem test_assemble_operands :
    assemble "write32 0x50000504".toList = none ∧ assemble "rmw32 0x50000504, 1".toList = none ∧
    assemble "write32 0x50000504, 1".toList = some (.request [.a 0x50000504, .d0 1, .req 0x00000002]) ∧
    assemble "read_latch 0x50000000".toList = some (.request [.a 0x50000000, .req 0x0000000F]) ∧
    assemble "get_detect_mode 0x50000000".toList = some (.request [.a 0x50000000, .req 0x00000012]) := by
  decide +kernel

/-! ### MMIO (95_test_vectors.md section 3) -/

/-- The start state of section 3, serving one MMIO request. -/
def mmio (a d0 d1 : Word) : State :=
  one false { port with out := 0xFFFF0000, latch := 0x00002001, inp := 0x00000005 } (operands 0 a d0 d1)

theorem test_read32 :
    answers (exec .read32 (mmio 0x50000504 0 0)) (fun t => rdata t == some 0xFFFF0000) = true ∧
    answers (exec .read32 (mmio 0x50000510 0 0)) (fun t => rdata t == some 0x00000005) = true ∧
    answers (exec .read32 (mmio 0x50000700 0 0)) (fun t => rdata t == some 0x00000002) = true ∧
    answers (exec .read32 (mmio 0x50000524 0 0)) (fun t => rdata t == some 0) = true := by
  decide +kernel

theorem test_read32_traps :
    answers (exec .read32 (mmio 0x50000702 0 0)) (faults .misaligned) = true ∧
    answers (exec .read32 (mmio 0x50000600 0 0)) (faults .unmapped) = true ∧
    answers (exec .read32 (mmio 0x60000000 0 0)) (faults .unmapped) = true ∧
    answers (exec .read32 (mmio 0x50000508 0 0)) (faults .writeOnlyRead) = true := by
  decide +kernel

theorem test_write32 :
    answers (exec .write32 (mmio 0x50000504 1 0)) (fun t => reg (·.out) t == some 1) = true ∧
    answers (exec .write32 (mmio 0x5000050C 0xFFFFFFFF 0)) (fun t => reg (·.out) t == some 0) = true ∧
    answers (exec .write32 (mmio 0x50000520 0x2000 0)) (fun t => reg (·.latch) t == some 1) = true ∧
    answers (exec .write32 (mmio 0x50000520 0 0)) (fun t => reg (·.latch) t == some 0x2001) = true ∧
    answers (exec .write32 (mmio 0x50000524 1 0)) (fun t => reg (·.dm) t == some 1) = true ∧
    answers (exec .write32 (mmio 0x50000734 0x0003070F 0)) (fun t => cnf 13 t == some 0x0003070F) = true := by
  decide +kernel

theorem test_write32_traps :
    answers (exec .write32 (mmio 0x50000510 0 0)) (faults .readOnlyWrite) = true ∧
    answers (exec .write32 (mmio 0x50000524 2 0)) (faults .readOnlyWrite) = true ∧
    answers (exec .write32 (mmio 0x50000734 0x10 0)) (faults .readOnlyWrite) = true ∧
    answers (exec .write32 (mmio 0x50000734 0x8 0)) (faults .reservedFieldWrite) = true ∧
    answers (exec .write32 (mmio 0x50000734 0x10000 0)) (faults .reservedFieldWrite) = true ∧
    answers (exec .write32 (mmio 0x50000734 0x80000008 0)) (faults .readOnlyWrite) = true := by
  decide +kernel

theorem test_rmw32 :
    answers (exec .rmw32 (mmio 0x50000504 0x00FF0000 0x0000FF00)) (readThenWrite 0xFFFF0000 0xFF00FF00) = true ∧
    answers (exec .rmw32 (mmio 0x50000520 0 0)) (readThenWrite 0x2001 0x2001) = true ∧
    answers (exec .rmw32 (mmio 0x50000714 0xC 0x4)) (readThenWrite 0x2 0x6) = true ∧
    answers (exec .rmw32 (mmio 0x50000508 0 1)) (faults .writeOnlyRead) = true ∧
    answers (exec .rmw32 (mmio 0x50000510 0 1)) (faults .readOnlyWrite) = true := by
  decide +kernel

/-- The write step of one pending RMW32. -/
def writing (h : Hold) : State :=
  machine false [{ port with latch := 0x00002001 }] [pending h] [.seq 0]

theorem test_rmw32_write_step :
    answers (step (writing (hold 0x50000520 0 0 0x2001))) (fun t => reg (·.latch) t == some 0) = true ∧
    answers (step (writing (hold 0x50000700 0 4 2))) (fun t => cnf 0 t == some 6) = true ∧
    answers (step (writing (hold 0x50000700 0 8 2))) (faults .reservedFieldWrite) = true ∧
    answers (step (writing (hold 0x50000524 0 2 0))) (faults .readOnlyWrite) = true := by
  decide +kernel

/-! ### Port operations (95_test_vectors.md section 4) -/

/-- The start state of section 4, serving a request whose A is the port base. -/
def portWide (aliased : Bool) : State :=
  one aliased { port with out := 0x00000001, dir := if aliased then 0 else 0x00002000, inp := 0x00002000,
                          latch := 0x00002001 } (operands 0 base 0 0)

/-- An operation's write event and completion. -/
def wrote (op : Op) (addr v : Word) (t : State) : Bool :=
  t.hist == [.bus (.seq 0) .write addr v, .done 0 op .noValue]

theorem test_readLevel :
    answers (exec (.readLevel 13) (portWide false)) (fun t => rdata t == some 1 &&
      t.hist == [.bus (.seq 0) .read 0x50000510 0x2000, .done 0 .readLevel (.word 1)]) = true ∧
    answers (exec (.readLevel 12) (portWide false)) (fun t => rdata t == some 0) = true := by
  decide +kernel

theorem test_port_base_traps :
    answers (exec (.readLevel 13) (one false port (operands 0 0x50000004 0 0))) (faults .unmapped) = true ∧
    answers (exec (.readLevel 13) (one false port (operands 0 0x50000002 0 0))) (faults .misaligned) = true ∧
    answers (exec (.readLevel 32) (portWide false)) (faults .pinRange) = true := by
  decide +kernel

theorem test_readOutput :
    answers (exec (.readOutput 0) (portWide false)) (fun t => rdata t == some 1) = true ∧
    answers (exec (.readOutput 13) (portWide false)) (fun t => rdata t == some 0) = true := by
  decide +kernel

theorem test_setOutput :
    answers (exec (.setOutput 17) (portWide false)) (fun t => reg (·.out) t == some 0x00020001 &&
      wrote .setOutput 0x50000508 0x00020000 t) = true := by
  decide +kernel

theorem test_clearOutput :
    answers (exec (.clearOutput 17) (one false { port with out := 0x00020001 } (operands 0 base 0 0)))
      (fun t => reg (·.out) t == some 1 && wrote .clearOutput 0x5000050C 0x00020000 t) = true := by
  decide +kernel

theorem test_writeOutput :
    answers (exec (.writeOutput 31 1) (portWide false)) (fun t => reg (·.out) t == some 0x80000001) = true ∧
    answers (exec (.writeOutput 0 0) (portWide false)) (fun t => reg (·.out) t == some 0) = true ∧
    answers (exec (.writeOutput 5 2) (portWide false)) (faults .badValue) = true := by
  decide +kernel

theorem test_getDirection :
    answers (exec (.getDirection 13) (portWide false)) (fun t => rdata t == some 1) = true ∧
    answers (exec (.getDirection 31) (portWide false)) (fun t => rdata t == some 0) = true := by
  decide +kernel

/-- Vector V4a: GET_DIRECTION under both values of P_DIR_ALIAS, CNF[5] = 0x3. -/
theorem test_getDirection_aliased :
    answers (exec (.getDirection 5) (one true (portCnf 5 0x3) (operands 0 base 0 0)))
      (fun t => rdata t == some 1) = true ∧
    answers (exec (.getDirection 5) (one false (portCnf 5 0x3) (operands 0 base 0 0)))
      (fun t => rdata t == some 0) = true := by
  decide +kernel

theorem test_setDirection :
    answers (exec (.setDirection 31 1) (portWide false)) (fun t => reg (·.dir) t == some 0x80002000 &&
      wrote .setDirection 0x50000518 0x80000000 t) = true ∧
    answers (exec (.setDirection 13 0) (portWide false)) (fun t => reg (·.dir) t == some 0 &&
      wrote .setDirection 0x5000051C 0x00002000 t) = true := by
  decide +kernel

/-- Vector V4a and program P2 under the alias. -/
theorem test_setDirection_aliased :
    answers (exec (.setDirection 5 0) (one true (portCnf 5 0x3) (operands 0 base 0 0)))
      (fun t => cnf 5 t == some 0x2) = true ∧
    answers (exec (.setDirection 17 1) (portWide true)) (fun t => cnf 17 t == some 0x3 && cnf 16 t == some 0x2 &&
      reg (Port.dirv true) t == some 0x00020000) = true := by
  decide +kernel

theorem test_readLatch :
    answers (exec .readLatch (portWide false)) (fun t => rdata t == some 0x00002001) = true := by
  decide +kernel

theorem test_getLatch :
    answers (exec (.getLatch 13) (portWide false)) (fun t => rdata t == some 1) = true ∧
    answers (exec (.getLatch 12) (portWide false)) (fun t => rdata t == some 0) = true := by
  decide +kernel

theorem test_clearLatch :
    answers (exec (.clearLatch 13) (portWide false)) (fun t => reg (·.latch) t == some 1) = true ∧
    answers (exec (.clearLatch 13) (one false { port with latch := 1 } (operands 0 base 0 0)))
      (fun t => reg (·.latch) t == some 1) = true := by
  decide +kernel

theorem test_getDetectMode :
    answers (exec .getDetectMode (one false { port with dm := 1 } (operands 0 base 0 0)))
      (fun t => rdata t == some 1) = true := by
  decide +kernel

theorem test_setDetectMode :
    answers (exec (.setDetectMode 1) (portWide false)) (fun t => reg (·.dm) t == some 1 &&
      wrote .setDetectMode 0x50000524 1 t) = true ∧
    answers (exec (.setDetectMode 2) (portWide false)) (faults .badValue) = true := by
  decide +kernel

/-! ### Configuration operations (95_test_vectors.md section 5) -/

/-- Serving a request on a port whose configuration word of one pin is `w`. -/
def config (n : Fin 32) (w : Word) : State :=
  one false (portCnf n w) (operands 0 base 0 0)

/-- The same with D0 and the record operand. -/
def configRec (n : Fin 32) (w d0 : Word) (r : RecBus) : State :=
  one false (portCnf n w) { operands 0 base d0 0 with record := r }

theorem test_readConfigRaw :
    answers (exec (.readConfigRaw 0) (config 1 0)) (fun t => rdata t == some 2) = true := by
  decide +kernel

theorem test_readConfig :
    answers (exec (.readConfig 0) (config 1 0)) (fun t => rdata t == some 2 && rrec t == some
      { dir := .input, input := .disconnect, pull := .none, drive := 0, sense := .off }) = true ∧
    answers (exec (.readConfig 13) (config 13 0x0002030F)) (fun t => rrec t == some
      { dir := .output, input := .disconnect, pull := .up, drive := 3, sense := .high }) = true := by
  decide +kernel

theorem test_configure :
    answers (exec (.configure 13) (configRec 13 2 0 (bus 0 0 3 0 0))) (fun t => cnf 13 t == some 0xC &&
      wrote .configure 0x50000734 0xC t) = true ∧
    answers (exec (.configure 31) (configRec 13 2 0 (bus 1 1 3 7 3))) (fun t => cnf 31 t == some 0x0003070F &&
      wrote .configure 0x5000077C 0x0003070F t) = true := by
  decide +kernel

theorem test_configure_bad_record :
    answers (exec (.configure 13) (configRec 13 2 0 (bus 0 0 2 0 0))) (faults .badRecord) = true ∧
    answers (exec (.configure 13) (configRec 13 2 0 (bus 0 0 0 0 1))) (faults .badRecord) = true := by
  decide +kernel

theorem test_update :
    answers (exec (.update 13) (configRec 13 0xC 0x700 (bus 0 0 0 5 0))) (readThenWrite 0xC 0x50C) = true ∧
    answers (exec (.update 13) (configRec 13 0xC 0x4 (bus 0 0 0 0 0))) (readThenWrite 0xC 0x8) = true ∧
    answers (exec (.update 13) (configRec 13 0x00020307 0xC (bus 0 0 3 0 0)))
      (readThenWrite 0x00020307 0x0002030F) = true := by
  decide +kernel

theorem test_getCfgDir :
    answers (exec (.getCfgDir 13) (config 13 0x00020307)) (fun t => rdata t == some 1) = true := by
  decide +kernel

theorem test_getInput :
    answers (exec (.getInput 0) (config 1 0)) (fun t => rdata t == some 1) = true := by
  decide +kernel

theorem test_getPull :
    answers (exec (.getPull 13) (config 13 0xC)) (fun t => rdata t == some 3) = true := by
  decide +kernel

theorem test_getDrive :
    answers (exec (.getDrive 31) (config 31 0x700)) (fun t => rdata t == some 7) = true := by
  decide +kernel

theorem test_getSense :
    answers (exec (.getSense 13) (config 13 0x0003000C)) (fun t => rdata t == some 3) = true := by
  decide +kernel

theorem test_setCfgDir :
    answers (exec (.setCfgDir 13 1) (config 13 0xC)) (readThenWrite 0xC 0xD) = true := by
  decide +kernel

theorem test_setInput :
    answers (exec (.setInput 13 1) (config 13 0xC)) (readThenWrite 0xC 0xE) = true := by
  decide +kernel

theorem test_setPull :
    answers (exec (.setPull 13 3) (config 13 0x4)) (readThenWrite 0x4 0xC) = true ∧
    answers (exec (.setPull 13 0) (config 13 0xC)) (readThenWrite 0xC 0) = true ∧
    answers (exec (.setPull 13 2) (config 13 0xC)) (faults .badValue) = true := by
  decide +kernel

theorem test_setDrive :
    answers (exec (.setDrive 13 6) (config 13 0xC)) (readThenWrite 0xC 0x60C) = true ∧
    answers (exec (.setDrive 31 7) (config 31 2)) (readThenWrite 2 0x702) = true := by
  decide +kernel

theorem test_setSense :
    answers (exec (.setSense 13 2) (config 13 0xC)) (readThenWrite 0xC 0x0002000C) = true ∧
    answers (exec (.setSense 13 0) (config 13 0x0003000C)) (readThenWrite 0x0003000C 0xC) = true ∧
    answers (exec (.setSense 13 1) (config 13 0xC)) (faults .badValue) = true := by
  decide +kernel

/-! ### Faults, reset, the environment and the requester (95_test_vectors.md sections 6 to 8) -/

/-- One sequencer with a request waiting, on EX's port, with a schedule. -/
def issued (req a : Word) (sched : List Action) : State :=
  machine false [port] [waiting (operands req a 0 0)] sched

/-- REQ 0 in an idle sequencer, and RDATA consumed right after reset. -/
theorem test_fault_entry :
    answers (step (issued 0 0 [.seq 0])) (fun t => faults .illegalOp t &&
      t.seqs.head?.bind (·.finfo) == some { req := 0, a := 0, detail := .nothing } && rdata t == none) = true ∧
    answers (step (issued 0 0 [.consume 0 .rdata])) (faults .unwrittenResult) = true := by
  decide +kernel

/-- Other writes IN: GFAULT, and no access. -/
theorem test_other_fault :
    answers (step (issued 0 0 [.otherWrite 0x50000510 0]))
      (fun t => t.gfault == some (.readOnlyWrite, 0x50000510) && t.hist == [] && cause t == none) = true := by
  decide +kernel

/-- Reset while a SET_PULL is pending: the write never happens. -/
theorem test_reset_abandons_write :
    answers (step (machine false [port] [pending { addr := 0x50000734, clr := 0xC, set := 0xC, old := 2,
                                                    op := .setPull }] [.reset { ins := [], ops := [] }]))
      (fun t => cnf 13 t == some 2 && t.seqs.head?.map (·.phase) == some .idle && t.hist == [.reset]) = true := by
  decide +kernel

/-- Program P1 step 2 and program P3 step 4. -/
theorem test_environment :
    answers (step (issued 0 0 [.envIn base 0x2000])) (fun t => reg (·.inp) t == some 0x2000) = true ∧
    answers (step (issued 0 0 [.envLatch base 0x2001])) (fun t => reg (·.latch) t == some 0x2001) = true := by
  decide +kernel

/-- Section 8: Seq 1 wrote 0x700 before, and Seq 0's write of its own combine loses it (the r0 r1 w1 w0 row). -/
theorem test_race_last_write :
    answers (step (machine false [portCnf 13 0x700]
        [pending { addr := 0x50000734, clr := 0xC, set := 0xC, old := 0, op := .setPull }] [.seq 0]))
      (fun t => cnf 13 t == some 0xC) = true := by
  decide +kernel

/-- A placed request is what the next step runs: at reset A is 0, which is no port base (log 6, log 17). -/
theorem test_with_fetch_word :
    decodeTableWord 32 0x0F = some .readLatch ∧ decodeTableWord 32 0x2F = none ∧
    answers (step (State.reset.withFetchWord 32 0x0F)) (fun t => cause t == some .unmapped) = true := by
  decide +kernel

/-! ### Witnesses: the hypotheses of each statement, met on a small state -/

theorem witness_RequestRoundTrip :
    (Instr.setPull 31 3).Encodable ∧ (Instr.readLevel 0).Encodable ∧ Instr.read32.Encodable := by decide

theorem witness_DecodedRequestReencodes : decode 0x00031F2A = .ok (.setPull 31 3) := by decide

/-- One word for each disjunct, on an assigned opcode. -/
theorem witness_ReservedRequestBits :
    opcode .read32 = fieldOp 0x00000041 ∧ (0x00000041 : Word).extractLsb' 6 2 ≠ 0 ∧
    opcode .read32 = fieldOp 0x00002001 ∧ (0x00002001 : Word).extractLsb' 13 3 ≠ 0 ∧
    opcode .readLevel = fieldOp 0x80000D08 ∧ (0x80000D08 : Word).extractLsb' 19 13 ≠ 0 ∧
    opcode .read32 = fieldOp 0x00000101 ∧ fieldPin 0x00000101 ≠ 0 ∧
    opcode .readLevel = fieldOp 0x00010D08 ∧ fieldVal 0x00010D08 ≠ 0 := by
  decide

theorem witness_PackUnpackLaws :
    unpack 0xFFFFFFFF = .ok { dir := .output, input := .disconnect, pull := .up, drive := 7, sense := .low } ∧
    Field.pull.mask &&& 0x0000000C = Field.pull.mask ∧ Field.drive.mask &&& 0x0000000C = 0 := by
  decide

theorem witness_UnpackVerdicts :
    (0x00010008 : Word).extractLsb' 2 2 = 2 ∧
    ((0x0001000C : Word).extractLsb' 2 2 ≠ 2 ∧ (0x0001000C : Word).extractLsb' 16 2 = 1) ∧
    ((0x0003070F : Word).extractLsb' 2 2 ≠ 2 ∧ (0x0003070F : Word).extractLsb' 16 2 ≠ 1) := by
  decide

theorem witness_CombineSetsAfterClearing : (0x80000001 : Word).getLsbD 31 = true := by decide

/-- A sequencer next to accept, with the request word `req` at the port base. -/
abbrev Accepting (req : Word) (aliased : Bool) : Prop :=
  (machine aliased [port] [waiting (operands req base 0 0)] [.seq 0]).Next 0 (waiting (operands req base 0 0)) [] ∧
    (waiting (operands req base 0 0)).fault = false ∧ (waiting (operands req base 0 0)).phase = .idle ∧
    (waiting (operands req base 0 0)).issued = true

theorem witness_StepRunsDecodedRequest :
    Accepting 0x00000D08 false ∧ decode 0x00000D08 = .ok (.readLevel 13) := by
  decide +kernel

theorem witness_UndecodableRequestFaults :
    Accepting 0x00000004 false ∧ (∀ op, opcode op ≠ fieldOp 0x00000004) ∧
    Accepting 0x00000041 true ∧ opcode .read32 = fieldOp 0x00000041 ∧
      (0x00000041 : Word) &&& requestMask .read32 ≠ requestMatch .read32 := by
  refine ⟨by decide +kernel, fun op => ?_, by decide +kernel, by decide, by decide⟩
  cases op <;> decide

/-- A faulted sequencer. -/
def stuck : Seq := (waiting (operands 0x00000D08 base 0 0)).faulted (operands 0x00020D2A base 0 0) .badValue .nothing

theorem witness_FaultedSequencerTakesNoStep :
    (machine false [port] [stuck] [.seq 0]).Next 0 stuck [] ∧ stuck.fault = true := by
  decide +kernel

/-- A pending RMW on a register of EX's port, next to take its write step. -/
abbrev Writing (p : Port) (h : Hold) (rest : List Action) : Prop :=
  (machine false [p] [pending h] (.seq 0 :: rest)).Next 0 (pending h) rest ∧ (pending h).fault = false ∧
    (pending h).phase = .rmwPending h

theorem witness_PendingWriteStepReturnsToIdle : Writing port (hold 0x50000504 0 1 0) [] := by decide +kernel

/-- The invariant and a step, in a state with an RMW pending on CNF[31]. -/
theorem witness_StepKeepsInvariant :
    (machine true [port] [pending (hold 0x5000077C 0x700 0x700 2)] [.seq 0]).Inv ∧
    answers (step (machine true [port] [pending (hold 0x5000077C 0x700 0x700 2)] [.seq 0]))
      (fun t => cnf 31 t == some 0x702) = true := by
  decide +kernel

/-- A draw for a reset. -/
def draw : ResetDraw := { ins := [5], ops := [operands 1 2 3 4] }

theorem witness_ResetEstablishesInvariant :
    (machine false [port] [stuck] [.reset draw]).cfg.WF ∧
    (machine false [port] [stuck] [.reset draw]).sched = .reset draw :: [] ∧
    answers (step (machine false [port] [stuck] [.reset draw])) (fun t => reg (·.inp) t == some 5) = true := by
  decide +kernel

theorem witness_ConfigWordsStayLegal :
    Config.ex.WF ∧
    (∀ n : Fin 32, (portCnf 31 0x0003070F).cnf[n] &&& 0xFFFCF8F0 = 0 ∧
      (portCnf 31 0x0003070F).cnf[n].extractLsb' 2 2 ≠ 2 ∧
      (portCnf 31 0x0003070F).cnf[n].extractLsb' 16 2 ≠ 1) ∧
    answers (step (machine false [portCnf 31 0x0003070F] [] [.otherWrite 0x50000700 6]))
      (fun t => cnf 0 t == some 6) = true := by
  decide +kernel

/-- The premises of ResetStepEffect and of its last clause, with the ports found. -/
theorem witness_ResetStepEffect :
    (machine false [port] [stuck] [.reset draw]).sched = .reset draw :: [] ∧
    answers (step (machine false [port] [stuck] [.reset draw])) (fun t => t.rf[0]?.isSome) = true ∧
    (machine false [port] [stuck] [.reset draw]).cfg.ports[0]?.isSome = true ∧
    (machine false [port] [stuck] [.reset draw]).cfg.dirAlias = false := by
  decide +kernel

theorem witness_ParametersNeverChange :
    answers (step (issued 0x00000D08 base [.seq 0])) (fun t => rdata t == some 0) = true ∧
    (issued 0x00000D08 base [.seq 0]).portBases = (issued 0x00000D08 base [.seq 0]).cfg.ports.map (·.base) := by
  decide +kernel

theorem witness_HistoryOnlyGrows :
    answers (step (issued 0x00000D08 base [.seq 0])) (fun t => t.hist.length == 2) = true := by
  decide +kernel

theorem witness_HistoryIsNeverRead :
    answers (step (issued 0x00000D08 base [.seq 0])) (fun t => t.hist.length == 2) = true := by
  decide +kernel

/-- A move that is none of the environment's, an EnvIn, and a write that clears latch bits. -/
theorem witness_InputsChangeOnlyByEnvironment :
    answers (step (issued 0 0 [.envIn base 0x80000001])) (fun t => reg (·.inp) t == some 0x80000001) = true ∧
    answers (step (machine false [{ port with latch := 0x80000001 }] [] [.otherWrite 0x50000520 0x80000000]))
      (fun t => reg (·.latch) t == some 1 && t.hist == [.bus .other .write 0x50000520 0x80000000]) = true ∧
    (0x80000001 : Word) &&& ~~~1 ≠ 0 := by
  decide +kernel

/-! Requests served on a port. -/

theorem witness_RegisterReadsByAddress :
    Config.exOffsets.WF ∧ (one true port (operands 0 base 0 0)).rf.wf ∧
    (one true port (operands 0 base 0 0)).port? base = some port := by
  decide +kernel

theorem witness_Read32ReturnsRegister :
    (one false port (operands 0 0x5000077C 0 0)).Acting (serving (operands 0 0x5000077C 0 0)) ∧
    (one false port (operands 0 0x5000077C 0 0)).port? base = some port ∧
    (0x5000077C : Word) = base + offsetOf Config.exOffsets (.pinCnf 31) ∧
    port.read false (.pinCnf 31) = some 2 := by
  decide +kernel

theorem witness_Write32AppliesWriteEffect :
    (one false port (operands 0 0x5000077C 6 0)).Acting (serving (operands 0 0x5000077C 6 0)) ∧
    (one false port (operands 0 0x5000077C 6 0)).port? base = some port ∧
    (0x5000077C : Word) = base + offsetOf Config.exOffsets (.pinCnf 31) ∧
    Reg.pinCnf 31 ≠ .inp ∧ (Reg.pinCnf 31).takes 6 = true ∧ Reg.detectmode.takes 1 = true := by
  decide +kernel

theorem witness_Rmw32AcceptHoldsOldValue :
    (one false port (operands 0 0x50000504 6 1)).Acting (serving (operands 0 0x50000504 6 1)) ∧
    (one false port (operands 0 0x50000504 6 1)).port? base = some port ∧
    (0x50000504 : Word) = base + offsetOf Config.exOffsets .out ∧ Reg.out ≠ .inp ∧ port.read false .out = some 0 := by
  decide +kernel

/-- Each kind of address of MmioAccessTraps. -/
theorem witness_MmioAccessTraps :
    (0x50000702 : Word).extractLsb' 0 2 ≠ 0 ∧
    (0x50000600 : Word).extractLsb' 0 2 = 0 ∧ (mmio 0x50000600 0 0).regAt 0x50000600 = none ∧
    ((mmio 0x50000508 0 0).regAt 0x50000508).map (·.2) = some .outset ∧ Reg.outset.readable = false ∧
    ((mmio 0x50000510 0 0).regAt 0x50000510).map (·.2) = some .inp ∧
    ((mmio 0x50000524 2 0).regAt 0x50000524).map (·.2) = some .detectmode ∧ (2 : Word) >>> 1 ≠ 0 ∧
    ((mmio 0x5000077C 0 0).regAt 0x5000077C).map (·.2) = some (.pinCnf 31) ∧
    (0x80000008 : Word) &&& 0xFFFCF8F0 ≠ 0 ∧ (0x00000008 : Word) &&& 0xFFFCF8F0 = 0 ∧
    (0x00000008 : Word).extractLsb' 2 2 = 2 ∧ (0x00010000 : Word).extractLsb' 16 2 = 1 ∧
    (mmio 0x50000508 0 0).seqs[(mmio 0x50000508 0 0).actor]? = some (serving (operands 0 0x50000508 0 0)) := by
  decide +kernel

/-- A write step that completes and one for each fault clause. -/
theorem witness_RmwWriteStep :
    Writing port (hold 0x50000714 0xC 0x4 2) [] ∧ Config.exOffsets.WF ∧
    (machine false [port] [] []).rf.wf ∧ (machine false [port] [] []).port? base = some port ∧
    (0x50000714 : Word) = base + offsetOf Config.exOffsets (.pinCnf 5) ∧ Reg.pinCnf 5 ≠ .inp ∧
    (Reg.pinCnf 5).takes (((2 : Word) &&& ~~~0xC) ||| 0x4) = true ∧
    Writing port (hold 0x50000524 0 2 0) [] ∧ (0x50000524 : Word) = base + offsetOf Config.exOffsets .detectmode ∧
    (((0 : Word) &&& ~~~0) ||| 2) >>> 1 ≠ 0 ∧
    (((2 : Word) &&& ~~~0) ||| 0x10) &&& 0xFFFCF8F0 ≠ 0 ∧
    (((2 : Word) &&& ~~~0) ||| 8) &&& 0xFFFCF8F0 = 0 ∧ (((2 : Word) &&& ~~~0) ||| 8).extractLsb' 2 2 = 2 ∧
    (((2 : Word) &&& ~~~0) ||| 0x10000).extractLsb' 16 2 = 1 := by
  decide +kernel

/-- A sequencer with no step to take: faulted, or IDLE with no request. -/
theorem witness_RmwWriteStep_disabled :
    (machine false [port] [stuck] [.seq 0]).Next 0 stuck [] ∧ stuck.fault = true ∧
    (machine false [port] [Seq.atReset Operands.zero] [.seq 0]).Next 0 (Seq.atReset Operands.zero) [] ∧
    (Seq.atReset Operands.zero).phase = .idle ∧ (Seq.atReset Operands.zero).issued = false := by
  decide +kernel

theorem witness_RmwOnLatchClearsPendingBits :
    Writing { port with latch := 0x2001 } (hold 0x50000520 1 0 0x2001) [] ∧
    (machine false [{ port with latch := 0x2001 }] [] []).port? base = some { port with latch := 0x2001 } ∧
    (0x50000520 : Word) = base + Config.exOffsets.latch ∧ (0x2001 : Word).getLsbD 13 = true ∧
    (1 : Word).getLsbD 13 = false := by
  decide +kernel

/-- The move `m` between the two steps of sequencer 0's RMW on register `r`, sequencer 1 being `q`. -/
def window (h : Hold) (q : Seq) (m : Action) : State :=
  machine false [port] [pending h, q] [m, .seq 0]

/-- The premises of WriteInRmwWindowIsLost but that `m` is a write to the address of HOLD. -/
abbrev Window (r : Reg) (h : Hold) (q : Seq) (m : Action) : Prop :=
  (window h q m).sched = m :: .seq 0 :: [] ∧ m ≠ .seq 0 ∧ (window h q m).seqs[0]? = some (pending h) ∧
    (pending h).fault = false ∧ (pending h).phase = .rmwPending h ∧ (window h q m).cfg.offsets.WF ∧
    (window h q m).rf.wf ∧ (window h q m).port? base = some port ∧
    h.addr = base + offsetOf (window h q m).cfg.offsets r ∧ r.takes ((h.old &&& ~~~h.clr) ||| h.set) = true

/-- Sequencer 1 with a WRITE32 of 6 to CNF[31] waiting, and with an RMW on OUT pending. -/
def storing : Seq := waiting (operands 2 0x5000077C 6 0)
def rewriting : Seq := pending (hold 0x50000504 0 0x80 0)

/-- Each register of the window, and each kind of write. -/
theorem witness_WriteInRmwWindowIsLost :
    (Window .out (hold 0x50000504 0 1 0) rewriting (.seq 1) ∧
      (Action.seq 1).Stores (window (hold 0x50000504 0 1 0) rewriting (.seq 1)) 0x50000504) ∧
    (Window .dir (hold 0x50000514 0 1 0) storing (.otherWrite 0x50000514 0xFF) ∧
      (Action.otherWrite 0x50000514 0xFF).Stores
        (window (hold 0x50000514 0 1 0) storing (.otherWrite 0x50000514 0xFF)) 0x50000514) ∧
    (Window .detectmode (hold 0x50000524 0 1 0) storing (.otherWrite 0x50000524 0) ∧
      (Action.otherWrite 0x50000524 0).Stores
        (window (hold 0x50000524 0 1 0) storing (.otherWrite 0x50000524 0)) 0x50000524) ∧
    (Window (.pinCnf 31) (hold 0x5000077C 0xC 0x4 2) storing (.seq 1) ∧
      (Action.seq 1).Stores (window (hold 0x5000077C 0xC 0x4 2) storing (.seq 1)) 0x5000077C) :=
  ⟨⟨by decide +kernel, rewriting, rfl, .inr ⟨_, rfl, rfl⟩⟩, ⟨by decide +kernel, rfl⟩, ⟨by decide +kernel, rfl⟩,
    by decide +kernel, storing, rfl, .inl ⟨rfl, .write32, by decide, rfl⟩⟩

/-- The writes of sequencer 1 in those windows happen: OUT and CNF[31] hold them before sequencer 0's write step. -/
theorem test_window_writes :
    answers (step (window (hold 0x50000504 0 1 0) rewriting (.seq 1))) (fun t => reg (·.out) t == some 0x80) = true ∧
    answers (step (window (hold 0x5000077C 0xC 0x4 2) storing (.seq 1))) (fun t => cnf 31 t == some 6) = true := by
  decide +kernel

/-- An RMW32 on OUT with both its steps scheduled. -/
theorem witness_UninterruptedRmwIsAtomic :
    (machine false [port] [waiting (operands 3 0x50000504 0xF 1)] [.seq 0, .seq 0]).Next 0
      (waiting (operands 3 0x50000504 0xF 1)) [.seq 0] ∧
    (waiting (operands 3 0x50000504 0xF 1)).fault = false ∧ (waiting (operands 3 0x50000504 0xF 1)).phase = .idle ∧
    (waiting (operands 3 0x50000504 0xF 1)).issued = true ∧ decode 3 = .ok .rmw32 ∧ Config.exOffsets.WF ∧
    (machine false [port] [] []).rf.wf ∧ (machine false [port] [] []).port? base = some port ∧
    (0x50000504 : Word) = base + offsetOf Config.exOffsets .out ∧ port.read false .out = some 0 ∧
    Reg.out.takes (((0 : Word) &&& ~~~0xF) ||| 1) = true := by
  decide +kernel

/-- Program P4's HOLD of Seq 0, and of Seq 1. -/
def holdPull : Hold := { addr := 0x50000734, clr := 0xC, set := 0xC, old := 0, op := .setPull }
def holdDrive : Hold := { addr := 0x50000734, clr := 0x700, set := 0x700, old := 0, op := .setDrive }

theorem witness_LaterWriteOfTwoPendingWins :
    (machine false [portCnf 13 0] [pending holdPull, pending holdDrive] [.seq 1, .seq 0]).seqs[1]?
      = some (pending holdDrive) ∧
    (machine false [portCnf 13 0] [pending holdPull, pending holdDrive] [.seq 1, .seq 0]).seqs[0]?
      = some (pending holdPull) ∧
    (pending holdPull).fault = false ∧ (pending holdPull).phase = .rmwPending holdPull ∧
    (pending holdDrive).fault = false ∧ (pending holdDrive).phase = .rmwPending holdDrive ∧
    (machine false [portCnf 13 0] [] []).rf.wf ∧ (machine false [portCnf 13 0] [] []).port? base = some (portCnf 13 0) ∧
    (0x50000734 : Word) = base + offsetOf Config.exOffsets (.pinCnf 13) ∧
    legalCnf (((0 : Word) &&& ~~~0xC) ||| 0xC) = true ∧ legalCnf (((0 : Word) &&& ~~~0x700) ||| 0x700) = true := by
  decide +kernel

/-- A sequencer serving EX's port, under both values of P_DIR_ALIAS. -/
abbrev Served (aliased : Bool) (p : Port) (o : Operands) : Prop :=
  (one aliased p o).Serves (serving o) p

theorem witness_PortReadsReturnTheirBit :
    Served false port (operands 0 base 0 0) ∧ Served true port (operands 0 base 0 0) ∧ 0 < 32 ∧ 31 < 32 := by
  decide +kernel

theorem witness_PortWritesStoreTheirMask :
    Served false port (operands 0 base 0 0) ∧ Served true port (operands 0 base 0 0) ∧ 0 < 32 ∧ 31 < 32 := by
  decide +kernel

/-- Each clause's instruction completes, at the last pin. -/
theorem witness_PortWritesAreIsolated :
    Served true port (operands 0 base 0 0) ∧ Served false port (operands 0 base 0 0) ∧
    ([.setOutput 31, .clearOutput 31, .writeOutput 31 1, .setDirection 31 1, .clearLatch 31, .setDetectMode 1]
      : List Instr).all (fun i => answers (exec i (one true port (operands 0 base 0 0)))
        fun t => (t.port? base).isSome) = true := by
  decide +kernel

theorem witness_SetDirectionThenGetDirection :
    Served true port (operands 0 base 0 0) ∧
    answers (exec (.setDirection 31 1) (one true port (operands 0 base 0 0)))
      (fun t => answers (exec (.getDirection 31) t) fun u => rdata u == some 1) = true := by
  decide +kernel

theorem witness_ConfigReadsReturnWordOrField : Served false (portCnf 31 0x702) (operands 0 base 0 0) := by
  decide +kernel

/-- A word for each clause; the last two are words no run reaches. -/
theorem witness_DecodingReadsCheckTheirCodes :
    Served false (portCnf 31 0x0002030F) (operands 0 base 0 0) ∧
    unpack 0x0002030F = .ok { dir := .output, input := .disconnect, pull := .up, drive := 3, sense := .high } ∧
    Served false (portCnf 0 0x00000008) (operands 0 base 0 0) ∧ unpack 0x00000008 = .error .pull ∧
    (((0x00000008 : Word).extractLsb' 2 2).setWidth 32 : Word) = 2 ∧
    Served false (portCnf 31 0x00010000) (operands 0 base 0 0) ∧ unpack 0x00010000 = .error .sense ∧
    (((0x00010000 : Word).extractLsb' 16 2).setWidth 32 : Word) = 1 := by
  decide +kernel

theorem witness_ConfigureStoresPackedRecord :
    Served false port { operands 0 base 0 0 with record := bus 1 1 3 7 3 } ∧
    (bus 1 1 3 7 3).record?
      = some { dir := .output, input := .disconnect, pull := .up, drive := 7, sense := .low } := by
  decide +kernel

theorem witness_ConfigureThenReadConfig :
    Served false port { operands 0 base 0 0 with record := bus 1 1 3 7 3 } ∧ 31 < 32 ∧
    bus 1 1 3 7 3
      = ({ dir := .output, input := .disconnect, pull := .up, drive := 7, sense := .low } : Record).toBus := by
  decide +kernel

theorem witness_MaskedAcceptsHoldTheirMasks :
    Served true port { operands 0 base 0x700 0 with record := bus 0 0 0 5 0 } ∧
    (bus 0 0 0 5 0).record?
      = some { dir := .input, input := .connect, pull := .none, drive := 5, sense := .off } := by
  decide +kernel

/-- SET_PULL on pin 13 and SET_SENSE on pin 31, both steps scheduled. -/
theorem witness_SetterChangesOnlyItsField :
    (machine false [port] [waiting (operands 0x00030D2A base 0 0)] [.seq 0, .seq 0]).Next 0
      (waiting (operands 0x00030D2A base 0 0)) [.seq 0] ∧
    (waiting (operands 0x00030D2A base 0 0)).fault = false ∧ (waiting (operands 0x00030D2A base 0 0)).phase = .idle ∧
    (waiting (operands 0x00030D2A base 0 0)).issued = true ∧
    decode 0x00030D2A = .ok (setterOf .pull 13 3) ∧ (3 : Val) ∈ valDomain (setterOf .pull 13 3).op ∧
    decode 0x00021F2C = .ok (setterOf .sense 31 2) ∧ (2 : Val) ∈ valDomain (setterOf .sense 31 2).op ∧
    Config.exOffsets.WF ∧ (machine false [port] [] []).rf.wf ∧
    (machine false [port] [] []).port? base = some port ∧ legalCnf port.cnf[(13 : Fin 32)] = true := by
  decide +kernel

/-- Every instruction of EqualBusEffects answers a next state. -/
theorem witness_EqualBusEffects :
    Served false port (operands 0 base 0xC 0) ∧
    (bus 0 0 3 0 0).record? = some { dir := .input, input := .connect, pull := .up, drive := 0, sense := .off } ∧
    (3 : Val) ∈ valDomain (setterOf .pull 13 3).op ∧
    ([.writeOutput 31 1, .writeOutput 31 0, .setOutput 31, .clearOutput 31, .setPull 13 3, .update 13, .configure 13,
      .getPull 13, .readConfigRaw 13] : List Instr).all
        (fun i => answers (exec i (one false port (operands 0 base 0xC 0))) fun t => cause t == none) = true ∧
    answers (exec .write32 (one false port (operands 0 0x50000734 0xC 0))) (fun t => cause t == none) = true ∧
    answers (exec .rmw32 (one false port (operands 0 0x50000734 0xC 0xC))) (fun t => cause t == none) = true := by
  decide +kernel

/-! Faults, the environment, the requester and the frames. -/

/-- A form for each check of ValidateOrder. -/
theorem witness_ValidateOrder :
    (one false port (operands 0 base 0 0)).seqs[0]? = some (serving (operands 0 base 0 0)) ∧
    (Instr.readLevel 32).pin? = some 32 ∧
    ((Instr.setPull 31 2).PinOk ∧ (Instr.setPull 31 2).val? = some 2 ∧ 2 ∉ valDomain (Instr.setPull 31 2).op) ∧
    ((Instr.configure 31).PinOk ∧ (Instr.configure 31).readsRec = true) ∧ (bus 0 0 2 0 0).pull = 2 ∧
    (bus 0 0 0 0 1).sense = 1 ∧
    ((Instr.readLevel 31).isMmio = false ∧ (Instr.readLevel 31).WellFormed ∧
      (Instr.readLevel 31).readsRec = false) ∧
    (0x50000002 : Word).extractLsb' 0 2 ≠ 0 ∧ (0x50000004 : Word).extractLsb' 0 2 = 0 ∧
    0x50000004 ∉ (one false port (operands 0 0x50000004 0 0)).portBases ∧
    decode 0x00001F08 = .ok (.readLevel 31) := by
  decide +kernel

theorem witness_FaultsOfEachOperation :
    (one false port (operands 0 0x50000004 0 0)).Inv ∧
    answers (exec (.readLevel 13) (one false port (operands 0 0x50000004 0 0)))
      (fun t => t.seqs.head?.map (·.fault) == some true) = true := by
  decide +kernel

theorem witness_FaultEntryEffect :
    Accepting 0x00020D2A false ∧
    answers (step (issued 0x00020D2A base [.seq 0])) (fun t => faults .badValue t) = true ∧
    Writing port (hold 0x50000700 0 8 2) [] ∧
    answers (step (writing (hold 0x50000700 0 8 2))) (faults .reservedFieldWrite) = true := by
  decide +kernel

theorem witness_ConsumingEmptyResultFaults :
    (issued 0 0 [.consume 0 .rdata]).sched = .consume 0 .rdata :: [] ∧
    (issued 0 0 [.consume 0 .rrec]).sched = .consume 0 .rrec :: [] ∧
    (issued 0 0 []).seqs[0]? = some (waiting (operands 0 0 0 0)) ∧ (waiting (operands 0 0 0 0)).rdata = none ∧
    (waiting (operands 0 0 0 0)).rrec = none ∧ (waiting (operands 0 0 0 0)).fault = false ∧
    (machine false [port] [stuck] [.consume 0 .rrec]).sched = .consume 0 .rrec :: [] ∧
    (machine false [port] [stuck] [.consume 0 .rrec]).seqs[0]? = some stuck ∧ stuck.rdata = none ∧
    stuck.rrec = none ∧ stuck.fault = true ∧
    ({ waiting (operands 0 0 0 0) with rdata := some 7 } : Seq).rdata ≠ none := by
  decide +kernel

theorem witness_EnvironmentSteps :
    base ∈ (issued 0 0 [.envIn base 5]).portBases ∧ (issued 0 0 [.envIn base 5]).sched = .envIn base 5 :: [] ∧
    (issued 0 0 [.envLatch base 5]).sched = .envLatch base 5 :: [] := by
  decide +kernel

/-- An address or a value for each clause of OtherFaultSetsGfault. -/
theorem witness_OtherFaultSetsGfault :
    (issued 0 0 []).cfg.otherMasters = true ∧
    (issued 0 0 []).checkRead 0x50000508 = .error { code := .writeOnlyRead, detail := .address 0x50000508 } ∧
    (issued 0 0 []).checkWriteAddr 0x50000510 = .error { code := .readOnlyWrite, detail := .address 0x50000510 } ∧
    (issued 0 0 []).checkWriteAddr 0x5000077C = .ok (base, .pinCnf 31) ∧
    checkWriteValue (.pinCnf 31) 0x5000077C 8
      = .error { code := .reservedFieldWrite, detail := .address 0x5000077C } ∧
    ({ issued 0 0 [.seq 0] with gfault := some (.unmapped, 0) } : State).gfault.isSome = true := by
  decide +kernel

theorem witness_OtherAccessIsOneAtomicAccess :
    (issued 0 0 []).cfg.offsets.WF ∧ (issued 0 0 []).rf.wf ∧ (issued 0 0 []).port? base = some port ∧
    (issued 0 0 []).cfg.otherMasters = true ∧ port.read false (.pinCnf 31) = some 2 ∧
    (issued 0 0 [.otherRead (base + offsetOf Config.exOffsets (.pinCnf 31))]).sched
      = [.otherRead (base + offsetOf Config.exOffsets (.pinCnf 31))] ∧
    (Reg.pinCnf 31).takes 6 = true ∧ Config.ex.otherMasters = false := by
  decide +kernel

theorem witness_RequesterWritesOnlyItsRegisters :
    (issued 0 0 [.operand 0 (.req 1)]).seqs[0]? = some (waiting (operands 0 0 0 0)) ∧
    ([.operand 0 (.req 1), .operand 0 (.a 1), .operand 0 (.d0 1), .operand 0 (.d1 1),
      .operand 0 (.record (bus 1 1 1 1 1)), .issue 0] : List Action).all
        (fun m => decide ((issued 0 0 [m]).sched = m :: [])) = true := by
  decide +kernel

theorem witness_ReadingStepsFrame :
    (Instr.getSense 31).isLoad = true ∧ (Instr.setSense 31 2).isRmw = true ∧
    (one false port (operands 0 base 0 0)).seqs[0]? = some (serving (operands 0 base 0 0)) ∧
    answers (exec (.getSense 31) (one false port (operands 0 base 0 0))) (fun t => rdata t == some 0) = true ∧
    answers (exec (.setSense 31 2) (one false port (operands 0 base 0 0))) (readThenWrite 2 0x00020002) = true := by
  decide +kernel

/-- SET_OUTPUT's store, and an address its register does not affect. -/
theorem witness_StoringStepsFrame :
    (one false port (operands 0 base 0 0)).Acting (serving (operands 0 base 0 0)) ∧
    (Instr.setOutput 31).storeAddr? Config.exOffsets base = some 0x50000508 ∧
    answers (exec (.setOutput 31) (one false port (operands 0 base 0 0)))
      (fun t => reg (·.out) t == some 0x80000000) = true ∧
    (one false port (operands 0 base 0 0)).regAt 0x50000508 = some (port, .outset) ∧
    (one false port (operands 0 base 0 0)).regAt 0x50000510 = some (port, .inp) ∧
    Reg.outset.affects false .inp = false := by
  decide +kernel

theorem witness_PortsAreIndependent :
    (machine false [port, port2] [serving (operands 0 base 0 0)] []).Acting (serving (operands 0 base 0 0)) ∧
    (Instr.setOutput 31).isMmio = false ∧ (0x50001000 : Word) ≠ base ∧
    answers (exec (.setOutput 31) (machine false [port, port2] [serving (operands 0 base 0 0)] []))
      (fun t => t.rf[1]? == some port2) = true := by
  decide +kernel

/-- SET_OUTPUT's accept step on pin 31, and the write step of an RMW32 on OUT. -/
theorem witness_RegisterChangesAreBusWrites :
    (issued 0x00001F0A base [.seq 0]).Next 0 (waiting (operands 0x00001F0A base 0 0)) [] ∧
    answers (step (issued 0x00001F0A base [.seq 0]))
      (fun t => decide (t.rf ≠ (issued 0x00001F0A base [.seq 0]).rf)) = true ∧
    (writing (hold 0x50000504 0 1 0)).Next 0 (pending (hold 0x50000504 0 1 0)) [] ∧
    answers (step (writing (hold 0x50000504 0 1 0)))
      (fun t => decide (t.rf ≠ (writing (hold 0x50000504 0 1 0)).rf)) = true := by
  decide +kernel

/-- Well-formed parameters, the last mapped address of the window, and two that are unmapped. -/
theorem witness_MappedAddresses :
    (issued 0 0 []).cfg.offsets.WF ∧ (issued 0 0 []).rf.wf ∧
    (issued 0 0 []).regAt 0x5000077C = some (port, .pinCnf 31) ∧
    (issued 0 0 []).regAt 0x50000780 = none ∧ (issued 0 0 []).regAt 0x50000600 = none := by
  decide +kernel

end Sys2Proof.Tests
end

section
/-! SUPPORT. The register file seen port by port: what `Memory.withPort` leaves at an index, and what the
direction state (10_state.md R41) and the write effect of a register (R43) leave in each field. -/

namespace Sys2Proof.Machine

theorem Memory.withPort_getElem? (m : Memory) (b : Word) (f : Port → Port) (i : Nat) :
    (m.withPort b f)[i]? = m[i]?.map fun p => if p.base = b then f p else p :=
  List.getElem?_map

/-- The port at an index after a change of one port: changed where its base is the one named, else the old one. -/
theorem Memory.eq_or_eq_of_withPort_getElem? {m : Memory} {b : Word} {f : Port → Port} {i : Nat} {p p' : Port}
    (hp : m[i]? = some p) (hp' : (m.withPort b f)[i]? = some p') : p' = p ∨ p.base = b ∧ p' = f p := by
  rw [Memory.withPort_getElem?, hp, Option.map_some, Option.some.injEq] at hp'
  subst hp'
  split
  · exact .inr ⟨‹_›, rfl⟩
  · exact .inl rfl

/-- A property that a change of one port keeps is kept by the whole register file. -/
theorem Memory.forall_mem_withPort {P : Port → Prop} {m : Memory} {b : Word} {f : Port → Port}
    (h : ∀ p ∈ m, P p) (hf : ∀ p, P p → P (f p)) : ∀ p ∈ m.withPort b f, P p := by
  intro p' hp'
  obtain ⟨p, hp, rfl⟩ := List.mem_map.mp hp'
  split
  · exact hf p (h p hp)
  · exact h p hp

@[simp] theorem Port.dirv_false (p : Port) : p.dirv false = p.dir :=
  if_neg Bool.false_ne_true

@[simp] theorem Port.dirv_true (p : Port) : p.dirv true = gatherDir p.cnf :=
  if_pos rfl

@[simp] theorem Port.setDirv_false (v : Word) (p : Port) : p.setDirv false v = { p with dir := v } :=
  if_neg Bool.false_ne_true

@[simp] theorem Port.setDirv_true (v : Word) (p : Port) :
    p.setDirv true v = { p with cnf := scatterDir p.cnf v } :=
  if_pos rfl

@[simp] theorem Port.setDirv_inp (a : Bool) (v : Word) (p : Port) : (p.setDirv a v).inp = p.inp := by
  cases a <;> simp

@[simp] theorem Port.setDirv_latch (a : Bool) (v : Word) (p : Port) : (p.setDirv a v).latch = p.latch := by
  cases a <;> simp

@[simp] theorem Port.write_pinCnf (a : Bool) (n : Fin 32) (v : Word) (p : Port) :
    p.write a (.pinCnf n) v = { p with cnf := p.cnf.set n v } := rfl

/-- No write changes IN (10_state.md R43, R46). -/
@[simp] theorem Port.write_inp (a : Bool) (r : Reg) (v : Word) (p : Port) : (p.write a r v).inp = p.inp := by
  cases r <;> simp [Port.write]

/-- A write to LATCH clears the bits written as 1 (10_state.md R43). -/
@[simp] theorem Port.write_latch (a : Bool) (v : Word) (p : Port) :
    p.write a .latch v = { p with latch := p.latch &&& ~~~v } := rfl

theorem Port.write_latch_of_ne (a : Bool) {r : Reg} (hr : r ≠ .latch) (v : Word) (p : Port) :
    (p.write a r v).latch = p.latch := by
  cases r with
  | latch => exact absurd rfl hr
  | _ => simp [Port.write]

/-- No write sets a latch bit (10_state.md R46). -/
theorem Port.write_latch_sets_none (a : Bool) (r : Reg) (v : Word) (p : Port) :
    (p.write a r v).latch &&& ~~~p.latch = 0 := by
  by_cases hr : r = .latch
  · subst hr
    rw [Port.write_latch, BitVec.and_comm p.latch, BitVec.and_assoc, BitVec.and_not_self]
    exact BitVec.and_zero
  · rw [Port.write_latch_of_ne a hr, BitVec.and_not_self]

/-- The address a write check passes is that of its register in a port at its base. -/
theorem checkWriteAddr_ok_addr {s : State} {addr b : Word} {r : Reg} (h : s.checkWriteAddr addr = .ok (b, r)) :
    addr = b + offsetOf s.cfg.offsets r := by
  unfold State.checkWriteAddr at h
  split at h
  · cases h
  · split at h
    · cases h
    · rename_i p r' hreg
      split at h <;> cases h
      exact (regAt_some hreg).2

end Sys2Proof.Machine
end

section
/-! SUPPORT. What one step can do to the register file, said once: nothing, one bus write, one environment step, or a
reset. It is `StepEffect` with every step that leaves the registers alone in one case. -/

namespace Sys2Proof.Machine

/-- From `s` to `t` the agent `ag` writes `v` to register `r` of the port at `b`, both checks of the write passed, and
the write's event is the first one appended to the history (40_mmio.md R154, 10_state.md R53). -/
structure BusWrite (s t : State) (ag : Agent) (b : Word) (r : Reg) (addr v : Word) : Prop where
  addr_ok : s.checkWriteAddr addr = .ok (b, r)
  value_ok : checkWriteValue r addr v = .ok ()
  rf_eq : t.rf = s.rf.withPort b (Port.write s.cfg.dirAlias r v)
  hist_eq : ∃ l, t.hist = s.hist ++ .bus ag .write addr v :: l

/-- What a step can do to the register file. -/
inductive RegisterChange (s : State) : State → Prop where
  | same {t : State} (h : t.rf = s.rf) : RegisterChange s t
  | write {t : State} (ag : Agent) (b : Word) (r : Reg) (addr v : Word) (h : BusWrite s t ag b r addr v) :
      RegisterChange s t
  | envIn {t : State} (b v : Word) (rest : List Action) (h : s.sched = .envIn b v :: rest)
      (hrf : t.rf = s.rf.withPort b fun p => { p with inp := v }) : RegisterChange s t
  | envLatch {t : State} (b m : Word) (rest : List Action) (h : s.sched = .envLatch b m :: rest)
      (hrf : t.rf = s.rf.withPort b fun p => { p with latch := p.latch ||| m }) : RegisterChange s t
  | reset (d : ResetDraw) (rest : List Action) (h : s.sched = .reset d :: rest) :
      RegisterChange s (State.resetFrom s.cfg d s.hist rest)

/-- An accepted request leaves the registers as they are or makes one bus write. -/
theorem Effect.rf_eq_or_busWrite {s t : State} {q : Seq} (h : Effect s q t) :
    t.rf = s.rf ∨ ∃ b r addr v, BusWrite s t (.seq s.actor) b r addr v := by
  cases h with
  | store op addr v b r hw hv =>
    exact .inr ⟨b, r, addr, v, hw, hv, rfl, [.done s.actor op .noValue], List.append_assoc ..⟩
  | fault | load | loadRecord | loadFault | rmwRead => exact .inl rfl

/-- What a step of the machine does to the register file. -/
theorem step_registerChange {s t : State} (e : step s = .next t) : RegisterChange s t := by
  cases step_effect e with
  | accept k q rest i _ hn hf hp hd he =>
    obtain hrf | ⟨b, r, addr, v, hw⟩ := he.rf_eq_or_busWrite
    · exact .same hrf
    · exact .write (.seq k) b r addr v ⟨hw.addr_ok, hw.value_ok, hw.rf_eq, hw.hist_eq⟩
  | write k q rest h b r hn hf hp hw hv => exact .write (.seq k) b r h.addr _ ⟨hw, hv, rfl, _, rfl⟩
  | otherWrite addr v b r rest h ho hw hv => exact .write .other b r addr v ⟨hw, hv, rfl, _, rfl⟩
  | envIn b v rest h => exact .envIn b v rest h rfl
  | envLatch b m rest h => exact .envLatch b m rest h rfl
  | reset d rest h => exact .reset d rest h
  | nobody | skip | undecodable | writeFault | operand | issue | consume | otherRead | otherFault =>
    exact .same rfl

/-- What a step but a Reset can do to one port of the register file, `p` before and `p'` after it. -/
inductive PortChange (s t : State) (p : Port) : Port → Prop where
  | same : PortChange s t p p
  | write (ag : Agent) (r : Reg) (addr v : Word) (h : BusWrite s t ag p.base r addr v) :
      PortChange s t p (p.write s.cfg.dirAlias r v)
  | envIn (v : Word) (rest : List Action) (h : s.sched = .envIn p.base v :: rest) :
      PortChange s t p { p with inp := v }
  | envLatch (m : Word) (rest : List Action) (h : s.sched = .envLatch p.base m :: rest) :
      PortChange s t p { p with latch := p.latch ||| m }

section
variable {s t : State} {a : Action} {rest : List Action} {p p' : Port}

/-- What a step but a Reset does to the port at an index. -/
theorem step_portChange {i : Nat} (hs : s.sched = a :: rest) (hr : ∀ d, a ≠ .reset d) (e : step s = .next t)
    (hp : s.rf[i]? = some p) (hp' : t.rf[i]? = some p') : PortChange s t p p' := by
  cases step_registerChange e with
  | same hrf =>
    rw [hrf, hp, Option.some.injEq] at hp'
    exact hp' ▸ .same
  | write ag b r addr v hw =>
    obtain rfl | ⟨rfl, rfl⟩ := Memory.eq_or_eq_of_withPort_getElem? hp (hw.rf_eq ▸ hp')
    · exact .same
    · exact .write ag r addr v hw
  | envIn b v rest' h hrf =>
    obtain rfl | ⟨rfl, rfl⟩ := Memory.eq_or_eq_of_withPort_getElem? hp (hrf ▸ hp')
    · exact .same
    · exact .envIn v rest' h
  | envLatch b m rest' h hrf =>
    obtain rfl | ⟨rfl, rfl⟩ := Memory.eq_or_eq_of_withPort_getElem? hp (hrf ▸ hp')
    · exact .same
    · exact .envLatch m rest' h
  | reset d rest' h => exact absurd (List.cons.inj (hs.symm.trans h)).1 (hr d)

/-- Only EnvIn writes IN (10_state.md R46). -/
theorem PortChange.inp_eq (hc : PortChange s t p p') (hs : s.sched = a :: rest) (ha : ∀ b v, a ≠ .envIn b v) :
    p'.inp = p.inp := by
  cases hc with
  | same => rfl
  | write ag r addr v h => exact Port.write_inp ..
  | envIn v rest' h => exact absurd (List.cons.inj (hs.symm.trans h)).1 (ha p.base v)
  | envLatch m rest' h => rfl

/-- Only EnvLatch sets latch bits (10_state.md R46). -/
theorem PortChange.latch_sets_none (hc : PortChange s t p p') (hs : s.sched = a :: rest)
    (ha : ∀ b m, a ≠ .envLatch b m) : p'.latch &&& ~~~p.latch = 0 := by
  cases hc with
  | same => exact BitVec.and_not_self _
  | write ag r addr v h => exact Port.write_latch_sets_none ..
  | envIn v rest' h => exact BitVec.and_not_self _
  | envLatch m rest' h => exact absurd (List.cons.inj (hs.symm.trans h)).1 (ha p.base m)

/-- Only a write at the port's LATCH address clears a latch bit (10_state.md R43, R46). -/
theorem PortChange.latch_cleared (hc : PortChange s t p p') (hclr : p.latch &&& ~~~p'.latch ≠ 0) :
    ∃ ag v l, t.hist = s.hist ++ .bus ag .write (p.base + s.cfg.offsets.latch) v :: l := by
  cases hc with
  | same => exact absurd (BitVec.and_not_self _) hclr
  | write ag r addr v h =>
    have hlatch : r = .latch := by
      by_contra hne
      exact hclr (by rw [Port.write_latch_of_ne _ hne]; exact BitVec.and_not_self _)
    subst hlatch
    obtain ⟨l, hl⟩ := h.hist_eq
    rw [checkWriteAddr_ok_addr h.addr_ok] at hl
    exact ⟨ag, v, l, hl⟩
  | envIn v rest' h => exact absurd (BitVec.and_not_self _) hclr
  | envLatch m rest' h =>
    exact absurd (by rw [BitVec.not_or, ← BitVec.and_assoc, BitVec.and_not_self]; exact BitVec.zero_and) hclr

end

/-- The step that is EnvIn (20_memory.md R84). -/
theorem step_envIn {s : State} {b v : Word} {rest : List Action} (h : s.sched = .envIn b v :: rest) :
    step s = .next (({ s with sched := rest } : State).envIn b v) := by
  simp [step, State.advance, h, State.perform]

/-- EnvIn at a port's base gives that port's IN the value and keeps the rest of the port. -/
theorem envIn_rf_getElem? {s : State} {v : Word} {i : Nat} {p : Port} (hp : s.rf[i]? = some p) :
    (s.envIn p.base v).rf[i]? = some { p with inp := v } := by
  have hb : p.base ∈ s.portBases := List.mem_map.mpr ⟨p, List.mem_of_getElem? hp, rfl⟩
  simp [State.envIn, hb, hp]

end Sys2Proof.Machine
end

section
/-! SUPPORT. Legal configuration words (10_state.md R49) and bit 0 of one, which is the direction bit under P_DIR_ALIAS
(R41): replacing bit 0 changes no other bit, so every write the checks pass keeps the words legal. -/

namespace Sys2Proof.Machine

theorem flagWord_getLsbD_eq (v : Word) (n : Nat) : flagWord (v.getLsbD n) = (v >>> n) &&& 1#32 := by
  rw [BitVec.and_one_eq_setWidth_ofBool_getLsbD, BitVec.getLsbD_ushiftRight, Nat.add_zero]
  cases v.getLsbD n <;> rfl

theorem withBit0_getLsbD_succ (w : Word) (b : Bool) (k : Nat) :
    (withBit0 w b).getLsbD (k + 1) = w.getLsbD (k + 1) := by
  by_cases hk : k + 1 < 32
  · have hmask : (~~~1#32).getLsbD (k + 1) = true := by
      rw [BitVec.getLsbD_not, BitVec.getLsbD_one]; simp [hk]
    have hflag : (flagWord b).getLsbD (k + 1) = false := by
      cases b <;> simp [flagWord]
    rw [withBit0, BitVec.getLsbD_or, BitVec.getLsbD_and, hmask, hflag, Bool.and_true, Bool.or_false]
  · rw [BitVec.getLsbD_of_ge _ _ (by omega), BitVec.getLsbD_of_ge _ _ (by omega)]

/-- Replacing bit 0 shows in no field above it. -/
theorem extractLsb'_withBit0 (w : Word) (b : Bool) (start len : Nat) :
    (withBit0 w b).extractLsb' (start + 1) len = w.extractLsb' (start + 1) len := by
  apply BitVec.eq_of_getLsbD_eq
  intro k _
  rw [BitVec.getLsbD_extractLsb', BitVec.getLsbD_extractLsb', Nat.add_right_comm, withBit0_getLsbD_succ]

/-- Replacing bit 0 shows under no mask without it. -/
theorem withBit0_and {mask : Word} (hm : mask.getLsbD 0 = false) (w : Word) (b : Bool) :
    withBit0 w b &&& mask = w &&& mask := by
  apply BitVec.eq_of_getLsbD_eq
  intro k _
  cases k with
  | zero => rw [BitVec.getLsbD_and, BitVec.getLsbD_and, hm, Bool.and_false, Bool.and_false]
  | succ k => rw [BitVec.getLsbD_and, BitVec.getLsbD_and, withBit0_getLsbD_succ]

/-- Bit 0 has no part in the legality of a configuration word. -/
@[simp] theorem legalCnf_withBit0 (w : Word) (b : Bool) : legalCnf (withBit0 w b) = legalCnf w := by
  rw [Bool.eq_iff_iff, legalCnf_iff, legalCnf_iff, withBit0_and (by decide), extractLsb'_withBit0 w b 1 2,
    extractLsb'_withBit0 w b 15 2]

/-- The configuration words of a port are legal: (I1) to (I3) of 10_state.md R49. -/
def CnfLegal (cnf : Vector Word 32) : Prop :=
  ∀ n : Fin 32, legalCnf cnf[n] = true

/-- (I1) to (I3) by the bits of each word. -/
theorem cnfLegal_iff (cnf : Vector Word 32) :
    CnfLegal cnf ↔
      ∀ n : Fin 32, cnf[n] &&& 0xFFFCF8F0 = 0 ∧ cnf[n].extractLsb' 2 2 ≠ 2 ∧ cnf[n].extractLsb' 16 2 ≠ 1 :=
  forall_congr' fun n => legalCnf_iff cnf[n]

theorem CnfLegal.scatterDir {cnf : Vector Word 32} (h : CnfLegal cnf) (v : Word) : CnfLegal (scatterDir cnf v) := by
  intro n
  rw [scatterDir_getElem, legalCnf_withBit0]
  exact h n

theorem CnfLegal.set {cnf : Vector Word 32} (h : CnfLegal cnf) {v : Word} (hv : legalCnf v = true) (n : Fin 32) :
    CnfLegal (cnf.set n v) := by
  intro m
  by_cases e : n.val = m.val
  · simpa [Vector.getElem_set, e] using hv
  · simpa [Vector.getElem_set, e] using h m

theorem CnfLegal.setDirv {p : Port} (h : CnfLegal p.cnf) (a : Bool) (v : Word) : CnfLegal (p.setDirv a v).cnf := by
  cases a with
  | false => exact h
  | true => exact h.scatterDir v

/-- A write of a value the register takes keeps the configuration words legal (10_state.md R48, R49). -/
theorem CnfLegal.write {p : Port} (h : CnfLegal p.cnf) (a : Bool) {r : Reg} {v : Word} (hv : r.takes v = true) :
    CnfLegal (p.write a r v).cnf := by
  cases r with
  | pinCnf n => exact h.set hv n
  | dir | dirset | dirclr => exact h.setDirv a _
  | out | outset | outclr | inp | latch | detectmode => exact h

/-- After a reset under well-formed parameters every configuration word is legal (10_state.md R49, R59). -/
theorem cnfLegal_resetFrom {c : Params} (hc : c.WF) (d : ResetDraw) (h : List Event) (l : List Action) :
    ∀ p ∈ (State.resetFrom c d h l).rf, CnfLegal p.cnf := by
  intro p hp
  obtain ⟨i, hi, rfl⟩ := List.mem_mapIdx.mp hp
  obtain ⟨-, -, hreset, -⟩ := hc
  exact hreset c.ports[i] (List.getElem_mem hi)

/-- Every step keeps the configuration words legal. -/
theorem step_cnfLegal {s t : State} (hc : s.cfg.WF) (h : ∀ p ∈ s.rf, CnfLegal p.cnf) (e : step s = .next t) :
    ∀ p ∈ t.rf, CnfLegal p.cnf := by
  cases step_registerChange e with
  | same hrf => rwa [hrf]
  | write ag b r addr v hw =>
    have hv := checkWriteValue_eq_ok_iff.mp hw.value_ok
    rw [hw.rf_eq]
    exact Memory.forall_mem_withPort h fun p hp => hp.write _ hv
  | envIn b v rest hs hrf =>
    rw [hrf]
    exact Memory.forall_mem_withPort h fun _ hp => hp
  | envLatch b m rest hs hrf =>
    rw [hrf]
    exact Memory.forall_mem_withPort h fun _ hp => hp
  | reset d rest => exact cnfLegal_resetFrom hc d s.hist rest

end Sys2Proof.Machine
end

section
/-! The statements of 10_state.md on the register file: O19, O24 and O25. -/

namespace Sys2Proof.Machine

/-- Settles O19: the base case is the constraint on RESET.CNF (10_state.md R59), the step is `step_cnfLegal`. -/
theorem configWordsStayLegal : Obligations.ConfigWordsStayLegal := by
  unfold Obligations.ConfigWordsStayLegal
  simp only [← cnfLegal_iff]
  exact ⟨fun c d h l hc => cnfLegal_resetFrom hc d h l, fun s t hc h e => step_cnfLegal hc h e⟩

/-- Settles O24: EnvIn is the one step that writes IN and EnvLatch the one that sets latch bits, so a latch bit that
falls was cleared by a bus write at the port's own LATCH address. -/
theorem inputsChangeOnlyByEnvironment : Obligations.InputsChangeOnlyByEnvironment := by
  unfold Obligations.InputsChangeOnlyByEnvironment
  intro s t a rest i p p' hs e hp hp' hr
  have hc := step_portChange hs hr e hp hp'
  refine ⟨hc.inp_eq hs, fun v ha => ?_, hc.latch_sets_none hs, hc.latch_cleared⟩
  subst ha
  cases (step_envIn hs).symm.trans e
  rw [envIn_rf_getElem? (s := { s with sched := rest }) hp, Option.some.injEq] at hp'
  exact hp'.symm

/-- Settles O25: under P_DIR_ALIAS the direction state is gathered from and scattered to bit 0 of the configuration
words; without it, it is the register DIR, which no write of a configuration word touches. -/
theorem directionStateAliasing : Obligations.DirectionStateAliasing := by
  unfold Obligations.DirectionStateAliasing
  intro p v n
  rw [Port.dirv_false, Port.dirv_true, Port.dirv_true, Port.dirv_true, Port.dirv_false, Port.setDirv_false,
    Port.setDirv_true, Port.write_pinCnf, Port.write_pinCnf]
  refine ⟨⟨rfl, rfl, rfl⟩, gatherDir_getLsbD p.cnf n, ?_, rfl, gatherDir_scatterDir p.cnf v, ?_⟩
  · rw [scatterDir_getElem, withBit0, flagWord_getLsbD_eq]
  · rw [gatherDir_getLsbD]
    simp

end Sys2Proof.Machine
end

section
/-! SUPPORT. The address map both ways (20_memory.md R71): which register an address is mapped to, and when it is mapped
to none. -/

namespace Sys2Proof.Machine

/-- The configuration word of a pin stands at `0x700 + 4*n` (20_memory.md R74). -/
theorem offsetOf_pinCnf (o : Offsets) (n : Fin 32) :
    offsetOf o (.pinCnf n) = BitVec.ofNat 32 (0x700 + 4 * n.val) := by
  rw [BitVec.ofNat_add, BitVec.ofNat_mul]
  rfl

/-- The offsets of the registers are the nine of `OFFSETS` and those of the configuration words. -/
theorem forall_offsetOf_iff {P : Word → Prop} (o : Offsets) :
    (∀ r, P (offsetOf o r)) ↔ (∀ x ∈ o.toList, P x) ∧ ∀ n : Nat, n ≤ 31 → P (BitVec.ofNat 32 (0x700 + 4 * n)) := by
  constructor
  · intro h
    refine ⟨?_, fun n hn => ?_⟩
    · simp only [Offsets.toList, List.forall_mem_cons]
      exact ⟨h .out, h .outset, h .outclr, h .inp, h .dir, h .dirset, h .dirclr, h .latch, h .detectmode,
        List.forall_mem_nil P⟩
    · rw [← offsetOf_pinCnf o ⟨n, Nat.lt_succ_of_le hn⟩]
      exact h _
  · rintro ⟨hport, hcnf⟩ r
    cases r with
    | pinCnf n =>
      rw [offsetOf_pinCnf]
      exact hcnf n (Nat.le_of_lt_succ n.isLt)
    | _ => exact hport _ (by simp [Offsets.toList, offsetOf])

section
variable {s : State} (ho : s.cfg.offsets.WF) (h : s.rf.wf)
include ho h

theorem regAt_eq_some_iff {a : Word} {p : Port} {r : Reg} :
    s.regAt a = some (p, r) ↔ p ∈ s.rf ∧ a = p.base + offsetOf s.cfg.offsets r := by
  constructor
  · exact regAt_some
  · rintro ⟨hp, rfl⟩
    exact regAt_port ho h (port?_eq_some_of_mem h hp) r

/-- An address is unmapped where it is no register's address in any port. -/
theorem regAt_eq_none_iff {a : Word} :
    s.regAt a = none ↔ ∀ b ∈ s.portBases, ∀ r, a ≠ b + offsetOf s.cfg.offsets r := by
  constructor
  · rintro hnone b hb r rfl
    obtain ⟨p, hp⟩ := port?_of_mem_portBases hb
    rw [regAt_port ho h hp r] at hnone
    cases hnone
  · intro hne
    by_contra hsome
    obtain ⟨⟨p, r⟩, hreg⟩ := Option.ne_none_iff_exists'.mp hsome
    obtain ⟨hp, ha⟩ := regAt_some hreg
    exact hne p.base (List.mem_map_of_mem hp) r ha

end

end Sys2Proof.Machine
end

section
/-! SUPPORT. The environment's steps as updates of the state (20_memory.md R84, R85). -/

namespace Sys2Proof.Machine

theorem envIn_of_mem {s : State} {b : Word} (hb : b ∈ s.portBases) (v : Word) :
    s.envIn b v = { s with rf := s.rf.withPort b fun p => { p with inp := v }, hist := s.hist ++ [.envIn b v] } :=
  if_pos hb

theorem envLatch_of_mem {s : State} {b : Word} (hb : b ∈ s.portBases) (m : Word) :
    s.envLatch b m = { s with rf := s.rf.withPort b fun p => { p with latch := p.latch ||| m },
                              hist := s.hist ++ [.envLatch b m] } :=
  if_pos hb

/-- The step that is EnvLatch (20_memory.md R85). -/
theorem step_envLatch {s : State} {b m : Word} {rest : List Action} (h : s.sched = .envLatch b m :: rest) :
    step s = .next (({ s with sched := rest } : State).envLatch b m) := by
  simp [step, State.advance, h, State.perform]

end Sys2Proof.Machine
end

section
/-! The statements of 20_memory.md: O60 and O52. -/

namespace Sys2Proof.Machine

/-- Settles O60: an unmapped address is no base plus the offset of a register, and the registers' offsets are the nine
of `OFFSETS` and those of the 32 configuration words. -/
theorem mappedAddresses : Obligations.MappedAddresses := by
  unfold Obligations.MappedAddresses
  intro s a ho h
  refine ⟨fun p r => regAt_eq_some_iff ho h, (regAt_eq_none_iff ho h).trans ?_⟩
  exact forall₂_congr fun b _ => forall_offsetOf_iff (P := fun x => a ≠ b + x) s.cfg.offsets

/-- Settles O52: at a port's base each step of the environment is its update of that port and its event. -/
theorem environmentSteps : Obligations.EnvironmentSteps := by
  unfold Obligations.EnvironmentSteps
  intro s b v rest hb
  refine ⟨fun hs => ?_, fun hs => ?_⟩
  · rw [step_envIn hs, envIn_of_mem (s := { s with sched := rest }) hb]
  · rw [step_envLatch hs, envLatch_of_mem (s := { s with sched := rest }) hb]

end Sys2Proof.Machine
end

section
/-! SUPPORT. The configuration word field by field (30_encoding.md R104 to R107, R109): PACK puts each code into its
field and UNPACK answers the record whose codes the fields hold. -/

namespace Sys2Proof.Machine

/-! ### The fields of a word -/

theorem fieldOf_eq_and_mask (f : Field) (w : Word) : fieldOf f w = (w &&& f.mask) >>> f.shift := by
  have hmask : f.mask >>> f.shift = f.widthMask := by cases f <;> decide
  rw [fieldOf, BitVec.ushiftRight_and_distrib, hmask]

/-- A field depends on the bits under its mask alone. -/
theorem fieldOf_congr {f : Field} {v w : Word} (h : v &&& f.mask = w &&& f.mask) : fieldOf f v = fieldOf f w := by
  rw [fieldOf_eq_and_mask, fieldOf_eq_and_mask, h]

/-- A field put back in its place is the word under the field's mask. -/
theorem fieldOf_shiftLeft (f : Field) (w : Word) : fieldOf f w <<< f.shift = w &&& f.mask := by
  have hmask : f.mask = f.widthMask <<< f.shift := by cases f <;> decide
  apply BitVec.eq_of_getLsbD_eq
  intro k hk
  rw [hmask, BitVec.getLsbD_shiftLeft, fieldOf_getLsbD, BitVec.getLsbD_and, BitVec.getLsbD_shiftLeft]
  by_cases hs : k < f.shift
  · simp [hs]
  · simp [hs, hk, Nat.add_sub_cancel' (Nat.le_of_not_lt hs)]

theorem fieldOf_or (f : Field) (v w : Word) : fieldOf f (v ||| w) = fieldOf f v ||| fieldOf f w := by
  simp only [fieldOf, BitVec.ushiftRight_or_distrib, BitVec.and_or_distrib_right]

/-- The reserved bits have no part in any field (30_encoding.md R105). -/
@[simp] theorem fieldOf_and_not_rsvMask (f : Field) (w : Word) : fieldOf f (w &&& ~~~rsvMask) = fieldOf f w := by
  have hmask : ~~~rsvMask &&& f.mask = f.mask := by cases f <;> decide
  exact fieldOf_congr (by rw [BitVec.and_assoc, hmask])

/-- The five fields make up the word but for its reserved bits. -/
theorem and_fieldsMask (w : Word) :
    w &&& fieldsMask = fieldOf .dir w <<< Field.dir.shift ||| fieldOf .input w <<< Field.input.shift
      ||| fieldOf .pull w <<< Field.pull.shift ||| fieldOf .drive w <<< Field.drive.shift
      ||| fieldOf .sense w <<< Field.sense.shift := by
  have hmask : fieldsMask =
      Field.dir.mask ||| Field.input.mask ||| Field.pull.mask ||| Field.drive.mask ||| Field.sense.mask := by decide
  simp only [fieldOf_shiftLeft, hmask, BitVec.and_or_distrib_left]

/-! ### The masked combine -/

theorem combine_getLsbD (old clr set : Word) (n : Nat) :
    (combine old clr set).getLsbD n = (set.getLsbD n || (old.getLsbD n && !clr.getLsbD n)) := by
  by_cases hn : n < 32
  · simp [combine, hn, Bool.or_comm]
  · simp [combine, BitVec.getLsbD_of_ge _ n (Nat.le_of_not_lt hn)]

/-- A combine limited to a mask takes a field inside the mask from the new word. -/
theorem fieldOf_combine_inside {f : Field} {m : Word} (h : f.mask &&& m = f.mask) (old new : Word) :
    fieldOf f (combine old m (new &&& m)) = fieldOf f new := by
  apply fieldOf_congr
  apply BitVec.eq_of_getLsbD_eq
  intro k _
  rw [← h]
  simp only [BitVec.getLsbD_and, combine_getLsbD]
  cases m.getLsbD k <;> simp

/-- A combine limited to a mask leaves a field outside the mask as it was. -/
theorem fieldOf_combine_outside {f : Field} {m : Word} (h : f.mask &&& m = 0) (old new : Word) :
    fieldOf f (combine old m (new &&& m)) = fieldOf f old := by
  apply fieldOf_congr
  apply BitVec.eq_of_getLsbD_eq
  intro k _
  have hk : (f.mask &&& m).getLsbD k = false := h ▸ BitVec.getLsbD_zero
  rw [BitVec.getLsbD_and] at hk
  simp only [BitVec.getLsbD_and, combine_getLsbD]
  cases hm : m.getLsbD k <;> simp_all

/-! ### Codes and the settings they name -/

@[simp] theorem Dir.ofCode_code (d : Dir) : Dir.ofCode d.code = d := by cases d <;> decide
@[simp] theorem IBuf.ofCode_code (i : IBuf) : IBuf.ofCode i.code = i := by cases i <;> decide
@[simp] theorem Pull.ofCode?_code (p : Pull) : Pull.ofCode? p.code = some p := by cases p <;> decide
@[simp] theorem Sense.ofCode?_code (s : Sense) : Sense.ofCode? s.code = some s := by cases s <;> decide

theorem Dir.code_ofCode_fieldOf (w : Word) : (Dir.ofCode (fieldOf .dir w)).code = fieldOf .dir w := by
  rw [fieldOf_dir]
  generalize w.extractLsb' 0 1 = x
  decide +revert

theorem IBuf.code_ofCode_fieldOf (w : Word) : (IBuf.ofCode (fieldOf .input w)).code = fieldOf .input w := by
  rw [fieldOf_input]
  generalize w.extractLsb' 1 1 = x
  decide +revert

theorem Pull.code_of_ofCode?_eq_some {c : Word} {p : Pull} (h : Pull.ofCode? c = some p) : p.code = c := by
  unfold Pull.ofCode? at h
  split_ifs at h <;> cases h <;> exact Eq.symm ‹_›

theorem Sense.code_of_ofCode?_eq_some {c : Word} {s : Sense} (h : Sense.ofCode? c = some s) : s.code = c := by
  unfold Sense.ofCode? at h
  split_ifs at h <;> cases h <;> exact Eq.symm ‹_›

/-! ### PACK and UNPACK -/

/-- A code in its place is what its field shows: it fits the field's width. -/
@[simp] theorem fieldOf_code_shiftLeft (f : Field) (r : Record) : fieldOf f (r.code f <<< f.shift) = r.code f := by
  cases f <;> simp only [Record.code]
  case dir => cases r.dir <;> decide
  case input => cases r.input <;> decide
  case pull => cases r.pull <;> decide
  case drive => generalize r.drive = d; decide +revert
  case sense => cases r.sense <;> decide

/-- A code in its place shows in no other field: the masks are disjoint. -/
theorem fieldOf_code_shiftLeft_of_ne {f g : Field} (h : g ≠ f) (r : Record) :
    fieldOf f (r.code g <<< g.shift) = 0 := by
  have hmask : g.mask &&& f.mask = 0 := by revert h; cases g <;> cases f <;> decide
  rw [← fieldOf_code_shiftLeft g, fieldOf_shiftLeft, fieldOf_eq_and_mask, BitVec.and_assoc, hmask]
  simp

/-- PACK is the OR of the codes, each in its place (30_encoding.md R104). -/
theorem pack_eq_or (r : Record) :
    pack r = r.code .dir <<< Field.dir.shift ||| r.code .input <<< Field.input.shift
      ||| r.code .pull <<< Field.pull.shift ||| r.code .drive <<< Field.drive.shift
      ||| r.code .sense <<< Field.sense.shift := by
  rw [Field.shift, BitVec.shiftLeft_zero]
  rfl

/-- Law (d) of R107. -/
@[simp] theorem fieldOf_pack (f : Field) (r : Record) : fieldOf f (pack r) = r.code f := by
  rw [pack_eq_or]
  cases f <;> simp [fieldOf_or, fieldOf_code_shiftLeft_of_ne]

/-- UNPACK depends on the five fields alone. -/
theorem unpack_congr {v w : Word} (h : ∀ f, fieldOf f v = fieldOf f w) : unpack v = unpack w := by
  simp only [unpack, h]

/-- UNPACK answers the record whose codes the fields hold. -/
theorem unpack_eq_ok_iff {w : Word} {r : Record} : unpack w = .ok r ↔ ∀ f, fieldOf f w = r.code f := by
  constructor
  · intro h
    unfold unpack at h
    split at h
    · cases h
    · rename_i p hp
      split at h
      · cases h
      · rename_i s hs
        cases h
        intro f
        cases f with
        | dir => exact (Dir.code_ofCode_fieldOf w).symm
        | input => exact (IBuf.code_ofCode_fieldOf w).symm
        | pull => exact (Pull.code_of_ofCode?_eq_some hp).symm
        | drive => rw [fieldOf_drive]; simp [Record.code]
        | sense => exact (Sense.code_of_ofCode?_eq_some hs).symm
  · intro h
    simp [unpack, h, Record.code]

/-- Law (a) of R107. -/
@[simp] theorem unpack_pack (r : Record) : unpack (pack r) = .ok r :=
  unpack_eq_ok_iff.mpr fun f => fieldOf_pack f r

/-- Law (b) of R107. -/
theorem pack_of_unpack_eq_ok {w : Word} {r : Record} (h : unpack w = .ok r) : pack r = w &&& fieldsMask := by
  simp only [pack_eq_or, and_fieldsMask, unpack_eq_ok_iff.mp h]

/-- Law (c) of R107. -/
theorem pack_injective : Function.Injective pack := by
  intro r r' h
  rw [← Except.ok.injEq (ε := Field), ← unpack_pack r, h, unpack_pack]

theorem unpack_eq_error_pull {w : Word} (hp : w.extractLsb' 2 2 = 2) : unpack w = .error .pull := by
  rw [unpack, fieldOf_pull, (pull_ofCode?_eq_none _).mpr hp]

theorem unpack_eq_error_sense {w : Word} (hp : w.extractLsb' 2 2 ≠ 2) (hs : w.extractLsb' 16 2 = 1) :
    unpack w = .error .sense := by
  obtain ⟨p, hp⟩ := Option.ne_none_iff_exists'.mp (mt (pull_ofCode?_eq_none _).mp hp)
  rw [unpack, fieldOf_pull, hp, fieldOf_sense, (sense_ofCode?_eq_none _).mpr hs]

theorem exists_unpack_eq_ok {w : Word} (hp : w.extractLsb' 2 2 ≠ 2) (hs : w.extractLsb' 16 2 ≠ 1) :
    ∃ r, unpack w = .ok r := by
  obtain ⟨p, hp⟩ := Option.ne_none_iff_exists'.mp (mt (pull_ofCode?_eq_none _).mp hp)
  obtain ⟨s, hs⟩ := Option.ne_none_iff_exists'.mp (mt (sense_ofCode?_eq_none _).mp hs)
  rw [unpack, fieldOf_pull, hp, fieldOf_sense, hs]
  exact ⟨_, rfl⟩

/-- The five codes of the record UNPACK answers are the bit fields of the word (30_encoding.md R105). -/
theorem codes_of_unpack_eq_ok {w : Word} {r : Record} (h : unpack w = .ok r) :
    r.dir.code = (w.extractLsb' 0 1).setWidth 32 ∧ r.input.code = (w.extractLsb' 1 1).setWidth 32 ∧
      r.pull.code = (w.extractLsb' 2 2).setWidth 32 ∧ r.drive = w.extractLsb' 8 3 ∧
      r.sense.code = (w.extractLsb' 16 2).setWidth 32 := by
  have hcode := unpack_eq_ok_iff.mp h
  have hdrive := congrArg (BitVec.setWidth 3) (hcode .drive)
  refine ⟨?_, ?_, ?_, ?_, ?_⟩
  · rw [← fieldOf_dir]; exact (hcode .dir).symm
  · rw [← fieldOf_input]; exact (hcode .input).symm
  · rw [← fieldOf_pull]; exact (hcode .pull).symm
  · simpa [fieldOf_drive, Record.code] using hdrive.symm
  · rw [← fieldOf_sense]; exact (hcode .sense).symm

/-- What PACK makes is a word a configuration register can hold (30_encoding.md R104, 10_state.md R49). -/
@[simp] theorem legalCnf_pack (r : Record) : legalCnf (pack r) = true := by
  rw [legalCnf_iff]
  refine ⟨?_, fun hp => ?_, fun hs => ?_⟩
  · have hrsv : fieldsMask &&& 0xFFFCF8F0 = 0 := by decide
    rw [pack_of_unpack_eq_ok (unpack_pack r), BitVec.and_assoc, hrsv]
    exact BitVec.and_zero
  · cases (unpack_eq_error_pull hp).symm.trans (unpack_pack r)
  · by_cases hp : (pack r).extractLsb' 2 2 = 2
    · cases (unpack_eq_error_pull hp).symm.trans (unpack_pack r)
    · cases (unpack_eq_error_sense hp hs).symm.trans (unpack_pack r)

end Sys2Proof.Machine
end

section
/-! The statements of 30_encoding.md on the configuration word: O6, O7, O8 and O9. -/

namespace Sys2Proof.Machine

/-- Settles O6: UNPACK answers the record whose codes the fields hold, and PACK holds each code in its field; a combine
limited to a mask changes the bits under it alone. -/
theorem packUnpackLaws : Obligations.PackUnpackLaws := by
  unfold Obligations.PackUnpackLaws
  exact ⟨unpack_pack, fun _ _ => pack_of_unpack_eq_ok, fun _ _ h => pack_injective h, fun r f => fieldOf_pack f r,
    fun _ r₁ r₂ _ => ⟨fun h => fieldOf_combine_inside h (pack r₁) (pack r₂),
      fun h => fieldOf_combine_outside h (pack r₁) (pack r₂)⟩⟩

/-- Settles O7: a reserved PULL code is met before a reserved SENSE code; the reserved bits are in no field. -/
theorem unpackVerdicts : Obligations.UnpackVerdicts := by
  unfold Obligations.UnpackVerdicts
  refine fun w => ⟨unpack_eq_error_pull, unpack_eq_error_sense, fun hp hs => ?_,
    unpack_congr fun f => fieldOf_and_not_rsvMask f w⟩
  obtain ⟨r, hr⟩ := exists_unpack_eq_ok hp hs
  exact ⟨r, hr, codes_of_unpack_eq_ok hr⟩

/-- Settles O8: the first clause is the definition of PACK, the others say that a packed word is legal. -/
theorem packIsLegal : Obligations.PackIsLegal := by
  unfold Obligations.PackIsLegal
  exact fun r => ⟨rfl, (legalCnf_iff (pack r)).mp (legalCnf_pack r)⟩

/-- Settles O9 by the bits of COMBINE. -/
theorem combineSetsAfterClearing : Obligations.CombineSetsAfterClearing := by
  unfold Obligations.CombineSetsAfterClearing
  intro old clr set n
  exact ⟨combine_getLsbD old clr set n, fun h => by rw [combine_getLsbD, h, Bool.true_or]⟩

end Sys2Proof.Machine
end

section
/-! SUPPORT. The request decoder's verdicts (30_encoding.md R113, R115, R117, R118): the opcode map both ways, the
operands of the instruction a row makes, the fixed bits of a row, and DECODE by the operation the OP field names. -/

namespace Sys2Proof

open Sys2Proof.Machine

/-! ### The opcode map -/

@[simp] theorem opOfCode_opcode (op : Op) : opOfCode (opcode op) = some op := by
  cases op <;> decide

theorem opOfCode_eq_some_iff {c : BitVec 6} {op : Op} : opOfCode c = some op ↔ opcode op = c := by
  constructor
  · intro h
    exact beq_iff_eq.mp (List.find?_some (p := fun op => opcode op == c) h)
  · rintro rfl
    exact opOfCode_opcode op

/-- The OP values that name no operation (30_encoding.md R117). -/
theorem opOfCode_eq_none_iff (c : BitVec 6) :
    opOfCode c = none ↔ c.toNat ∈ [0x00] ++ List.range' 0x04 4 ++ List.range' 0x14 4 ++ List.range' 0x1C 4
      ++ List.range' 0x25 3 ++ List.range' 0x2D 19 := by
  decide +revert

/-! ### The instruction of a row -/

@[simp] theorem Instr.op_make (op : Op) (pin : Nat) (val : Val) : (Instr.make op pin val).op = op := by
  cases op <;> rfl

/-- An instruction is the one its row makes of a pin and a value exactly when these are the operands it carries. -/
theorem Instr.make_eq_iff (i : Instr) (pin : Nat) (val : Val) :
    Instr.make i.op pin val = i ↔
      i.pin? = (if usesPin i.op then some pin else none) ∧ i.val? = (if usesVal i.op then some val else none) := by
  cases i <;> simp [Instr.make, Instr.op, Instr.pin?, Instr.val?, usesPin, usesVal, eq_comm]

/-! ### The fixed bits of a row -/

/-- The bits a row fixes: OP, the reserved bits, and PIN and VAL where the row has none (30_encoding.md R112, R115). -/
theorem requestMask_getLsbD (op : Op) {k : Nat} (hk : k < 32) :
    (requestMask op).getLsbD k = true ↔
      k < 6 ∨ (6 ≤ k ∧ k < 8) ∨ (13 ≤ k ∧ k < 16) ∨ 19 ≤ k ∨
        (usesPin op = false ∧ 8 ≤ k ∧ k < 13) ∨ (usesVal op = false ∧ 16 ≤ k ∧ k < 19) := by
  unfold requestMask
  cases usesPin op <;> cases usesVal op <;> decide +revert

theorem requestMatch_getLsbD {w : Word} {op : Op} (h : opcode op = fieldOp w) (k : Nat) :
    (requestMatch op).getLsbD k = (decide (k < 6) && w.getLsbD k) := by
  rw [requestMatch, h, BitVec.getLsbD_setWidth, fieldOp, BitVec.getLsbD_extractLsb', Nat.zero_add]
  by_cases hk : k < 32
  · simp [hk]
  · simp [hk, BitVec.getLsbD_of_ge w k (Nat.le_of_not_lt hk)]

/-- A word meets the mask of the row its OP field names where every fixed bit above that field is 0. -/
theorem and_requestMask_eq_iff_getLsbD {w : Word} {op : Op} (h : opcode op = fieldOp w) :
    w &&& requestMask op = requestMatch op ↔
      ∀ k < 32, 6 ≤ k → (requestMask op).getLsbD k = true → w.getLsbD k = false := by
  constructor
  · intro hw k _ hk hm
    have hbit : (w &&& requestMask op).getLsbD k = (requestMatch op).getLsbD k := by rw [hw]
    simpa [requestMatch_getLsbD h, hm, Nat.not_lt_of_le hk] using hbit
  · intro hw
    apply BitVec.eq_of_getLsbD_eq
    intro k hk
    rw [BitVec.getLsbD_and, requestMatch_getLsbD h]
    by_cases h6 : k < 6
    · simp [h6, (requestMask_getLsbD op hk).mpr (.inl h6)]
    · cases hm : (requestMask op).getLsbD k
      · simp [h6]
      · simp [h6, hw k hk (Nat.le_of_not_lt h6) hm]

theorem extractLsb'_eq_zero_iff {w : Word} {start len : Nat} :
    w.extractLsb' start len = 0 ↔ ∀ k, start ≤ k → k < start + len → w.getLsbD k = false := by
  constructor
  · intro h k hs hk
    have hbit : (w.extractLsb' start len).getLsbD (k - start) = false := h ▸ BitVec.getLsbD_zero
    rw [BitVec.getLsbD_extractLsb', Nat.add_sub_cancel' hs] at hbit
    simpa [Nat.sub_lt_left_of_lt_add hs hk] using hbit
  · intro h
    apply BitVec.eq_of_getLsbD_eq
    intro k hk
    rw [BitVec.getLsbD_extractLsb', h _ (Nat.le_add_right start k) (Nat.add_lt_add_left hk start), Bool.and_false]
    exact BitVec.getLsbD_zero.symm

/-- A word meets the mask of the row its OP field names where its reserved fields are 0, and PIN and VAL too where the
row has none (30_encoding.md R115). -/
theorem and_requestMask_eq_iff {w : Word} {op : Op} (h : opcode op = fieldOp w) :
    w &&& requestMask op = requestMatch op ↔
      w.extractLsb' 6 2 = 0 ∧ w.extractLsb' 13 3 = 0 ∧ w.extractLsb' 19 13 = 0 ∧
        (usesPin op = false → fieldPin w = 0) ∧ (usesVal op = false → fieldVal w = 0) := by
  rw [and_requestMask_eq_iff_getLsbD h, fieldPin, fieldVal]
  simp only [extractLsb'_eq_zero_iff]
  constructor
  · intro hw
    have hfixed (k : Nat) (hk : k < 32) (h6 : 6 ≤ k) := fun hm => hw k hk h6 ((requestMask_getLsbD op hk).mpr hm)
    refine ⟨fun k hl hu => ?_, fun k hl hu => ?_, fun k hl hu => ?_, fun hp k hl hu => ?_, fun hv k hl hu => ?_⟩
    · exact hfixed k (by omega) hl (.inr (.inl ⟨hl, hu⟩))
    · exact hfixed k (by omega) (by omega) (.inr (.inr (.inl ⟨hl, hu⟩)))
    · exact hfixed k hu (by omega) (.inr (.inr (.inr (.inl hl))))
    · exact hfixed k (by omega) (by omega) (.inr (.inr (.inr (.inr (.inl ⟨hp, hl, hu⟩)))))
    · exact hfixed k (by omega) (by omega) (.inr (.inr (.inr (.inr (.inr ⟨hv, hl, hu⟩)))))
  · rintro ⟨h6, h13, h19, hpin, hval⟩ k hk hk6 hm
    obtain hop | ⟨hl, hu⟩ | ⟨hl, hu⟩ | hl | ⟨hp, hl, hu⟩ | ⟨hv, hl, hu⟩ := (requestMask_getLsbD op hk).mp hm
    · exact absurd hk6 (Nat.not_le_of_lt hop)
    · exact h6 k hl hu
    · exact h13 k hl hu
    · exact h19 k hl hk
    · exact hpin hp k hl hu
    · exact hval hv k hl hu

/-! ### The verdicts -/

/-- DECODE of a word whose OP field names an operation. -/
theorem decode_of_opcode {w : Word} {op : Op} (h : opcode op = fieldOp w) :
    decode w = if w &&& requestMask op = requestMatch op then .ok (Instr.make op (fieldPin w).toNat (fieldVal w))
      else .error .reservedReq := by
  rw [decode, opOfCode_eq_some_iff.mpr h]

theorem decode_of_opOfCode_eq_none {w : Word} (h : opOfCode (fieldOp w) = none) : decode w = .error .illegalOp := by
  rw [decode, h]

/-- What DECODE answers: one of three verdicts, by the OP field and the mask of its row (30_encoding.md R118). -/
theorem decode_cases (w : Word) :
    (opOfCode (fieldOp w) = none ∧ decode w = .error .illegalOp) ∨
    ∃ op, opcode op = fieldOp w ∧
      ((w &&& requestMask op ≠ requestMatch op ∧ decode w = .error .reservedReq) ∨
       (w &&& requestMask op = requestMatch op ∧
         decode w = .ok (Instr.make op (fieldPin w).toNat (fieldVal w)))) := by
  cases hop : opOfCode (fieldOp w) with
  | none => exact .inl ⟨rfl, decode_of_opOfCode_eq_none hop⟩
  | some op =>
    have h := opOfCode_eq_some_iff.mp hop
    refine .inr ⟨op, h, ?_⟩
    rw [decode_of_opcode h]
    by_cases hw : w &&& requestMask op = requestMatch op
    · exact .inr ⟨hw, if_pos hw⟩
    · exact .inl ⟨hw, if_neg hw⟩

theorem decode_eq_reservedReq_iff_of_opcode {w : Word} {op : Op} (h : opcode op = fieldOp w) :
    decode w = .error .reservedReq ↔ w &&& requestMask op ≠ requestMatch op := by
  rw [decode_of_opcode h]
  split <;> simp [*]

theorem decode_eq_illegalOp_iff {w : Word} : decode w = .error .illegalOp ↔ opOfCode (fieldOp w) = none := by
  refine ⟨fun hd => ?_, decode_of_opOfCode_eq_none⟩
  obtain ⟨hop, -⟩ | ⟨op, -, ⟨-, he⟩ | ⟨-, he⟩⟩ := decode_cases w
  · exact hop
  · cases hd.symm.trans he
  · cases hd.symm.trans he

theorem decode_eq_reservedReq_iff {w : Word} :
    decode w = .error .reservedReq ↔ ∃ op, opcode op = fieldOp w ∧ w &&& requestMask op ≠ requestMatch op := by
  refine ⟨fun hd => ?_, fun ⟨op, h, hw⟩ => (decode_eq_reservedReq_iff_of_opcode h).mpr hw⟩
  obtain ⟨-, he⟩ | ⟨op, h, ⟨hw, -⟩ | ⟨-, he⟩⟩ := decode_cases w
  · cases hd.symm.trans he
  · exact ⟨op, h, hw⟩
  · cases hd.symm.trans he

theorem decode_eq_ok_iff {w : Word} {i : Instr} :
    decode w = .ok i ↔
      opcode i.op = fieldOp w ∧ w &&& requestMask i.op = requestMatch i.op ∧
        Instr.make i.op (fieldPin w).toNat (fieldVal w) = i := by
  constructor
  · intro hd
    obtain ⟨-, he⟩ | ⟨op, h, ⟨-, he⟩ | ⟨hw, he⟩⟩ := decode_cases w
    · cases hd.symm.trans he
    · cases hd.symm.trans he
    · cases hd.symm.trans he
      rw [Instr.op_make]
      exact ⟨h, hw, rfl⟩
  · rintro ⟨h, hw, hi⟩
    rw [decode_of_opcode h, if_pos hw, hi]

theorem decode_error_cases {w : Word} {c : FaultCode} (hd : decode w = .error c) :
    c = .illegalOp ∨ c = .reservedReq := by
  obtain ⟨-, he⟩ | ⟨op, -, ⟨-, he⟩ | ⟨-, he⟩⟩ := decode_cases w
  · cases hd.symm.trans he; exact .inl rfl
  · cases hd.symm.trans he; exact .inr rfl
  · cases hd.symm.trans he

end Sys2Proof
end

section
/-! The statements of 30_encoding.md on the request decoder: O3 and O4. -/

namespace Sys2Proof

/-- Settles O3: the OP field names an operation or none, and the mask of the operation's row decides the rest. -/
theorem decoderVerdicts : Obligations.DecoderVerdicts := by
  unfold Obligations.DecoderVerdicts
  refine fun w => ⟨decode_eq_illegalOp_iff.trans (opOfCode_eq_none_iff _), decode_eq_reservedReq_iff, fun i => ?_,
    fun _ => decode_error_cases⟩
  rw [decode_eq_ok_iff, Instr.make_eq_iff]

/-- Settles O4: the bits a row fixes above OP are the reserved fields, and PIN and VAL where the row has none. -/
theorem reservedRequestBits : Obligations.ReservedRequestBits := by
  unfold Obligations.ReservedRequestBits
  intro w op h
  refine ⟨?_, decode_eq_reservedReq_iff_of_opcode h⟩
  rw [decode_eq_reservedReq_iff_of_opcode h, ne_eq, and_requestMask_eq_iff h]
  tauto

end Sys2Proof
end

section
/-! SUPPORT. The write step of a read-modify-write (40_mmio.md R155, R156): on a register of a port that takes the
combined word it is one bus write of that word. -/

namespace Sys2Proof.Machine

/-- The port at its base after a step that changes that port. -/
theorem port?_of_rf_eq_withPort {s t : State} {b : Word} {p : Port} {f : Port → Port}
    (hf : ∀ p, (f p).base = p.base) (hp : s.port? b = some p) (hrf : t.rf = s.rf.withPort b f) :
    t.port? b = some (f p) := by
  have ht : t.port? b = (s.modifyPort b f).port? b := congrArg (List.find? _) hrf
  rw [ht, port?_modifyPort s b b hf, hp, Option.map_some, if_pos rfl]

/-- The next step of a sequencer whose read-modify-write is pending is its write step (10_state.md R33,
40_mmio.md R155). -/
theorem step_of_rmwPending {s : State} {k : Nat} {q : Seq} {rest : List Action} {h : Hold} (hn : s.Next k q rest)
    (hf : q.fault = false) (hp : q.phase = .rmwPending h) :
    step s = ({ s with sched := rest } : State).writeStep k q h := by
  obtain ⟨hs, hq⟩ := hn
  simp [step, State.advance, hs, State.perform, State.seqStep, hq, hf, hp]

/-- The checks of the write step pass for a word the register takes. -/
theorem rmwWrite_port {s : State} {b : Word} {p : Port} {r : Reg} {h : Hold} (ho : s.cfg.offsets.WF) (hm : s.rf.wf)
    (hp : s.port? b = some p) (ha : h.addr = b + offsetOf s.cfg.offsets r) (hr : r ≠ .inp)
    (hv : r.takes (combine h.old h.clr h.set) = true) :
    s.rmwWrite h =
      .ok (((s.memWrite (.seq s.actor) b r h.addr (combine h.old h.clr h.set)).setPhase .idle).emitDone h.op
        .noValue) := by
  have hw : s.checkWriteAddr h.addr = .ok (b, r) := by rw [ha, checkWriteAddr_port ho hm hp hr]
  rw [State.rmwWrite, hw, ok_bind]
  simp only [checkWriteValue_eq_ok_iff.mpr hv, ok_bind]
  rfl

/-- The step of a sequencer that writes COMBINE of its HOLD to a register of a port (40_mmio.md R155). -/
theorem step_rmwWrite_port {s : State} {k : Nat} {q : Seq} {rest : List Action} {h : Hold} {b : Word} {p : Port}
    {r : Reg} (hn : s.Next k q rest) (hf : q.fault = false) (hph : q.phase = .rmwPending h)
    (ho : s.cfg.offsets.WF) (hm : s.rf.wf) (hp : s.port? b = some p)
    (ha : h.addr = b + offsetOf s.cfg.offsets r) (hr : r ≠ .inp)
    (hv : r.takes (combine h.old h.clr h.set) = true) :
    step s = .next { s with
      sched := rest, actor := k
      rf := s.rf.withPort b (Port.write s.cfg.dirAlias r (combine h.old h.clr h.set))
      seqs := s.seqs.set k { q with phase := .idle }
      hist := s.hist ++ [.bus (.seq k) .write h.addr (combine h.old h.clr h.set), .done k h.op .noValue] } := by
  have hseq := modify_eq_set_of_getElem? _ _ (Seq.setPhase .idle) _ hn.2
  have hw := rmwWrite_port (s := { s with sched := rest, actor := k }) ho hm hp ha hr hv
  rw [step_of_rmwPending hn hf hph]
  simp [State.writeStep, hw, State.memWrite, State.modifyPort, State.log, State.setPhase, State.modifySeq, hseq,
    Seq.setPhase, State.emitDone, Memory.withPort]

/-- A bit set at the read and not in the clear mask is set in the word written (30_encoding.md R109). -/
theorem combine_getLsbD_of_kept {old clr set : Word} {n : Nat} (hold : old.getLsbD n = true)
    (hclr : clr.getLsbD n = false) : (combine old clr set).getLsbD n = true := by
  rw [combine_getLsbD, hold, hclr, Bool.not_false, Bool.and_true, Bool.or_true]

/-- A bit written as 1 to a write-1-to-clear word is clear afterwards (10_state.md R43). -/
theorem and_not_getLsbD_of_set {w v : Word} {n : Nat} (hv : v.getLsbD n = true) : (w &&& ~~~v).getLsbD n = false := by
  rw [BitVec.getLsbD_and, BitVec.getLsbD_not, hv, Bool.not_true, Bool.and_false, Bool.and_false]

end Sys2Proof.Machine
end

section
/-! The statement of 40_mmio.md on a read-modify-write of LATCH: O33. -/

namespace Sys2Proof.Machine

/-- Settles O33: the write step is a write of COMBINE to LATCH, which clears the bits written as 1; a bit set at the
read and not in the clear mask is one of them. -/
theorem rmwOnLatchClearsPendingBits : Obligations.RmwOnLatchClearsPendingBits := by
  unfold Obligations.RmwOnLatchClearsPendingBits
  intro s k q rest h b p hn hf hph ho hm hp ha
  have hstep := step_rmwWrite_port (r := .latch) hn hf hph ho hm hp ha (by decide) rfl
  refine ⟨_, _, hstep, port?_of_rf_eq_withPort (fun x => Port.write_base _ _ _ x) hp rfl, Port.write_latch ..,
    fun n hold hclr => ?_⟩
  exact and_not_getLsbD_of_set (combine_getLsbD_of_kept hold hclr)

end Sys2Proof.Machine
end

section
/-! SUPPORT. The six port writes as one store each (41_port.md R172 to R181): the register and the word each stores,
and what the store leaves in the port of operand A and in the others. -/

namespace Sys2Proof.Machine

/-! ### One bit of a word -/

/-- A word with bit `n` replaced by `b`: what storing the pin's mask to a set or a clear register leaves
(10_state.md R43, 30_encoding.md R108). -/
def withPinBit (w : Word) (n : Nat) (b : Bool) : Word :=
  if b then w ||| pinMask n else w &&& ~~~pinMask n

theorem withPinBit_getLsbD (w : Word) {n : Nat} (hn : n < 32) (b : Bool) (m : Nat) :
    (withPinBit w n b).getLsbD m = if m = n then b else w.getLsbD m := by
  by_cases hm : m < 32
  · cases b with
    | false =>
      rw [withPinBit, if_neg Bool.false_ne_true, BitVec.getLsbD_and, BitVec.getLsbD_not, pinMask_getLsbD hm]
      by_cases h : m = n <;> simp [h, hm]
    | true =>
      rw [withPinBit, if_pos rfl, BitVec.getLsbD_or, pinMask_getLsbD hm]
      by_cases h : m = n <;> simp [h]
  · rw [BitVec.getLsbD_of_ge _ m (Nat.le_of_not_lt hm), BitVec.getLsbD_of_ge _ m (Nat.le_of_not_lt hm),
      if_neg fun (h : m = n) => hm (h ▸ hn)]

theorem withPinBit_getLsbD_pin (w : Word) (n : Fin 32) (b : Bool) : (withPinBit w n b).getLsbD n = b := by
  rw [withPinBit_getLsbD w n.isLt, if_pos rfl]

theorem withPinBit_getLsbD_of_ne (w : Word) {n : Fin 32} {m : Nat} (h : m ≠ n) (b : Bool) :
    (withPinBit w n b).getLsbD m = w.getLsbD m := by
  rw [withPinBit_getLsbD w n.isLt, if_neg h]

theorem withBit0_getLsbD_self (w : Word) : withBit0 w (w.getLsbD 0) = w := by
  apply BitVec.eq_of_getLsbD_eq
  intro k _
  cases k with
  | zero => exact withBit0_getLsbD_zero w _
  | succ k => exact withBit0_getLsbD_succ w _ k

/-- Replacing the direction bit of a pin replaces bit 0 of its configuration word (10_state.md R41). -/
theorem scatterDir_withPinBit_pin (cnf : Vector Word 32) (n : Fin 32) (b : Bool) :
    (scatterDir cnf (withPinBit (gatherDir cnf) n b))[n] = withBit0 cnf[n] b := by
  rw [scatterDir_getElem, withPinBit_getLsbD_pin]

/-- Replacing the direction bit of a pin keeps every other pin's configuration word. -/
theorem scatterDir_withPinBit_of_ne (cnf : Vector Word 32) {n m : Fin 32} (h : m ≠ n) (b : Bool) :
    (scatterDir cnf (withPinBit (gatherDir cnf) n b))[m] = cnf[m] := by
  rw [scatterDir_getElem, withPinBit_getLsbD_of_ne _ (Fin.val_ne_of_ne h), gatherDir_getLsbD, withBit0_getLsbD_self]

/-- The direction state reads back as written, aliased or not (10_state.md R41). -/
@[simp] theorem Port.dirv_setDirv (a : Bool) (v : Word) (p : Port) : (p.setDirv a v).dirv a = v := by
  cases a
  · simp
  · simp [gatherDir_scatterDir]

/-- A VAL of 0 or 1 as a word is the flag it stands for. -/
theorem flagWord_decide_eq_one {d : Val} (hd : d = 0 ∨ d = 1) : flagWord (d = 1) = d.setWidth 32 := by
  obtain rfl | rfl := hd <;> rfl

/-! ### The set and clear registers of OUT and of the direction state -/

/-- The register whose store sets, or clears, the bits of OUT in the mask (10_state.md R43). -/
def outAlias (b : Bool) : Reg :=
  if b then .outset else .outclr

/-- The register whose store sets, or clears, the bits of the direction state in the mask (10_state.md R43). -/
def directionAlias (b : Bool) : Reg :=
  if b then .dirset else .dirclr

@[simp] theorem Port.write_outAlias_pinMask (a b : Bool) (n : Nat) (p : Port) :
    p.write a (outAlias b) (pinMask n) = { p with out := withPinBit p.out n b } := by
  cases b <;> rfl

@[simp] theorem Port.write_directionAlias_pinMask (a b : Bool) (n : Nat) (p : Port) :
    p.write a (directionAlias b) (pinMask n) = p.setDirv a (withPinBit (p.dirv a) n b) := by
  cases b <;> rfl

theorem Port.write_latch_pinMask (a : Bool) (n : Nat) (p : Port) :
    p.write a .latch (pinMask n) = { p with latch := withPinBit p.latch n false } := rfl

/-! ### A port write as one store -/

/-- The accept step of `i` is one store of `v` to register `r` of the port that operand A of `q` names. -/
def StoresToPort (s : State) (q : Seq) (i : Instr) (r : Reg) (v : Word) : Prop :=
  exec i s = .next (s.afterStore i.op (q.lat.a + offsetOf s.cfg.offsets r) v
    (s.rf.withPort q.lat.a (Port.write s.cfg.dirAlias r v)))

section
variable {s t : State} {q : Seq} {p p' : Port} {i : Instr} {r : Reg} {v : Word}

/-- A store to a port leaves every other port as it was (41_port.md R183). -/
theorem StoresToPort.isolated (h : StoresToPort s q i r v) :
    ∃ t, exec i s = .next t ∧ ∀ b, b ≠ q.lat.a → t.port? b = s.port? b := by
  refine ⟨_, h, fun b hb => ?_⟩
  have hport := port?_modifyPort s q.lat.a b fun x => Port.write_base s.cfg.dirAlias r v x
  simp only [if_neg hb, Option.map_id'] at hport
  exact hport

/-- The port stored to is the old one with the register's write effect (10_state.md R43). -/
theorem StoresToPort.port_eq (h : StoresToPort s q i r v) (hp : s.port? q.lat.a = some p)
    (ht : exec i s = .next t) (hp' : t.port? q.lat.a = some p') : p' = p.write s.cfg.dirAlias r v := by
  cases h.symm.trans ht
  rw [port?_of_rf_eq_withPort (fun x => Port.write_base _ r v x) hp rfl, Option.some.injEq] at hp'
  exact hp'.symm

/-- A request whose accept step comes down to one store of a value the register takes. -/
theorem storesToPort_of_accept {body : Operands → Except Raise State} (hs : s.Serves q p)
    (hi : exec i s = accept s body)
    (hb : body q.lat = s.storeOp i.op (q.lat.a + offsetOf s.cfg.offsets r) v) (hr : r ≠ .inp)
    (hv : r.takes v = true) : StoresToPort s q i r v := by
  obtain ⟨⟨ho, hm, hq⟩, hp⟩ := hs
  exact hi.trans (accept_of_ok hq (hb.trans (storeOp_port ho hm hp i.op hr (checkWriteValue_eq_ok_iff.mpr hv))))

end

section
variable {s : State} {q : Seq} {p : Port} {i : Instr} {r : Reg} {v : Word} {n : Nat} {d : Val}
  (hs : s.Serves q p)
include hs

/-- A request with a pin in range: VALIDATE passes it (60_exceptions.md R242, R243). -/
theorem storesToPort_of_pin (hn : n < 32)
    (hi : exec i s = accept s fun o => do
      checkPin n
      s.checkBase o.a
      s.storeOp i.op (o.a + offsetOf s.cfg.offsets r) v)
    (hr : r ≠ .inp) (hv : r.takes v = true) : StoresToPort s q i r v := by
  refine storesToPort_of_accept hs hi ?_ hr hv
  rw [checkPin_lt hn, ok_bind, checkBase_port hs.1.2.1 hs.2, ok_bind]

/-- A request with a pin in range and a legal VAL: VALIDATE passes it (60_exceptions.md R242, R243). -/
theorem storesToPort_of_pin_val (hn : n < 32) (hd : d ∈ valDomain i.op)
    (hi : exec i s = accept s fun o => do
      checkPin n
      checkVal i.op d
      s.checkBase o.a
      s.storeOp i.op (o.a + offsetOf s.cfg.offsets r) v)
    (hr : r ≠ .inp) (hv : r.takes v = true) : StoresToPort s q i r v := by
  refine storesToPort_of_accept hs hi ?_ hr hv
  rw [checkPin_lt hn, ok_bind, checkVal_mem hd, ok_bind, checkBase_port hs.1.2.1 hs.2, ok_bind]

theorem setOutput_storesToPort (hn : n < 32) : StoresToPort s q (.setOutput n) (outAlias true) (pinMask n) :=
  storesToPort_of_pin hs hn rfl (by decide) rfl

theorem clearOutput_storesToPort (hn : n < 32) : StoresToPort s q (.clearOutput n) (outAlias false) (pinMask n) :=
  storesToPort_of_pin hs hn rfl (by decide) rfl

theorem writeOutput_storesToPort (hn : n < 32) (hd : d = 0 ∨ d = 1) :
    StoresToPort s q (.writeOutput n d) (outAlias (d = 1)) (pinMask n) := by
  have hval : d ∈ ([0, 1] : List Val) := List.mem_pair.mpr hd
  obtain rfl | rfl := hd
  · exact storesToPort_of_pin_val hs hn hval rfl (by decide) rfl
  · exact storesToPort_of_pin_val hs hn hval rfl (by decide) rfl

theorem setDirection_storesToPort (hn : n < 32) (hd : d = 0 ∨ d = 1) :
    StoresToPort s q (.setDirection n d) (directionAlias (d = 1)) (pinMask n) := by
  have hval : d ∈ ([0, 1] : List Val) := List.mem_pair.mpr hd
  obtain rfl | rfl := hd
  · exact storesToPort_of_pin_val hs hn hval rfl (by decide) rfl
  · exact storesToPort_of_pin_val hs hn hval rfl (by decide) rfl

theorem clearLatch_storesToPort (hn : n < 32) : StoresToPort s q (.clearLatch n) .latch (pinMask n) :=
  storesToPort_of_pin hs hn rfl (by decide) rfl

theorem setDetectMode_storesToPort (hd : d = 0 ∨ d = 1) :
    StoresToPort s q (.setDetectMode d) .detectmode (d.setWidth 32) := by
  have htakes : Reg.detectmode.takes (d.setWidth 32) = true := by obtain rfl | rfl := hd <;> rfl
  have hexec : exec (.setDetectMode d) s = accept s (fun o => do
      checkVal .setDetectMode d
      s.checkBase o.a
      s.storeOp .setDetectMode (o.a + s.cfg.offsets.detectmode) (d.setWidth 32)) := rfl
  refine storesToPort_of_accept hs hexec ?_ (by decide) htakes
  rw [checkVal_mem (List.mem_pair.mpr hd), ok_bind, checkBase_port hs.1.2.1 hs.2, ok_bind]
  rfl

end

end Sys2Proof.Machine
end

section
/-! The statement of 41_port.md on the isolation of the port writes: O39. -/

namespace Sys2Proof.Machine

section
variable {s t : State} {q : Seq} {p p' : Port} {i : Instr} {n : Fin 32}

/-- A store of the pin's mask to a set or clear register of OUT changes bit `n` of OUT alone (41_port.md R183). -/
theorem StoresToPort.out_changes_alone {b : Bool} (h : StoresToPort s q i (outAlias b) (pinMask n))
    (hp : s.port? q.lat.a = some p) (ht : exec i s = .next t) (hp' : t.port? q.lat.a = some p') :
    { p' with out := p.out } = p ∧ (∀ m : Nat, m ≠ n → p'.out.getLsbD m = p.out.getLsbD m) ∧
      p'.out.getLsbD n = b := by
  rw [h.port_eq hp ht hp', Port.write_outAlias_pinMask]
  exact ⟨rfl, fun m hm => withPinBit_getLsbD_of_ne p.out hm b, withPinBit_getLsbD_pin p.out n b⟩

/-- A store of the pin's mask to DIRSET or DIRCLR changes bit `n` of the direction state alone, which under
P_DIR_ALIAS is bit 0 of the pin's configuration word (41_port.md R183, 10_state.md R41). -/
theorem StoresToPort.direction_changes_alone {b : Bool} (h : StoresToPort s q i (directionAlias b) (pinMask n))
    (hp : s.port? q.lat.a = some p) (ht : exec i s = .next t) (hp' : t.port? q.lat.a = some p') :
    (p'.dirv s.cfg.dirAlias).getLsbD n = b ∧
      (∀ m : Nat, m ≠ n → (p'.dirv s.cfg.dirAlias).getLsbD m = (p.dirv s.cfg.dirAlias).getLsbD m) ∧
      (s.cfg.dirAlias = false → { p' with dir := p.dir } = p) ∧
      (s.cfg.dirAlias = true → { p' with cnf := p.cnf } = p ∧
        (∀ m : Fin 32, m ≠ n → p'.cnf[m] = p.cnf[m]) ∧ p'.cnf[n] = withBit0 p.cnf[n] b) := by
  rw [h.port_eq hp ht hp', Port.write_directionAlias_pinMask, Port.dirv_setDirv]
  refine ⟨withPinBit_getLsbD_pin _ n b, fun m hm => withPinBit_getLsbD_of_ne _ hm b, fun ha => ?_, fun ha => ?_⟩
  · rw [ha, Port.setDirv_false]
  · rw [ha, Port.setDirv_true, Port.dirv_true]
    exact ⟨rfl, fun m hm => scatterDir_withPinBit_of_ne p.cnf hm b, scatterDir_withPinBit_pin p.cnf n b⟩

end

/-- Settles O39: each port write is one store to a register of port A, whose write effect replaces the one bit. -/
theorem portWritesAreIsolated : Obligations.PortWritesAreIsolated := by
  unfold Obligations.PortWritesAreIsolated
  intro s q p n d hs hd
  have hset := setOutput_storesToPort hs n.isLt
  have hclr := clearOutput_storesToPort hs n.isLt
  have hout := writeOutput_storesToPort hs n.isLt hd
  have hdir := setDirection_storesToPort hs n.isLt hd
  have hlatch := clearLatch_storesToPort hs n.isLt
  have hdm := setDetectMode_storesToPort hs hd
  obtain ⟨-, hp⟩ := hs
  refine ⟨?_, ?_, fun t p' ht hp' => ?_, fun t p' ht hp' => ?_, fun t p' ht hp' => ?_⟩
  · simp only [List.forall_mem_cons]
    exact ⟨hset.isolated, hclr.isolated, hout.isolated, hdir.isolated, hlatch.isolated, hdm.isolated,
      List.forall_mem_nil _⟩
  · simp only [List.forall_mem_cons]
    refine ⟨fun t p' ht hp' => ?_, fun t p' ht hp' => ?_, fun t p' ht hp' => ?_, List.forall_mem_nil _⟩
    · simpa using hset.out_changes_alone hp ht hp'
    · simpa using hclr.out_changes_alone hp ht hp'
    · simpa using hout.out_changes_alone hp ht hp'
  · rw [← flagWord_decide_eq_one hd]
    exact hdir.direction_changes_alone hp ht hp'
  · rw [hlatch.port_eq hp ht hp', Port.write_latch_pinMask]
    exact ⟨rfl, withPinBit_getLsbD_pin p.latch n false, fun m hm => withPinBit_getLsbD_of_ne p.latch hm false⟩
  · rw [hdm.port_eq hp ht hp']
    exact ⟨rfl, BitVec.setWidth_setWidth_of_le (k := 1) (l := 32) d (by decide)⟩

end Sys2Proof.Machine
end

section
/-! SUPPORT. The accept step of a request that does not decode (60_exceptions.md R241). -/

namespace Sys2Proof

open Sys2Proof.Machine

/-- An OP field is unassigned where it is the opcode of no operation (30_encoding.md R117). -/
theorem opOfCode_eq_none_iff_forall_ne (c : BitVec 6) : opOfCode c = none ↔ ∀ op, opcode op ≠ c := by
  simp only [Option.eq_none_iff_forall_ne_some, ne_eq, opOfCode_eq_some_iff]

namespace Machine

section
variable {s : State} {k : Nat} {q : Seq} {rest : List Action}

/-- The next step of an idle sequencer with a request issued is its accept step (10_state.md R33). -/
theorem step_of_idle_issued (hn : s.Next k q rest) (hf : q.fault = false) (hp : q.phase = .idle)
    (hi : q.issued = true) : step s = ({ s with sched := rest } : State).acceptStep k q := by
  obtain ⟨hs, hq⟩ := hn
  simp [step, State.advance, hs, State.perform, State.seqStep, hq, hf, hp, Seq.canAccept, hi]

/-- An accept step on a word that does not decode is fault entry with the decoder's verdict. -/
theorem acceptStep_of_decode_error {c : FaultCode} (hq : s.seqs[k]? = some q) (hd : decode q.ops.req = .error c) :
    s.acceptStep k q = .next { s with actor := k, seqs := s.seqs.set k (q.latch.faulted q.ops c .nothing) } := by
  simp only [State.acceptStep, hd, State.enterFault, State.modifySeq, List.modify_modify_eq]
  rw [modify_eq_set_of_getElem? _ _ _ _ hq]
  rfl

/-- The step of a sequencer that accepts a word that does not decode. -/
theorem step_of_decode_error {c : FaultCode} (hn : s.Next k q rest) (hf : q.fault = false) (hp : q.phase = .idle)
    (hi : q.issued = true) (hd : decode q.ops.req = .error c) :
    step s = .next { s with sched := rest, actor := k,
                            seqs := s.seqs.set k (q.latch.faulted q.ops c .nothing) } := by
  rw [step_of_idle_issued hn hf hp hi, acceptStep_of_decode_error (s := { s with sched := rest }) hn.2 hd]

end

end Machine

end Sys2Proof
end

section
/-! SUPPORT. VALIDATE after decoding as one check (60_exceptions.md R242, R243, R249): an operation makes it before its
access, so where it raises a fault the accept step is that fault's entry. -/

namespace Sys2Proof

open Sys2Proof.Machine

/-- The checks of VALIDATE after decoding, in order: the pin, VAL, the record, and for an operation outside the MMIO
layer the port base (60_exceptions.md R242, R243). -/
def Instr.validate (i : Instr) (s : State) (o : Operands) : Except Raise Unit := do
  i.pin?.forM checkPin
  i.val?.forM (checkVal i.op)
  if i.readsRec then discard (checkRec o.record)
  if i.isMmio then return () else s.checkBase o.a

/-- No operation takes both VAL and a record (30_encoding.md R113, 60_exceptions.md R242). -/
theorem Instr.val?_of_readsRec {i : Instr} (h : i.readsRec = true) : i.val? = none := by
  cases i with
  | configure | update => rfl
  | _ => cases h

/-- A decoded pin comes from the 5-bit field PIN (60_exceptions.md R242). -/
theorem pinOk_of_decode_eq_ok {w : Word} {i : Instr} (h : decode w = .ok i) : i.PinOk := by
  obtain ⟨-, -, hmake⟩ := decode_eq_ok_iff.mp h
  rw [Instr.PinOk, ((Instr.make_eq_iff i _ _).mp hmake).1]
  split
  · rintro _ ⟨⟩
    exact (fieldPin w).isLt
  · rintro _ ⟨⟩

namespace Machine

/-! ### The fault each check raises -/

theorem checkPin_eq_error {n : Nat} (h : 32 ≤ n) : checkPin n = .error { code := .pinRange, detail := .pin n } :=
  if_neg (Nat.not_lt.mpr h)

theorem checkVal_eq_error {op : Op} {v : Val} (h : v ∉ valDomain op) :
    checkVal op v = .error { code := .badValue, detail := .nothing } :=
  if_neg h

/-- The buses of REC carry no record exactly where PULL or SENSE is a reserved code (30_encoding.md R116). -/
theorem record?_eq_none_iff (b : RecBus) : b.record? = none ↔ b.pull = 2 ∨ b.sense = 1 := by
  rw [← pull_ofCode?_eq_none, ← sense_ofCode?_eq_none, RecBus.record?]
  cases Pull.ofCode? (b.pull.setWidth 32) <;> cases Sense.ofCode? (b.sense.setWidth 32) <;> simp

theorem checkRec_eq_error {b : RecBus} (h : b.pull = 2 ∨ b.sense = 1) :
    checkRec b = .error { code := .badRecord, detail := .record b } := by
  rw [checkRec, (record?_eq_none_iff b).mpr h]

theorem checkBase_eq_misaligned {s : State} {a : Word} (h : a.extractLsb' 0 2 ≠ 0) :
    s.checkBase a = .error { code := .misaligned, detail := .address a } := by
  have ha : aligned a = false := beq_eq_false_iff_ne.mpr h
  rw [State.checkBase, ha]
  rfl

theorem checkBase_eq_unmapped {s : State} {a : Word} (h : a.extractLsb' 0 2 = 0) (ha : a ∉ s.portBases) :
    s.checkBase a = .error { code := .unmapped, detail := .address a } := by
  simp [State.checkBase, aligned, h, ha]

/-! ### The checks that pass -/

theorem forM_checkPin_of_pinOk {i : Instr} (h : i.PinOk) : i.pin?.forM checkPin = .ok () := by
  cases hp : i.pin? with
  | none => rfl
  | some n => exact checkPin_lt (h n hp)

theorem forM_checkVal_of_valOk {i : Instr} (h : i.ValOk) : i.val?.forM (checkVal i.op) = .ok () := by
  cases hv : i.val? with
  | none => rfl
  | some v => exact checkVal_mem (h v hv)

theorem discard_checkRec_of_legal {b : RecBus} (hp : b.pull ≠ 2) (hs : b.sense ≠ 1) :
    discard (checkRec b) = .ok () := by
  obtain ⟨r, hr⟩ := Option.ne_none_iff_exists'.mp (mt (record?_eq_none_iff b).mp (not_or.mpr ⟨hp, hs⟩))
  rw [checkRec_some hr]
  rfl

/-! ### What VALIDATE raises -/

section
variable {s : State} {i : Instr} {o : Operands}

theorem validate_eq_pinRange {n : Nat} (hn : i.pin? = some n) (h : 32 ≤ n) :
    i.validate s o = .error { code := .pinRange, detail := .pin n } := by
  have hpin : i.pin?.forM checkPin = .error { code := .pinRange, detail := .pin n } := by
    rw [hn]; exact checkPin_eq_error h
  rw [Instr.validate, hpin, error_bind]

theorem validate_eq_badValue {v : Val} (hpin : i.PinOk) (hv : i.val? = some v) (h : v ∉ valDomain i.op) :
    i.validate s o = .error { code := .badValue, detail := .nothing } := by
  have hval : i.val?.forM (checkVal i.op) = .error { code := .badValue, detail := .nothing } := by
    rw [hv]; exact checkVal_eq_error h
  rw [Instr.validate, forM_checkPin_of_pinOk hpin, ok_bind, hval, error_bind]

theorem validate_eq_badRecord (hpin : i.PinOk) (hr : i.readsRec = true)
    (h : o.record.pull = 2 ∨ o.record.sense = 1) :
    i.validate s o = .error { code := .badRecord, detail := .record o.record } := by
  have hval : i.ValOk := by rw [Instr.ValOk, Instr.val?_of_readsRec hr]; rintro _ ⟨⟩
  rw [Instr.validate, forM_checkPin_of_pinOk hpin, ok_bind, forM_checkVal_of_valOk hval, ok_bind, if_pos hr,
    checkRec_eq_error h]
  rfl

/-- Where the operands are well-formed VALIDATE is the check of the port base. -/
theorem validate_eq_checkBase (hm : i.isMmio = false) (hwf : i.WellFormed)
    (hrec : i.readsRec = true → o.record.pull ≠ 2 ∧ o.record.sense ≠ 1) : i.validate s o = s.checkBase o.a := by
  obtain ⟨hpin, hval⟩ := hwf
  rw [Instr.validate, forM_checkPin_of_pinOk hpin, ok_bind, forM_checkVal_of_valOk hval, ok_bind]
  cases hr : i.readsRec with
  | false => simp [hm]
  | true => simp [hm, discard_checkRec_of_legal (hrec hr).1 (hrec hr).2]

/-! ### VALIDATE before the access -/

section
variable {α β : Type} {x : Except Raise α} {f : α → Except Raise Unit} {g : α → Except Raise β} {r : Raise}

theorem bind_eq_error (h : x = .error r) : (x >>= g) = .error r := by
  rw [h, error_bind]

theorem discard_bind (f : Unit → Except Raise β) : (discard x >>= f) = x >>= fun _ => f () := by
  cases x <;> rfl

/-- After one check in common, a fault of the checks that follow is a fault of the longer chain. -/
theorem bind_eq_error_of_bind (hfg : ∀ a, f a = .error r → g a = .error r) (h : (x >>= f) = .error r) :
    (x >>= g) = .error r := by
  cases x with
  | error y => cases h; rfl
  | ok a => exact hfg a h

end

theorem setField_of_checks_error {q : Seq} {op : Op} {f : Field} {n : Nat} {v : Val} {r : Raise}
    (hq : s.seqs[s.actor]? = some q)
    (h : (checkPin n >>= fun _ => checkVal op v >>= fun _ => s.checkBase q.lat.a) = .error r) :
    setField op f n v s = .next (s.afterFault q r.code r.detail) := by
  refine accept_of_error hq ?_
  exact bind_eq_error_of_bind (fun _ => bind_eq_error_of_bind fun _ => bind_eq_error) h

/-- A fault VALIDATE raises is entered at the accept step, before any access (60_exceptions.md R242, R243). -/
theorem exec_of_validate_error {q : Seq} {r : Raise} (hq : s.seqs[s.actor]? = some q)
    (h : i.validate s q.lat = .error r) : exec i s = .next (s.afterFault q r.code r.detail) := by
  cases i with
  | read32 | write32 | rmw32 => cases h
  | readLatch | getDetectMode =>
    have hbase : s.checkBase q.lat.a = .error r := h
    rw [exec]
    refine accept_of_error hq ?_
    exact bind_eq_error hbase
  | setDetectMode v =>
    have hchecks : (checkVal .setDetectMode v >>= fun _ => s.checkBase q.lat.a) = .error r := h
    rw [exec]
    refine accept_of_error hq ?_
    exact bind_eq_error_of_bind (fun _ => bind_eq_error) hchecks
  | readLevel n | readOutput n | setOutput n | clearOutput n | getDirection n | getLatch n | clearLatch n
  | readConfigRaw n | readConfig n | getCfgDir n | getInput n | getPull n | getDrive n | getSense n =>
    have hchecks : (checkPin n >>= fun _ => s.checkBase q.lat.a) = .error r := h
    rw [exec]
    refine accept_of_error hq ?_
    exact bind_eq_error_of_bind (fun _ => bind_eq_error) hchecks
  | setCfgDir | setInput | setPull | setDrive | setSense => exact setField_of_checks_error hq h
  | writeOutput n v | setDirection n v =>
    rw [exec]
    refine accept_of_error hq ?_
    exact bind_eq_error_of_bind (fun _ => bind_eq_error_of_bind fun _ => bind_eq_error) h
  | configure n | update n =>
    have hchecks : (checkPin n >>= fun _ => discard (checkRec q.lat.record) >>= fun _ => s.checkBase q.lat.a) =
      .error r := h
    simp only [discard_bind] at hchecks
    rw [exec]
    refine accept_of_error hq ?_
    exact bind_eq_error_of_bind (fun _ => bind_eq_error_of_bind fun _ => bind_eq_error) hchecks

end

end Machine

end Sys2Proof
end

section
/-! SUPPORT. The accesses of the other bus masters that fail a check (60_exceptions.md R247), and what a step can do to
GFAULT. -/

namespace Sys2Proof.Machine

section
variable {s : State} {a v : Word} {x : Raise} {rest : List Action}

/-- The step that is a read of another bus master (20_memory.md R86). -/
theorem step_otherRead (h : s.sched = .otherRead a :: rest) :
    step s = .next (({ s with sched := rest } : State).otherRead a) := by
  simp [step, State.advance, h, State.perform]

/-- The step that is a write of another bus master (20_memory.md R86). -/
theorem step_otherWrite (h : s.sched = .otherWrite a v :: rest) :
    step s = .next (({ s with sched := rest } : State).otherWrite a v) := by
  simp [step, State.advance, h, State.perform]

theorem otherRead_of_error (ho : s.cfg.otherMasters = true) (h : s.checkRead a = .error x) :
    s.otherRead a = s.globalFault a x := by
  simp only [State.otherRead, ho, if_true, h]

theorem otherWrite_of_error (ho : s.cfg.otherMasters = true) (h : s.checkWrite a v = .error x) :
    s.otherWrite a v = s.globalFault a x := by
  simp only [State.otherWrite, ho, if_true, h]

theorem checkWrite_of_addr_error (h : s.checkWriteAddr a = .error x) : s.checkWrite a v = .error x := by
  rw [State.checkWrite, h, error_bind]

theorem checkWrite_of_value_error {b : Word} {r : Reg} (h : s.checkWriteAddr a = .ok (b, r))
    (hv : checkWriteValue r a v = .error x) : s.checkWrite a v = .error x := by
  rw [State.checkWrite, h, ok_bind]
  exact bind_eq_error hv

end

/-- No accepted request changes GFAULT: a fault of a sequencer is entered in the sequencer (60_exceptions.md R246). -/
theorem Effect.gfault_eq {s t : State} {q : Seq} (h : Effect s q t) : t.gfault = s.gfault := by
  cases h <;> rfl

/-- Every step but a Reset keeps GFAULT or sets it (60_exceptions.md R247). -/
theorem step_gfault {s t : State} {m : Action} {rest : List Action} (hs : s.sched = m :: rest)
    (hm : ∀ d, m ≠ .reset d) (e : step s = .next t) : t.gfault = s.gfault ∨ t.gfault.isSome = true := by
  cases step_effect e with
  | accept k q rest' i _ hn hf hp hd he => exact .inl he.gfault_eq
  | otherFault => exact .inr rfl
  | reset d rest' h => exact absurd (List.cons.inj (hs.symm.trans h)).1 (hm d)
  | nobody | skip | undecodable | write | writeFault | operand | issue | consume | envIn | envLatch | otherRead
  | otherWrite => exact .inl rfl

end Sys2Proof.Machine
end

section
/-! The statements of 60_exceptions.md on the checks of a request and of another master's access: O48, O53 and O12. -/

namespace Sys2Proof.Machine

/-- Settles O48: VALIDATE makes its checks in this order before the access, so the first that fails is the fault the
accept step enters; a decoded pin is a 5-bit number. -/
theorem validateOrder : Obligations.ValidateOrder := by
  unfold Obligations.ValidateOrder
  intro s q i hq
  refine ⟨fun n hn h => exec_of_validate_error hq (validate_eq_pinRange hn h),
    fun v hpin hv h => exec_of_validate_error hq (validate_eq_badValue hpin hv h),
    fun hpin hr h => exec_of_validate_error hq (validate_eq_badRecord hpin hr h),
    fun hm hwf hrec => ?_, fun w => pinOk_of_decode_eq_ok⟩
  have hbase : i.validate s q.lat = s.checkBase q.lat.a := validate_eq_checkBase hm hwf hrec
  exact ⟨fun h => exec_of_validate_error hq (hbase.trans (checkBase_eq_misaligned h)),
    fun h ha => exec_of_validate_error hq (hbase.trans (checkBase_eq_unmapped h ha))⟩

/-- Settles O53: a failed check is the whole step of another master, and no step but a Reset clears GFAULT. -/
theorem otherFaultSetsGfault : Obligations.OtherFaultSetsGfault := by
  unfold Obligations.OtherFaultSetsGfault
  intro s a v rest x ho
  have hwrite (hs : s.sched = .otherWrite a v :: rest) (h : s.checkWrite a v = .error x) :
      step s = .next { s with sched := rest, gfault := some (x.code, a) } := by
    rw [step_otherWrite hs, otherWrite_of_error (s := { s with sched := rest }) ho h]
    rfl
  refine ⟨fun hs h => ?_, fun hs h => hwrite hs (checkWrite_of_addr_error h),
    fun b r hs h hv => hwrite hs (checkWrite_of_value_error h hv), fun t m hg hs hm e => ?_⟩
  · rw [step_otherRead hs, otherRead_of_error (s := { s with sched := rest }) ho h]
    rfl
  · obtain heq | hset := step_gfault hs hm e
    · rwa [heq]
    · exact hset

/-- Settles O12: the accept step enters the decoder's verdict on the word. -/
theorem undecodableRequestFaults : Obligations.UndecodableRequestFaults := by
  unfold Obligations.UndecodableRequestFaults
  intro s k q rest hn hf hp hi
  refine ⟨fun hop => ?_, fun op hop hmask => ?_⟩
  · exact step_of_decode_error hn hf hp hi
      (decode_eq_illegalOp_iff.mpr ((opOfCode_eq_none_iff_forall_ne _).mpr hop))
  · exact step_of_decode_error hn hf hp hi ((decode_eq_reservedReq_iff_of_opcode hop).mpr hmask)

end Sys2Proof.Machine
end

section
/-! SUPPORT. The Reset step and what a reset leaves in the sequencers and the ports (10_state.md R59,
70_reset_and_hazards.md R271). -/

namespace Sys2Proof.Machine

/-- The step that is a Reset, whatever the sequencers are doing (70_reset_and_hazards.md R270, R271). -/
theorem step_reset {s : State} {d : ResetDraw} {rest : List Action} (h : s.sched = .reset d :: rest) :
    step s = .next (State.resetFrom s.cfg d s.hist rest) := by
  simp [step, State.advance, h, State.perform, State.resetStep]

section
variable {c : Params} {d : ResetDraw} {h : List Event} {l : List Action}

theorem resetFrom_seqs_length : (State.resetFrom c d h l).seqs.length = c.nseq := by
  simp [State.resetFrom]

theorem resetFrom_rf_length : (State.resetFrom c d h l).rf.length = c.ports.length := by
  simp [State.resetFrom]

/-- A reset leaves nothing of a sequencer: only the drawn operand registers tell two of them apart. -/
theorem eq_atReset_of_mem_resetFrom {q : Seq} (hq : q ∈ (State.resetFrom c d h l).seqs) :
    ∃ o, q = Seq.atReset o := by
  obtain ⟨k, -, rfl⟩ := List.mem_map.mp hq
  exact ⟨_, rfl⟩

/-- The port at an index after a reset is the one its parameters at that index and the drawn level give. -/
theorem resetFrom_rf_getElem? (i : Nat) :
    (State.resetFrom c d h l).rf[i]? =
      c.ports[i]?.map fun pp => Port.atReset c.dirAlias pp (d.ins.getD i 0) :=
  List.getElem?_mapIdx

end

theorem Port.atReset_dir (pp : PortParams) (inp : Word) : (Port.atReset false pp inp).dir = pp.reset.dir := rfl

end Sys2Proof.Machine
end

section
/-! The statement of 70_reset_and_hazards.md on the Reset step: O20. -/

namespace Sys2Proof.Machine

/-- Settles O20: the step is `State.resetFrom` of the parameters and the history alone, so no fault, no HOLD and no
result of the state before it can survive. -/
theorem resetStepEffect : Obligations.ResetStepEffect := by
  unfold Obligations.ResetStepEffect
  intro s d rest hs
  refine ⟨_, step_reset hs, rfl, rfl, rfl, resetFrom_seqs_length, fun q hq => ?_, resetFrom_rf_length,
    fun i p pp hp hpp => ?_⟩
  · obtain ⟨o, rfl⟩ := eq_atReset_of_mem_resetFrom hq
    exact ⟨rfl, rfl, rfl, rfl, rfl, rfl⟩
  · have hport : Port.atReset s.cfg.dirAlias pp (d.ins.getD i 0) = p := by
      simpa [resetFrom_rf_getElem?, hpp] using hp
    subst hport
    refine ⟨rfl, rfl, rfl, rfl, rfl, fun hdir => ?_⟩
    rw [hdir, Port.atReset_dir]

end Sys2Proof.Machine
end

section
/-! SUPPORT. The request word both ways (30_encoding.md R112): its three fields as the encoder puts them there, and a
word without reserved bits as its three fields. -/

namespace Sys2Proof

open Sys2Proof.Machine

/-- The request word with an opcode, a pin field and a value field (30_encoding.md R112). -/
def requestWord (c : BitVec 6) (pin : BitVec 5) (val : Val) : Word :=
  c.setWidth 32 ||| (pin.setWidth 32 <<< 8) ||| (val.setWidth 32 <<< 16)

theorem encode_eq_requestWord (i : Instr) :
    encode i = requestWord (opcode i.op) (BitVec.ofNat 5 (i.pin?.getD 0)) (i.val?.getD 0) := rfl

theorem requestWord_getLsbD (c : BitVec 6) (pin : BitVec 5) (val : Val) {k : Nat} (hk : k < 32) :
    (requestWord c pin val).getLsbD k =
      (c.getLsbD k || (decide (8 ≤ k) && pin.getLsbD (k - 8)) || (decide (16 ≤ k) && val.getLsbD (k - 16))) := by
  have h8 : k - 8 < 32 := by omega
  have h16 : k - 16 < 32 := by omega
  simp only [requestWord, BitVec.getLsbD_or, BitVec.getLsbD_shiftLeft, BitVec.getLsbD_setWidth, hk, h8, h16,
    decide_true, Bool.true_and, ← Nat.not_le, decide_not, Bool.not_not]

@[simp] theorem fieldOp_requestWord (c : BitVec 6) (pin : BitVec 5) (val : Val) :
    fieldOp (requestWord c pin val) = c := by
  apply BitVec.eq_of_getLsbD_eq
  intro k hk
  have h8 : ¬ 8 ≤ k := by omega
  have h16 : ¬ 16 ≤ k := by omega
  rw [fieldOp, BitVec.getLsbD_extractLsb', Nat.zero_add, requestWord_getLsbD c pin val (by omega)]
  simp [hk, h8, h16]

@[simp] theorem fieldPin_requestWord (c : BitVec 6) (pin : BitVec 5) (val : Val) :
    fieldPin (requestWord c pin val) = pin := by
  apply BitVec.eq_of_getLsbD_eq
  intro k hk
  rw [fieldPin, BitVec.getLsbD_extractLsb', requestWord_getLsbD c pin val (by omega)]
  have hop : c.getLsbD (8 + k) = false := BitVec.getLsbD_of_ge _ _ (by omega)
  have h16 : ¬ 16 ≤ 8 + k := by omega
  simp [hk, hop, h16]

@[simp] theorem fieldVal_requestWord (c : BitVec 6) (pin : BitVec 5) (val : Val) :
    fieldVal (requestWord c pin val) = val := by
  apply BitVec.eq_of_getLsbD_eq
  intro k hk
  rw [fieldVal, BitVec.getLsbD_extractLsb', requestWord_getLsbD c pin val (by omega)]
  have hop : c.getLsbD (16 + k) = false := BitVec.getLsbD_of_ge _ _ (by omega)
  have hpin : pin.getLsbD (16 + k - 8) = false := BitVec.getLsbD_of_ge _ _ (by omega)
  simp [hk, hop, hpin]

/-- A word whose reserved bits are 0 is made of its three fields (30_encoding.md R112, R115). -/
theorem requestWord_of_fields {w : Word} (h6 : w.extractLsb' 6 2 = 0) (h13 : w.extractLsb' 13 3 = 0)
    (h19 : w.extractLsb' 19 13 = 0) : requestWord (fieldOp w) (fieldPin w) (fieldVal w) = w := by
  rw [extractLsb'_eq_zero_iff] at h6 h13 h19
  apply BitVec.eq_of_getLsbD_eq
  intro k hk
  have hbit : w.getLsbD k = true → k < 6 ∨ (8 ≤ k ∧ k - 8 < 5) ∨ (16 ≤ k ∧ k - 16 < 3) := by
    intro hw
    by_contra hout
    have hzero : w.getLsbD k = false := by
      obtain h | h | h : (6 ≤ k ∧ k < 8) ∨ (13 ≤ k ∧ k < 16) ∨ 19 ≤ k := by omega
      · exact h6 k h.1 h.2
      · exact h13 k h.1 h.2
      · exact h19 k h hk
    rw [hw] at hzero
    cases hzero
  rw [requestWord_getLsbD _ _ _ hk, fieldOp, fieldPin, fieldVal, Bool.eq_iff_iff]
  simp only [BitVec.getLsbD_extractLsb', Nat.zero_add, Bool.or_eq_true, Bool.and_eq_true, decide_eq_true_eq]
  constructor
  · rintro ((⟨-, hw⟩ | ⟨h8, -, hw⟩) | ⟨h16, -, hw⟩)
    · exact hw
    · rwa [Nat.add_sub_cancel' h8] at hw
    · rwa [Nat.add_sub_cancel' h16] at hw
  · intro hw
    obtain hop | ⟨h8, hpin⟩ | ⟨h16, hval⟩ := hbit hw
    · exact .inl (.inl ⟨hop, hw⟩)
    · exact .inl (.inr ⟨h8, hpin, by rwa [Nat.add_sub_cancel' h8]⟩)
    · exact .inr ⟨h16, hval, by rwa [Nat.add_sub_cancel' h16]⟩

/-- An instruction is the one its row makes of its own operands. -/
theorem Instr.make_operands (i : Instr) : Instr.make i.op (i.pin?.getD 0) (i.val?.getD 0) = i := by
  cases i <;> rfl

theorem Instr.pin?_eq_none {i : Instr} (h : usesPin i.op = false) : i.pin? = none := by
  have hpin := ((Instr.make_eq_iff i _ _).mp i.make_operands).1
  rwa [h, if_neg Bool.false_ne_true] at hpin

theorem Instr.val?_eq_none {i : Instr} (h : usesVal i.op = false) : i.val? = none := by
  have hval := ((Instr.make_eq_iff i _ _).mp i.make_operands).2
  rwa [h, if_neg Bool.false_ne_true] at hval

/-- The pin field of a request word holds every pin it can hold. -/
theorem pinField_toNat {i : Instr} (h : i.Encodable) : (BitVec.ofNat 5 (i.pin?.getD 0)).toNat = i.pin?.getD 0 := by
  cases hp : i.pin? with
  | none => rfl
  | some n => exact Nat.mod_eq_of_lt (h n hp)

end Sys2Proof
end

section
/-! The statements of 30_encoding.md on the request word and its text: O1, O2, O5 and O10. -/

namespace Sys2Proof

open Sys2Proof.Machine

/-- Settles O1: the decoder finds in the three fields what the encoder put there, and the word meets its row's mask. -/
theorem requestRoundTrip : Obligations.RequestRoundTrip := by
  unfold Obligations.RequestRoundTrip
  intro i hi
  have hmask : encode i &&& requestMask i.op = requestMatch i.op :=
    Laws.MatchesRow.of_row i Instr.pin?_eq_none Instr.val?_eq_none hi
  rw [encode_eq_requestWord] at hmask ⊢
  refine decode_eq_ok_iff.mpr ⟨(fieldOp_requestWord ..).symm, hmask, ?_⟩
  rw [fieldPin_requestWord, fieldVal_requestWord, pinField_toNat hi, Instr.make_operands]

/-- Settles O2: a word that decodes has its reserved bits 0, and where the row has no PIN or VAL that field too, so
its three fields make it up. -/
theorem decodedRequestReencodes : Obligations.DecodedRequestReencodes := by
  unfold Obligations.DecodedRequestReencodes
  intro w i hd
  obtain ⟨hop, hmask, hmake⟩ := decode_eq_ok_iff.mp hd
  obtain ⟨h6, h13, h19, hpin0, hval0⟩ := (and_requestMask_eq_iff hop).mp hmask
  obtain ⟨hpin, hval⟩ := (Instr.make_eq_iff i _ _).mp hmake
  have hpinField : BitVec.ofNat 5 (i.pin?.getD 0) = fieldPin w := by
    rw [hpin]
    cases hu : usesPin i.op with
    | true => simp
    | false => exact (hpin0 hu).symm
  have hvalField : i.val?.getD 0 = fieldVal w := by
    rw [hval]
    cases hu : usesVal i.op with
    | true => rfl
    | false => exact (hval0 hu).symm
  refine ⟨pinOk_of_decode_eq_ok hd, ?_⟩
  rw [encode_eq_requestWord, hop, hpinField, hvalField, requestWord_of_fields h6 h13 h19]

/-- Settles O5: seven closed words. -/
theorem sampleWordsDecode : Obligations.SampleWordsDecode := by
  unfold Obligations.SampleWordsDecode
  decide

/-- Settles O10: three closed lines. -/
theorem assembledExamples : Obligations.AssembledExamples := by
  unfold Obligations.AssembledExamples
  decide

end Sys2Proof
end

section
/-! SUPPORT. Every operation in one form: VALIDATE, then one of five bus accesses (30_encoding.md R119,
60_exceptions.md R249). The statements about the operations go through this form and not through the 29 meanings. -/

namespace Sys2Proof

open Sys2Proof.Machine

namespace Machine

/-- The bus access an operation makes at its accept step: its shape and its operand words. -/
inductive Access where
  | load (addr : Word)
  | loadField (addr : Word) (f : Field) (bad : Word)
  | loadRecord (addr : Word)
  | store (addr v : Word)
  | rmw (addr clr set : Word)

/-- The packed word of the record the buses carry; 0 where they carry none, which VALIDATE refuses (60_exceptions.md
R242). -/
def RecBus.word (b : RecBus) : Word :=
  (b.record?.map pack).getD 0

@[simp] theorem RecBus.word_of_record? {b : RecBus} {r : Record} (h : b.record? = some r) : b.word = pack r := by
  rw [RecBus.word, h]
  rfl

end Machine

/-- What an operation that only loads makes of the word read (30_encoding.md R119). -/
def Instr.view (i : Instr) (w : Word) : Word :=
  match i with
  | .readLevel n | .readOutput n | .getLatch n => bitOf w n
  | .getDirection n => directionFlag w n
  | .getDetectMode => w &&& 1
  | .getCfgDir _ => fieldOf .dir w
  | .getInput _ => fieldOf .input w
  | .getDrive _ => fieldOf .drive w
  | _ => w

/-- The access of an operation whose operand registers are `o` (30_encoding.md R119). -/
def Instr.access (i : Instr) (c : Offsets) (o : Operands) : Access :=
  match i with
  | .read32 => .load o.a
  | .write32 => .store o.a o.d0
  | .rmw32 => .rmw o.a o.d0 o.d1
  | .readLevel _ => .load (o.a + c.inp)
  | .readOutput _ => .load (o.a + c.out)
  | .setOutput n => .store (o.a + c.outset) (pinMask n)
  | .clearOutput n => .store (o.a + c.outclr) (pinMask n)
  | .writeOutput n v => .store (o.a + if v = 1 then c.outset else c.outclr) (pinMask n)
  | .getDirection _ => .load (o.a + c.dir)
  | .setDirection n v => .store (o.a + if v = 1 then c.dirset else c.dirclr) (pinMask n)
  | .readLatch | .getLatch _ => .load (o.a + c.latch)
  | .clearLatch n => .store (o.a + c.latch) (pinMask n)
  | .getDetectMode => .load (o.a + c.detectmode)
  | .setDetectMode v => .store (o.a + c.detectmode) (v.setWidth 32)
  | .readConfigRaw n | .getCfgDir n | .getInput n | .getDrive n => .load (cfgAddr o.a n)
  | .readConfig n => .loadRecord (cfgAddr o.a n)
  | .getPull n => .loadField (cfgAddr o.a n) .pull 2
  | .getSense n => .loadField (cfgAddr o.a n) .sense 1
  | .configure n => .store (cfgAddr o.a n) o.record.word
  | .update n => .rmw (cfgAddr o.a n) o.d0 (o.record.word &&& o.d0)
  | .setCfgDir n v => .rmw (cfgAddr o.a n) Field.dir.mask (fieldSet .dir v)
  | .setInput n v => .rmw (cfgAddr o.a n) Field.input.mask (fieldSet .input v)
  | .setPull n v => .rmw (cfgAddr o.a n) Field.pull.mask (fieldSet .pull v)
  | .setDrive n v => .rmw (cfgAddr o.a n) Field.drive.mask (fieldSet .drive v)
  | .setSense n v => .rmw (cfgAddr o.a n) Field.sense.mask (fieldSet .sense v)

namespace Machine

/-- The access made by operation `i` on the latched request `o`. -/
def Access.run (x : Access) (i : Instr) (o : Operands) (s : State) : Except Raise State :=
  match x with
  | .load addr => s.loadOp i.op addr i.view
  | .loadField addr f bad => s.loadFieldOp i.op o addr f bad
  | .loadRecord addr => s.loadRecordOp o addr
  | .store addr v => s.storeOp i.op addr v
  | .rmw addr clr set => s.rmwAccept i.op addr clr set

end Machine

/-- The checks and the access of an accept step on the latched request `o`. -/
def Instr.body (i : Instr) (s : State) (o : Operands) : Except Raise State := do
  i.validate s o
  (i.access s.cfg.offsets o).run i o s

namespace Machine

section
variable {α β : Type} {x : Except Raise α} {f : α → Except Raise Unit} {g : α → Except Raise β}

theorem bind_eq_of_ok {a : α} (h : x = .ok a) : (x >>= g) = g a := by
  rw [h, ok_bind]

/-- After one check in common, a chain goes on as the longer chain does once the checks that follow pass. -/
theorem bind_eq_of_bind_eq_ok {y : Except Raise β} (hfg : ∀ a, x = .ok a → f a = .ok () → g a = y)
    (h : (x >>= f) = .ok ()) : (x >>= g) = y := by
  obtain ⟨a, hx, hf⟩ := bind_eq_ok.mp h
  exact (bind_eq_of_ok hx).trans (hfg a hx hf)

end

/-- The accept step sees its body at the latched request alone. -/
theorem accept_congr {s : State} {q : Seq} {body body' : Operands → Except Raise State}
    (hq : s.seqs[s.actor]? = some q) (h : body q.lat = body' q.lat) : accept s body = accept s body' := by
  simp only [accept, hq, h]

theorem record?_of_checkRec_eq_ok {b : RecBus} {r : Record} (h : checkRec b = .ok r) : b.record? = some r := by
  unfold checkRec at h
  split at h <;> cases h
  assumption

section
variable {s : State} {q : Seq} {i : Instr}

theorem setField_of_checks_ok {op : Op} {f : Field} {n : Nat} {v : Val} (hq : s.seqs[s.actor]? = some q)
    (h : (checkPin n >>= fun _ => checkVal op v >>= fun _ => s.checkBase q.lat.a) = .ok ()) :
    setField op f n v s = accept s fun o => s.rmwAccept op (cfgAddr o.a n) f.mask (fieldSet f v) := by
  refine accept_congr hq ?_
  exact bind_eq_of_bind_eq_ok (fun _ _ => bind_eq_of_bind_eq_ok fun _ _ => bind_eq_of_ok) h

/-- After VALIDATE an accept step is the operation's access. -/
theorem exec_of_validate_ok (hq : s.seqs[s.actor]? = some q) (h : i.validate s q.lat = .ok ()) :
    exec i s = accept s fun o => (i.access s.cfg.offsets o).run i o s := by
  cases i with
  | read32 | write32 | rmw32 => rfl
  | readLatch | getDetectMode =>
    have hbase : s.checkBase q.lat.a = .ok () := h
    rw [exec]
    refine accept_congr hq ?_
    exact bind_eq_of_ok hbase
  | setDetectMode v =>
    have hchecks : (checkVal .setDetectMode v >>= fun _ => s.checkBase q.lat.a) = .ok () := h
    rw [exec]
    refine accept_congr hq ?_
    exact bind_eq_of_bind_eq_ok (fun _ _ => bind_eq_of_ok) hchecks
  | readLevel n | readOutput n | setOutput n | clearOutput n | getDirection n | getLatch n | clearLatch n
  | readConfigRaw n | readConfig n | getCfgDir n | getInput n | getPull n | getDrive n | getSense n =>
    have hchecks : (checkPin n >>= fun _ => s.checkBase q.lat.a) = .ok () := h
    rw [exec]
    refine accept_congr hq ?_
    exact bind_eq_of_bind_eq_ok (fun _ _ => bind_eq_of_ok) hchecks
  | setCfgDir | setInput | setPull | setDrive | setSense => exact setField_of_checks_ok hq h
  | writeOutput n v | setDirection n v =>
    rw [exec]
    refine accept_congr hq ?_
    exact bind_eq_of_bind_eq_ok (fun _ _ => bind_eq_of_bind_eq_ok fun _ _ => bind_eq_of_ok) h
  | configure n | update n =>
    have hchecks : (checkPin n >>= fun _ => discard (checkRec q.lat.record) >>= fun _ => s.checkBase q.lat.a) =
      .ok () := h
    simp only [discard_bind] at hchecks
    rw [exec]
    refine accept_congr hq ?_
    refine bind_eq_of_bind_eq_ok (fun _ _ => bind_eq_of_bind_eq_ok fun r hr hbase => ?_) hchecks
    rw [bind_eq_of_ok hbase]
    simp only [Instr.access, RecBus.word_of_record? (record?_of_checkRec_eq_ok hr)]
    rfl

/-- Every instruction is VALIDATE, then its access (60_exceptions.md R249). -/
theorem exec_eq_accept_body (i : Instr) (s : State) : exec i s = accept s (i.body s) := by
  cases hq : s.seqs[s.actor]? with
  | none => rw [exec_no_seq hq, accept, hq]
  | some q =>
    cases hv : i.validate s q.lat with
    | error r => rw [exec_of_validate_error hq hv, accept_of_error hq (bind_eq_error hv)]
    | ok _ =>
      rw [exec_of_validate_ok hq hv]
      exact accept_congr hq (bind_eq_of_ok hv : i.body s q.lat = _).symm

theorem body_eq_ok_iff {o : Operands} {t : State} :
    i.body s o = .ok t ↔ i.validate s o = .ok () ∧ (i.access s.cfg.offsets o).run i o s = .ok t := by
  rw [Instr.body, bind_eq_ok]
  exact ⟨fun ⟨_, hv, ht⟩ => ⟨hv, ht⟩, fun ⟨hv, ht⟩ => ⟨(), hv, ht⟩⟩

theorem exec_of_access_ok {t : State} (hq : s.seqs[s.actor]? = some q) (hv : i.validate s q.lat = .ok ())
    (ha : (i.access s.cfg.offsets q.lat).run i q.lat s = .ok t) : exec i s = .next t := by
  rw [exec_of_validate_ok hq hv, accept_of_ok hq ha]

theorem exec_of_access_error {r : Raise} (hq : s.seqs[s.actor]? = some q) (hv : i.validate s q.lat = .ok ())
    (ha : (i.access s.cfg.offsets q.lat).run i q.lat s = .error r) :
    exec i s = .next (s.afterFault q r.code r.detail) := by
  rw [exec_of_validate_ok hq hv, accept_of_error hq ha]

/-- An accept step answers a next state: what its body answers, or the entry of the fault the body raises. -/
theorem exec_cases (i : Instr) (hq : s.seqs[s.actor]? = some q) :
    (∃ t, i.body s q.lat = .ok t ∧ exec i s = .next t) ∨
      ∃ r, i.body s q.lat = .error r ∧ exec i s = .next (s.afterFault q r.code r.detail) := by
  rw [exec_eq_accept_body]
  cases hb : i.body s q.lat with
  | ok t => exact .inl ⟨t, rfl, accept_of_ok hq hb⟩
  | error r => exact .inr ⟨r, rfl, accept_of_error hq hb⟩

end

end Machine

end Sys2Proof
end

section
/-! SUPPORT. The access of an operation on a register of a port: what a load, a store and the accept step of a
read-modify-write answer once VALIDATE has passed. -/

namespace Sys2Proof.Machine

/-- An operation of the MMIO layer has no checks but those of its access (60_exceptions.md R243). -/
theorem validate_of_isMmio {i : Instr} (h : i.isMmio = true) (s : State) (o : Operands) : i.validate s o = .ok () := by
  cases i with
  | read32 | write32 | rmw32 => rfl
  | _ => cases h

/-- VALIDATE passes well-formed operands at a port base (60_exceptions.md R242, R243). -/
theorem validate_of_serves {s : State} {q : Seq} {p : Port} {i : Instr} (hs : s.Serves q p) (hwf : i.WellFormed)
    (hrec : i.readsRec = true → ∃ r, q.lat.record.record? = some r) : i.validate s q.lat = .ok () := by
  obtain ⟨⟨ho, hm, hq⟩, hp⟩ := hs
  cases hi : i.isMmio with
  | true => exact validate_of_isMmio hi s q.lat
  | false =>
    rw [validate_eq_checkBase hi hwf fun hr => ?_, checkBase_port hm hp]
    obtain ⟨r, hr⟩ := hrec hr
    have hnot := mt (record?_eq_none_iff q.lat.record).mpr (by simp [hr])
    exact not_or.mp hnot

section
variable {s : State} {q : Seq} {p : Port} {i : Instr} {a b : Word} {r : Reg}
  (hs : s.Acting q) (hp : s.port? b = some p) (ha : a = b + offsetOf s.cfg.offsets r)
  (hv : i.validate s q.lat = .ok ())
include hs hp ha hv

/-- An operation that is one load of a readable register (40_mmio.md R150, 41_port.md R170). -/
theorem exec_load {w : Word} (hi : i.access s.cfg.offsets q.lat = .load a)
    (hread : p.read s.cfg.dirAlias r = some w) :
    exec i s = .next (s.afterLoad i.op a w { q with rdata := some (i.view w) } (.word (i.view w))) := by
  obtain ⟨ho, hm, hq⟩ := hs
  subst ha
  refine exec_of_access_ok hq hv ?_
  rw [hi]
  exact loadOp_port ho hm hq hp i.op hread i.view

/-- An operation that is one store of a value the register takes (40_mmio.md R151, 41_port.md R172). -/
theorem exec_store {v : Word} (hi : i.access s.cfg.offsets q.lat = .store a v) (hr : r ≠ .inp)
    (htakes : r.takes v = true) :
    exec i s = .next (s.afterStore i.op a v (s.rf.withPort b (Port.write s.cfg.dirAlias r v))) := by
  obtain ⟨ho, hm, hq⟩ := hs
  subst ha
  refine exec_of_access_ok hq hv ?_
  rw [hi]
  exact storeOp_port ho hm hp i.op hr (checkWriteValue_eq_ok_iff.mpr htakes)

/-- The accept step of a read-modify-write of a readable and writable register (40_mmio.md R152). -/
theorem exec_rmw {clr set old : Word} (hi : i.access s.cfg.offsets q.lat = .rmw a clr set) (hr : r ≠ .inp)
    (hread : p.read s.cfg.dirAlias r = some old) :
    exec i s = .next (s.afterRmwRead q { addr := a, clr := clr, set := set, old := old, op := i.op }) := by
  obtain ⟨ho, hm, hq⟩ := hs
  subst ha
  refine exec_of_access_ok hq hv ?_
  rw [hi]
  exact rmwAccept_port ho hm hq hp i.op hr hread clr set

end

end Sys2Proof.Machine
end

section
/-! The statements of 40_mmio.md on the accept steps of READ32, WRITE32 and RMW32: O28, O29 and O30. -/

namespace Sys2Proof.Machine

/-- Settles O28: READ32 has no check but CHECK_READ, and its access is the load. -/
theorem read32ReturnsRegister : Obligations.Read32ReturnsRegister := by
  unfold Obligations.Read32ReturnsRegister
  intro s q b p r v hs hp ha hread
  exact exec_load hs hp ha rfl rfl hread

/-- Settles O29: WRITE32's access is the store of D0, which the register takes. -/
theorem write32AppliesWriteEffect : Obligations.Write32AppliesWriteEffect := by
  unfold Obligations.Write32AppliesWriteEffect
  intro s q b p r hs hp ha hr htakes
  exact exec_store hs hp ha rfl rfl hr htakes

/-- Settles O30: RMW32's access is the read that fills HOLD with D0, D1 and the value read. -/
theorem rmw32AcceptHoldsOldValue : Obligations.Rmw32AcceptHoldsOldValue := by
  unfold Obligations.Rmw32AcceptHoldsOldValue
  intro s q b p r v hs hp ha hr hread
  exact exec_rmw hs hp ha rfl rfl hr hread

end Sys2Proof.Machine
end

section
/-! SUPPORT. Reads by address, and the fault each bus check raises (40_mmio.md R153, R154). -/

namespace Sys2Proof.Machine

/-- A read of a register's address reads the register (20_memory.md R71, R80). -/
theorem readWord_port {s : State} (ho : s.cfg.offsets.WF) (hm : s.rf.wf) {b : Word} {p : Port}
    (hp : s.port? b = some p) (r : Reg) :
    s.readWord (b + offsetOf s.cfg.offsets r) = p.read s.cfg.dirAlias r := by
  rw [State.readWord, regAt_port ho hm hp r]
  rfl

/-- A write of a direction register keeps every configuration word's bits but bit 0 (10_state.md R41). -/
theorem scatterDir_and_not_one (cnf : Vector Word 32) (v : Word) (m : Fin 32) :
    (scatterDir cnf v)[m] &&& ~~~1#32 = cnf[m] &&& ~~~1#32 := by
  rw [scatterDir_getElem, withBit0_and (by decide)]

/-- Writing the direction state changes DIR alone, or under P_DIR_ALIAS bit 0 of the configuration words alone
(10_state.md R41). -/
theorem Port.setDirv_frame (a : Bool) (v : Word) (p : Port) :
    { p.setDirv a v with dir := p.dir, cnf := p.cnf } = p ∧ (a = false → (p.setDirv a v).cnf = p.cnf) ∧
      (a = true → (p.setDirv a v).dir = p.dir ∧
        ∀ m : Fin 32, (p.setDirv a v).cnf[m] &&& ~~~1#32 = p.cnf[m] &&& ~~~1#32) := by
  cases a with
  | false =>
    rw [Port.setDirv_false]
    exact ⟨rfl, fun _ => rfl, nofun⟩
  | true =>
    rw [Port.setDirv_true]
    exact ⟨rfl, nofun, fun _ => ⟨rfl, scatterDir_and_not_one p.cnf v⟩⟩

theorem Port.read_eq_none_iff {a : Bool} {p : Port} {r : Reg} : p.read a r = none ↔ r.readable = false := by
  cases r <;> simp [Port.read, Reg.readable]

section
variable {s : State} {a : Word}

theorem aligned_eq_true (h : a.extractLsb' 0 2 = 0) : aligned a = true :=
  beq_iff_eq.mpr h

theorem aligned_eq_false (h : a.extractLsb' 0 2 ≠ 0) : aligned a = false :=
  beq_eq_false_iff_ne.mpr h

theorem checkRead_eq_misaligned (h : a.extractLsb' 0 2 ≠ 0) :
    s.checkRead a = .error { code := .misaligned, detail := .address a } := by
  simp [State.checkRead, aligned_eq_false h]

theorem checkWriteAddr_eq_misaligned (h : a.extractLsb' 0 2 ≠ 0) :
    s.checkWriteAddr a = .error { code := .misaligned, detail := .address a } := by
  simp [State.checkWriteAddr, aligned_eq_false h]

theorem checkRead_eq_unmapped (h : a.extractLsb' 0 2 = 0) (ha : s.regAt a = none) :
    s.checkRead a = .error { code := .unmapped, detail := .address a } := by
  simp [State.checkRead, aligned_eq_true h, ha]

theorem checkWriteAddr_eq_unmapped (h : a.extractLsb' 0 2 = 0) (ha : s.regAt a = none) :
    s.checkWriteAddr a = .error { code := .unmapped, detail := .address a } := by
  simp [State.checkWriteAddr, aligned_eq_true h, ha]

section
variable {p : Port} {r : Reg} (h : a.extractLsb' 0 2 = 0) (ha : s.regAt a = some (p, r))
include h ha

theorem checkRead_eq_writeOnlyRead (hr : p.read s.cfg.dirAlias r = none) :
    s.checkRead a = .error { code := .writeOnlyRead, detail := .address a } := by
  simp [State.checkRead, aligned_eq_true h, ha, hr]

theorem checkRead_eq_ok {v : Word} (hr : p.read s.cfg.dirAlias r = some v) : s.checkRead a = .ok v := by
  simp [State.checkRead, aligned_eq_true h, ha, hr]

theorem checkWriteAddr_of_regAt :
    s.checkWriteAddr a =
      if r = .inp then .error { code := .readOnlyWrite, detail := .address a } else .ok (p.base, r) := by
  simp [State.checkWriteAddr, aligned_eq_true h, ha]

end

end

/-- The values a register refuses, with the fault code CHECK_WRITE_VALUE raises for each (40_mmio.md R154, 10_state.md
R47, R48). -/
def Reg.RefusesWith (r : Reg) (v : Word) (c : FaultCode) : Prop :=
  (r = .detectmode ∧ v >>> 1 ≠ 0 ∧ c = .readOnlyWrite) ∨
    (∃ n, r = .pinCnf n ∧ v &&& 0xFFFCF8F0 ≠ 0 ∧ c = .readOnlyWrite) ∨
    (∃ n, r = .pinCnf n ∧ v &&& 0xFFFCF8F0 = 0 ∧ (v.extractLsb' 2 2 = 2 ∨ v.extractLsb' 16 2 = 1) ∧
      c = .reservedFieldWrite)

theorem checkWriteValue_of_refuses {r : Reg} {v : Word} {c : FaultCode} (h : r.RefusesWith v c) (a : Word) :
    checkWriteValue r a v = .error { code := c, detail := .address a } := by
  obtain ⟨rfl, hv, rfl⟩ | ⟨n, rfl, hv, rfl⟩ | ⟨n, rfl, hv, hcode, rfl⟩ := h
  · exact if_pos (bne_iff_ne.mpr hv)
  · exact if_pos (bne_iff_ne.mpr hv)
  · have hpull : ∀ x : BitVec 2, (x.setWidth 32 : Word) = 2 ↔ x = 2 := by decide
    have hsense : ∀ x : BitVec 2, (x.setWidth 32 : Word) = 1 ↔ x = 1 := by decide
    have hmask : (v &&& rsvMask != 0) = false := bne_eq_false_iff_eq.mpr hv
    have hfields : (fieldOf .pull v == 2 || fieldOf .sense v == 1) = true := by
      rwa [Bool.or_eq_true, beq_iff_eq, beq_iff_eq, fieldOf_pull, fieldOf_sense, hpull, hsense]
    simp only [checkWriteValue, hmask, hfields]
    rfl

/-- A refused value is none the register takes. -/
theorem Reg.RefusesWith.ne_inp {r : Reg} {v : Word} {c : FaultCode} (h : r.RefusesWith v c) : r ≠ .inp := by
  rintro rfl
  obtain ⟨h, -⟩ | ⟨n, h, -⟩ | ⟨n, h, -⟩ := h <;> cases h

section
variable {s : State} {q : Seq} {x : Raise} (hq : s.seqs[s.actor]? = some q)
include hq

/-- READ32 and RMW32 make CHECK_READ first (40_mmio.md R150, R152). -/
theorem exec_of_checkRead_error (h : s.checkRead q.lat.a = .error x) :
    exec .read32 s = .next (s.afterFault q x.code x.detail) ∧
      exec .rmw32 s = .next (s.afterFault q x.code x.detail) := by
  refine ⟨exec_of_access_error hq rfl ?_, exec_of_access_error hq rfl ?_⟩
  · exact bind_eq_error h
  · exact bind_eq_error h

/-- WRITE32 makes CHECK_WRITE_ADDR first (40_mmio.md R151). -/
theorem exec_write32_of_checkWriteAddr_error (h : s.checkWriteAddr q.lat.a = .error x) :
    exec .write32 s = .next (s.afterFault q x.code x.detail) :=
  exec_of_access_error hq rfl (bind_eq_error h)

/-- RMW32 makes CHECK_WRITE_ADDR after CHECK_READ (40_mmio.md R152). -/
theorem exec_rmw32_of_checkWriteAddr_error {v : Word} (hr : s.checkRead q.lat.a = .ok v)
    (h : s.checkWriteAddr q.lat.a = .error x) : exec .rmw32 s = .next (s.afterFault q x.code x.detail) := by
  refine exec_of_access_error hq rfl ((bind_eq_of_ok hr).trans ?_)
  exact bind_eq_error h

/-- WRITE32 makes CHECK_WRITE_VALUE after CHECK_WRITE_ADDR (40_mmio.md R151). -/
theorem exec_write32_of_checkWriteValue_error {b : Word} {r : Reg} (hw : s.checkWriteAddr q.lat.a = .ok (b, r))
    (h : checkWriteValue r q.lat.a q.lat.d0 = .error x) :
    exec .write32 s = .next (s.afterFault q x.code x.detail) := by
  refine exec_of_access_error hq rfl ((bind_eq_of_ok hw).trans ?_)
  exact bind_eq_error h

/-- An address both address checks refuse alike traps every operation of the MMIO layer. -/
theorem exec_mmio_of_checks_error (hr : s.checkRead q.lat.a = .error x) (hw : s.checkWriteAddr q.lat.a = .error x)
    {i : Instr} (hi : i.isMmio = true) : exec i s = .next (s.afterFault q x.code x.detail) := by
  cases i with
  | read32 => exact (exec_of_checkRead_error hq hr).1
  | write32 => exact exec_write32_of_checkWriteAddr_error hq hw
  | rmw32 => exact (exec_of_checkRead_error hq hr).2
  | _ => cases hi

end

end Sys2Proof.Machine
end

section
/-! The statements of 10_state.md and 40_mmio.md on the registers' effects and the traps of an access: O26, O27 and
O31. -/

namespace Sys2Proof.Machine

/-- Settles O26: each clause is the register's row of R43; the three direction registers write the direction state,
whose frame is `Port.setDirv_frame`. -/
theorem registerWriteEffects : Obligations.RegisterWriteEffects := by
  unfold Obligations.RegisterWriteEffects
  intro al p v n
  have hdirs : ∀ r ∈ [Reg.dir, .dirset, .dirclr], ∃ w, p.write al r v = p.setDirv al w := by
    simp only [List.forall_mem_cons]
    exact ⟨⟨_, rfl⟩, ⟨_, rfl⟩, ⟨_, rfl⟩, List.forall_mem_nil _⟩
  refine ⟨rfl, rfl, rfl, Port.dirv_setDirv al _ p, Port.dirv_setDirv al _ p, Port.dirv_setDirv al _ p,
    fun r hr => ?_, rfl, rfl, rfl, fun r => ⟨Port.write_inp al r v p, Port.write_base al r v p⟩⟩
  obtain ⟨w, hw⟩ := hdirs r hr
  rw [hw]
  exact Port.setDirv_frame al w p

/-- Settles O27: each address is mapped to its register, and the four set and clear aliases read as none. -/
theorem registerReadsByAddress : Obligations.RegisterReadsByAddress := by
  unfold Obligations.RegisterReadsByAddress
  intro s b p ho hm hp
  have hread := readWord_port ho hm hp
  refine ⟨hread .out, hread .outset, hread .outclr, hread .inp, hread .dir, hread .dirset, hread .dirclr,
    hread .latch, hread .detectmode, fun n => ?_⟩
  rw [BitVec.add_assoc]
  exact hread (.pinCnf n)

/-- Settles O31: the first check of an operation's access that fails is the fault it enters. -/
theorem mmioAccessTraps : Obligations.MmioAccessTraps := by
  unfold Obligations.MmioAccessTraps
  intro s q hq
  refine ⟨fun ha i hi => ?_, fun ha hreg i hi => ?_, fun p r ha hreg => ?_⟩
  · exact exec_mmio_of_checks_error hq (checkRead_eq_misaligned ha) (checkWriteAddr_eq_misaligned ha) hi
  · exact exec_mmio_of_checks_error hq (checkRead_eq_unmapped ha hreg) (checkWriteAddr_eq_unmapped ha hreg) hi
  · have haddr := checkWriteAddr_of_regAt ha hreg
    have hvalue {c : FaultCode} (hv : r.RefusesWith q.lat.d0 c) :
        exec .write32 s = .next (s.afterFault q c (.address q.lat.a)) := by
      rw [if_neg hv.ne_inp] at haddr
      exact exec_write32_of_checkWriteValue_error hq haddr (checkWriteValue_of_refuses hv q.lat.a)
    refine ⟨fun hr => ?_, fun hr => ?_, fun hr hv => hvalue (.inl ⟨hr, hv, rfl⟩),
      fun n hr hv => hvalue (.inr (.inl ⟨n, hr, hv, rfl⟩)),
      fun n hr hv hc => hvalue (.inr (.inr ⟨n, hr, hv, hc, rfl⟩))⟩
    · exact exec_of_checkRead_error hq (checkRead_eq_writeOnlyRead ha hreg (Port.read_eq_none_iff.mpr hr))
    · subst hr
      rw [if_pos rfl] at haddr
      exact ⟨exec_write32_of_checkWriteAddr_error hq haddr,
        exec_rmw32_of_checkWriteAddr_error hq (checkRead_eq_ok ha hreg rfl) haddr⟩

end Sys2Proof.Machine
end

section
/-! SUPPORT. The step of a scheduled sequencer, case by case (20_memory.md R82, 60_exceptions.md R248): no step where
it is disabled, else its accept step or the write step of its pending read-modify-write. -/

namespace Sys2Proof.Machine

/-- The element put at an index that the list has. -/
theorem getElem?_set_of_getElem? {α : Type} {l : List α} {k : Nat} {x : α} (h : l[k]? = some x) (y : α) :
    (l.set k y)[k]? = some y :=
  List.getElem?_set_self (List.getElem?_eq_some_iff.mp h).1

/-- After the write step of sequencer `k` that writes COMBINE of its HOLD to register `r` of the port at `b`
(40_mmio.md R155). -/
def State.afterRmwWrite (s : State) (k : Nat) (q : Seq) (h : Hold) (b : Word) (r : Reg) : State :=
  { s with actor := k
           rf := s.rf.withPort b (Port.write s.cfg.dirAlias r (combine h.old h.clr h.set))
           seqs := s.seqs.set k { q with phase := .idle }
           hist := s.hist ++ [.bus (.seq k) .write h.addr (combine h.old h.clr h.set), .done k h.op .noValue] }

/-- After fault entry of sequencer `k`, whose registers were `q`, FINFO recording the latched request (60_exceptions.md
R246). -/
def State.afterWriteFault (s : State) (k : Nat) (q : Seq) (c : FaultCode) (d : Detail) : State :=
  { s with actor := k, seqs := s.seqs.set k (q.faulted q.lat c d) }

section
variable {s : State} {k : Nat} {q : Seq} {h : Hold} (hq : s.seqs[k]? = some q)
include hq

theorem writeStep_of_checks_ok {b : Word} {r : Reg} (hw : s.checkWriteAddr h.addr = .ok (b, r))
    (hv : checkWriteValue r h.addr (combine h.old h.clr h.set) = .ok ()) :
    s.writeStep k q h = .next (s.afterRmwWrite k q h b r) := by
  have hseq := modify_eq_set_of_getElem? _ _ (Seq.setPhase .idle) _ hq
  have hrmw : ({ s with actor := k } : State).rmwWrite h = .ok (s.afterRmwWrite k q h b r) := by
    refine (bind_eq_of_ok hw).trans ((bind_eq_of_ok hv).trans ?_)
    simp [State.memWrite, State.modifyPort, State.log, State.setPhase, State.modifySeq, hseq, Seq.setPhase,
      State.emitDone, State.afterRmwWrite, Memory.withPort, pure, Except.pure]
  simp only [State.writeStep, hrmw]

theorem writeStep_of_error {x : Raise} (hx : ({ s with actor := k } : State).rmwWrite h = .error x) :
    s.writeStep k q h = .next (s.afterWriteFault k q x.code x.detail) := by
  have hfault := enterFault_eq (s := { s with actor := k }) hq x
  simp only [State.writeStep, hx, hfault]
  rfl

/-- A write step writes, its checks passed, or enters the fault they raise (40_mmio.md R155, R156). -/
theorem writeStep_cases (h : Hold) :
    (∃ b r, s.checkWriteAddr h.addr = .ok (b, r) ∧
      checkWriteValue r h.addr (combine h.old h.clr h.set) = .ok () ∧
      s.writeStep k q h = .next (s.afterRmwWrite k q h b r)) ∨
    ∃ x : Raise, ({ s with actor := k } : State).rmwWrite h = .error x ∧
      s.writeStep k q h = .next (s.afterWriteFault k q x.code x.detail) := by
  cases hx : ({ s with actor := k } : State).rmwWrite h with
  | ok t =>
    obtain ⟨b, r, hw, hv, -⟩ := rmwWrite_ok hx
    exact .inl ⟨b, r, hw, hv, writeStep_of_checks_ok hq hw hv⟩
  | error x => exact .inr ⟨x, rfl, writeStep_of_error hq hx⟩

/-- An accept step on a word that decodes is the instruction's meaning on the request latched (10_state.md R33). -/
theorem acceptStep_of_decode_ok {i : Instr} (hd : decode q.ops.req = .ok i) :
    s.acceptStep k q = exec i { s with actor := k, seqs := s.seqs.set k q.latch } := by
  simp only [State.acceptStep, hd, State.modifySeq, modify_eq_set_of_getElem? _ _ _ _ hq]

end

section
variable {s t : State} {k : Nat} {q : Seq} {rest : List Action}

/-- An accepting sequencer acts on the request it has latched. -/
theorem accepting_actor (hq : s.seqs[k]? = some q) :
    (s.accepting k q rest).seqs[(s.accepting k q rest).actor]? = some q.latch :=
  getElem?_set_of_getElem? hq q.latch

/-- A sequencer that is faulted, or idle with no request, has no step (60_exceptions.md R248, log 3). -/
theorem step_of_disabled (hn : s.Next k q rest) (h : q.fault = true ∨ (q.phase = .idle ∧ q.issued = false)) :
    step s = .next { s with sched := rest } := by
  obtain ⟨hs, hq⟩ := hn
  obtain hf | ⟨hp, hi⟩ := h
  · simp [step, State.advance, hs, State.perform, State.seqStep, hq, hf]
  · simp [step, State.advance, hs, State.perform, State.seqStep, hq, hp, Seq.canAccept, hi]

theorem step_of_decode_ok {i : Instr} (hn : s.Next k q rest) (hf : q.fault = false) (hp : q.phase = .idle)
    (hi : q.issued = true) (hd : decode q.ops.req = .ok i) : step s = exec i (s.accepting k q rest) := by
  rw [step_of_idle_issued hn hf hp hi, acceptStep_of_decode_ok (s := { s with sched := rest }) hn.2 hd]

/-- The step of sequencer `k`, whose registers are `q`, when it is next. -/
inductive SeqStep (s : State) (k : Nat) (q : Seq) (rest : List Action) : State → Prop where
  | disabled (h : q.fault = true ∨ (q.phase = .idle ∧ q.issued = false)) :
      SeqStep s k q rest { s with sched := rest }
  | undecodable (c : FaultCode) (hf : q.fault = false) (hp : q.phase = .idle) (hi : q.issued = true)
      (hd : decode q.ops.req = .error c) :
      SeqStep s k q rest { s with sched := rest, actor := k,
                                  seqs := s.seqs.set k (q.latch.faulted q.ops c .nothing) }
  | accept (i : Instr) (t : State) (hf : q.fault = false) (hp : q.phase = .idle) (hi : q.issued = true)
      (hd : decode q.ops.req = .ok i) (he : exec i (s.accepting k q rest) = .next t) : SeqStep s k q rest t
  | write (h : Hold) (b : Word) (r : Reg) (hf : q.fault = false) (hp : q.phase = .rmwPending h)
      (hw : s.checkWriteAddr h.addr = .ok (b, r))
      (hv : checkWriteValue r h.addr (combine h.old h.clr h.set) = .ok ()) :
      SeqStep s k q rest (({ s with sched := rest } : State).afterRmwWrite k q h b r)
  | writeFault (h : Hold) (x : Raise) (hf : q.fault = false) (hp : q.phase = .rmwPending h)
      (hx : ({ s with sched := rest, actor := k } : State).rmwWrite h = .error x) :
      SeqStep s k q rest (({ s with sched := rest } : State).afterWriteFault k q x.code x.detail)

/-- What a scheduled sequencer's step does. -/
theorem step_seqStep (hn : s.Next k q rest) (e : step s = .next t) : SeqStep s k q rest t := by
  have hq : ({ s with sched := rest } : State).seqs[k]? = some q := hn.2
  cases hf : q.fault with
  | true =>
    cases (step_of_disabled hn (.inl hf)).symm.trans e
    exact .disabled (.inl hf)
  | false =>
    cases hp : q.phase with
    | rmwPending h =>
      rw [step_of_rmwPending hn hf hp] at e
      obtain ⟨b, r, hw, hv, ht⟩ | ⟨x, hx, ht⟩ := writeStep_cases hq h
      · cases ht.symm.trans e
        exact .write h b r hf hp hw hv
      · cases ht.symm.trans e
        exact .writeFault h x hf hp hx
    | idle =>
      cases hi : q.issued with
      | false =>
        cases (step_of_disabled hn (.inr ⟨hp, hi⟩)).symm.trans e
        exact .disabled (.inr ⟨hp, hi⟩)
      | true =>
        cases hd : decode q.ops.req with
        | error c =>
          cases (step_of_decode_error hn hf hp hi hd).symm.trans e
          exact .undecodable c hf hp hi hd
        | ok i => exact .accept i t hf hp hi hd ((step_of_decode_ok hn hf hp hi hd).symm.trans e)

end

/-- An accept step of a sequencer that exists answers a next state (60_exceptions.md R246). -/
theorem exec_answers_next (i : Instr) {s : State} {q : Seq} (hq : s.seqs[s.actor]? = some q) :
    ∃ t, exec i s = .next t := by
  obtain ⟨t, -, ht⟩ | ⟨r, -, ht⟩ := exec_cases i hq
  · exact ⟨t, ht⟩
  · exact ⟨_, ht⟩

/-- A scheduled sequencer's step answers a next state, be the sequencer there or not. -/
theorem seqStep_answers_next (k : Nat) (s : State) : ∃ t, s.seqStep k = .next t := by
  unfold State.seqStep
  split
  · exact ⟨_, rfl⟩
  · rename_i q hq
    split
    · exact ⟨_, rfl⟩
    · split
      · rename_i h _
        obtain ⟨b, r, -, -, ht⟩ | ⟨x, -, ht⟩ := writeStep_cases hq h
        · exact ⟨_, ht⟩
        · exact ⟨_, ht⟩
      · split
        · cases hd : decode q.ops.req with
          | error c => exact ⟨_, acceptStep_of_decode_error hq hd⟩
          | ok i =>
            rw [acceptStep_of_decode_ok hq hd]
            exact exec_answers_next i (getElem?_set_of_getElem? hq q.latch)
        · exact ⟨_, rfl⟩

end Sys2Proof.Machine
end

section
/-! The statements on the step, scheduling and the hold: O11, O13, O14, O15 and O32. -/

namespace Sys2Proof.Machine

/-- Settles O11: an idle, unfaulted sequencer with a request issued takes its accept step. -/
theorem stepRunsDecodedRequest : Obligations.StepRunsDecodedRequest := by
  unfold Obligations.StepRunsDecodedRequest
  intro s k q rest i hn hf hp hi hd
  exact step_of_decode_ok hn hf hp hi hd

/-- Settles O13: a faulted sequencer has no step. -/
theorem faultedSequencerTakesNoStep : Obligations.FaultedSequencerTakesNoStep := by
  unfold Obligations.FaultedSequencerTakesNoStep
  intro s k q rest hn hf
  exact step_of_disabled hn (.inl hf)

/-- Settles O14: the write step writes or enters a fault, and either way it ends IDLE and keeps the rest of the
requester's side. -/
theorem pendingWriteStepReturnsToIdle : Obligations.PendingWriteStepReturnsToIdle := by
  unfold Obligations.PendingWriteStepReturnsToIdle
  intro s k q rest h hn hf hp
  have hq : ({ s with sched := rest } : State).seqs[k]? = some q := hn.2
  rw [step_of_rmwPending hn hf hp]
  obtain ⟨b, r, -, -, ht⟩ | ⟨x, -, ht⟩ := writeStep_cases hq h
  · exact ⟨_, _, ht, getElem?_set_of_getElem? hq _, rfl, rfl, rfl, rfl⟩
  · exact ⟨_, _, ht, getElem?_set_of_getElem? hq _, rfl, rfl, rfl, rfl⟩

/-- Settles O15: a sequencer's accept step answers a next state because the acting sequencer exists, and every other
move is a total update. -/
theorem everyStepAnswersNext : Obligations.EveryStepAnswersNext := by
  unfold Obligations.EveryStepAnswersNext
  intro s
  unfold step State.advance
  split
  · exact ⟨_, rfl⟩
  · rename_i a rest _
    cases a with
    | seq k => exact seqStep_answers_next k _
    | operand | issue | consume | envIn | envLatch | otherRead | otherWrite | reset => exact ⟨_, rfl⟩

/-- Settles O32: at a register of a port the address check passes, so the value check alone decides between the write
and the fault. -/
theorem rmwWriteStep : Obligations.RmwWriteStep := by
  unfold Obligations.RmwWriteStep
  refine ⟨fun s k q rest h b p r hn hf hph ho hm hp ha hr => ⟨fun hv => ?_, fun c hc => ?_⟩,
    fun s k q rest hn h => step_of_disabled hn h⟩
  · exact step_rmwWrite_port hn hf hph ho hm hp ha hr hv
  · have hrefuse : r.RefusesWith (combine h.old h.clr h.set) c := hc
    have hw : s.checkWriteAddr h.addr = .ok (b, r) := by rw [ha, checkWriteAddr_port ho hm hp hr]
    rw [step_of_rmwPending hn hf hph]
    refine writeStep_of_error (s := { s with sched := rest }) (x := { code := c, detail := .address h.addr }) hn.2 ?_
    refine (bind_eq_of_ok hw).trans ?_
    exact bind_eq_error (checkWriteValue_of_refuses hrefuse h.addr)

end Sys2Proof.Machine
end

section
/-! SUPPORT. What every step keeps of the whole machine: the parameters, the bases of the ports, the past of the
history, and what the invariant says of each sequencer (10_state.md R49, 70_reset_and_hazards.md R273). -/

namespace Sys2Proof.Machine

/-! ### The parameters, the ports and the history -/

theorem Effect.cfg_eq {s t : State} {q : Seq} (h : Effect s q t) : t.cfg = s.cfg := by
  cases h <;> rfl

theorem step_cfg {s t : State} (e : step s = .next t) : t.cfg = s.cfg := by
  cases step_effect e with
  | accept k q rest i _ hn hf hp hd he => exact he.cfg_eq
  | nobody | skip | undecodable | write | writeFault | operand | issue | consume | envIn | envLatch | otherRead
  | otherWrite | otherFault | reset => rfl

theorem Memory.withPort_bases (m : Memory) (b : Word) {f : Port → Port} (hf : ∀ p, (f p).base = p.base) :
    (m.withPort b f).map (·.base) = m.map (·.base) :=
  map_base_modify m b hf

/-- Every step keeps the bases of the register file, where they are `PORT_BASES` (70_reset_and_hazards.md R273). -/
theorem step_bases {s t : State} (hb : s.rf.map (·.base) = s.cfg.ports.map (·.base)) (e : step s = .next t) :
    t.rf.map (·.base) = s.rf.map (·.base) := by
  cases step_registerChange e with
  | same hrf => rw [hrf]
  | write ag b r addr v hw => rw [hw.rf_eq, Memory.withPort_bases _ _ fun p => Port.write_base _ r v p]
  | envIn b v rest h hrf | envLatch b v rest h hrf =>
    rw [hrf]
    exact Memory.withPort_bases _ _ fun _ => rfl
  | reset d rest h => rw [resetFrom_bases, hb]

theorem Effect.hist_eq {s t : State} {q : Seq} (h : Effect s q t) : ∃ l, t.hist = s.hist ++ l := by
  cases h with
  | fault => exact ⟨[], (List.append_nil _).symm⟩
  | loadFault | rmwRead => exact ⟨_, rfl⟩
  | load | loadRecord | store => exact ⟨_, List.append_assoc ..⟩

theorem step_hist {s t : State} (e : step s = .next t) : ∃ l, t.hist = s.hist ++ l := by
  cases step_effect e with
  | accept k q rest i _ hn hf hp hd he => exact he.hist_eq
  | nobody | skip | undecodable | writeFault | operand | issue | consume | otherFault =>
    exact ⟨[], (List.append_nil _).symm⟩
  | write | envIn | envLatch | otherRead | otherWrite | reset => exact ⟨_, rfl⟩

/-! ### The address map under a change of the ports that keeps their bases -/

section
variable {s t : State} {a : Word}

/-- What an address names, by the bases of the ports alone (20_memory.md R71). -/
theorem regAt_map_base : (s.regAt a).map (fun x => (x.1.base, x.2)) =
    (s.rf.map (·.base)).findSome? fun b => (regOfOffset s.cfg.offsets (a - b)).map fun r => (b, r) := by
  rw [State.regAt, List.map_findSome?, List.findSome?_map]
  congr 1
  funext p
  simp [Function.comp_def]

/-- CHECK_WRITE_ADDR depends on the offsets and the bases alone. -/
theorem checkWriteAddr_congr (hc : t.cfg = s.cfg) (hb : t.rf.map (·.base) = s.rf.map (·.base)) :
    t.checkWriteAddr a = s.checkWriteAddr a := by
  have hmap : (t.regAt a).map (fun x => (x.1.base, x.2)) = (s.regAt a).map (fun x => (x.1.base, x.2)) := by
    rw [regAt_map_base, regAt_map_base, hc, hb]
  unfold State.checkWriteAddr
  cases ht : t.regAt a <;> cases hs : s.regAt a <;> simp_all

theorem checkRead_ok {v : Word} (h : s.checkRead a = .ok v) :
    ∃ p r, s.regAt a = some (p, r) ∧ p.read s.cfg.dirAlias r = some v := by
  unfold State.checkRead at h
  split at h
  · cases h
  · split at h
    · cases h
    · rename_i p r hreg
      split at h <;> cases h
      exact ⟨p, r, hreg, ‹_›⟩

theorem checkWriteAddr_ok {b : Word} {r : Reg} (h : s.checkWriteAddr a = .ok (b, r)) :
    ∃ p, s.regAt a = some (p, r) ∧ p.base = b ∧ r ≠ .inp := by
  unfold State.checkWriteAddr at h
  split at h
  · cases h
  · split at h
    · cases h
    · rename_i p r' hreg
      split at h <;> cases h
      exact ⟨p, hreg, rfl, ‹_›⟩

/-- The register of an address both checks pass can be read. -/
theorem readable_of_checks_ok {v b : Word} {r : Reg} (hr : s.checkRead a = .ok v)
    (hw : s.checkWriteAddr a = .ok (b, r)) : r.readable = true := by
  obtain ⟨p, r', hreg, hread⟩ := checkRead_ok hr
  obtain ⟨p', hreg', -, -⟩ := checkWriteAddr_ok hw
  obtain ⟨rfl, rfl⟩ := Prod.mk.inj (Option.some.inj (hreg.symm.trans hreg'))
  by_contra hnot
  rw [Port.read_eq_none_iff.mpr (by simpa using hnot)] at hread
  cases hread

end

/-! ### The sequencers -/

/-- What the invariant says of one sequencer (60_exceptions.md R246, 40_mmio.md R155). -/
def Seq.Ok (s : State) (q : Seq) : Prop :=
  q.FaultOk ∧ q.holdOk s = true

theorem Seq.holdOk_of_idle {s : State} {q : Seq} (h : q.phase = .idle) : q.holdOk s = true := by
  rw [Seq.holdOk, h]

theorem Seq.holdOk_of_pending {s : State} {q : Seq} {h : Hold} {b : Word} {r : Reg}
    (hp : q.phase = .rmwPending h) (hw : s.checkWriteAddr h.addr = .ok (b, r)) (hr : r.readable = true) :
    q.holdOk s = true := by
  rw [Seq.holdOk, hp]
  simp only [hw, hr]

theorem Seq.holdOk_congr {s t : State} {q q' : Seq} (hw : ∀ a, t.checkWriteAddr a = s.checkWriteAddr a)
    (hp : q'.phase = q.phase) : q'.holdOk t = q.holdOk s := by
  rw [Seq.holdOk, Seq.holdOk, hp]
  simp only [hw]

section
variable {s : State} {q : Seq}

/-- What the requester writes has no part in a sequencer's invariant, nor has a result. -/
theorem Seq.Ok.congr {q' : Seq} (h : q.Ok s) (hp : q'.phase = q.phase) (hf : q'.fault = q.fault)
    (hc : q'.cause = q.cause) (hi : q'.finfo = q.finfo) : q'.Ok s := by
  obtain ⟨hfault, hhold⟩ := h
  refine ⟨?_, (Seq.holdOk_congr (fun _ => rfl) hp).trans hhold⟩
  rwa [Seq.FaultOk, hp, hf, hc, hi]

theorem Seq.Ok.latch (h : q.Ok s) : q.latch.Ok s := h.congr rfl rfl rfl rfl

theorem Seq.Ok.setRdata (h : q.Ok s) (v : Word) : (q.setRdata v).Ok s := h.congr rfl rfl rfl rfl

theorem Seq.Ok.setRrec (h : q.Ok s) (r : Record) : (q.setRrec r).Ok s := h.congr rfl rfl rfl rfl

theorem Seq.Ok.faulted (q : Seq) (o : Operands) (c : FaultCode) (d : Detail) : (q.faulted o c d).Ok s :=
  ⟨⟨rfl, rfl, fun _ => rfl⟩, Seq.holdOk_of_idle rfl⟩

theorem Seq.Ok.toIdle (h : q.Ok s) : Seq.Ok s { q with phase := .idle } := by
  obtain ⟨⟨hc, hi, -⟩, -⟩ := h
  exact ⟨⟨hc, hi, fun _ => rfl⟩, Seq.holdOk_of_idle rfl⟩

/-- An unfaulted sequencer that accepts a read-modify-write holds an address both checks passed. -/
theorem Seq.Ok.toPending (h : q.Ok s) (hf : q.fault = false) {m : Hold} {v b : Word} {r : Reg}
    (hr : s.checkRead m.addr = .ok v) (hw : s.checkWriteAddr m.addr = .ok (b, r)) :
    Seq.Ok s (q.setPhase (.rmwPending m)) := by
  obtain ⟨⟨hc, hi, -⟩, -⟩ := h
  refine ⟨⟨hc, hi, fun ht => ?_⟩, Seq.holdOk_of_pending rfl hw (readable_of_checks_ok hr hw)⟩
  cases hf.symm.trans ht

end

theorem forall_mem_set {α : Type} {P : α → Prop} {l : List α} (h : ∀ x ∈ l, P x) (k : Nat) {y : α} (hy : P y) :
    ∀ x ∈ l.set k y, P x := by
  intro x hx
  obtain hx | rfl := List.mem_or_eq_of_mem_set hx
  · exact h x hx
  · exact hy

theorem forall_mem_modify {α : Type} {P : α → Prop} {l : List α} (h : ∀ x ∈ l, P x) (k : Nat) {f : α → α}
    (hf : ∀ x, l[k]? = some x → P x → P (f x)) : ∀ x ∈ l.modify k f, P x := by
  cases hk : l[k]? with
  | none =>
    rw [List.modify_eq_self (List.getElem?_eq_none_iff.mp hk)]
    exact h
  | some y =>
    rw [modify_eq_set_of_getElem? l k f y hk]
    exact forall_mem_set h k (hf y hk (h y (List.mem_of_getElem? hk)))

section
variable {s t : State}

/-- An accepted request keeps what the invariant says of the sequencers. -/
theorem Effect.seqs_ok {q : Seq} (he : Effect s q t) (hq : s.seqs[s.actor]? = some q) (hf : q.fault = false)
    (h : ∀ x ∈ s.seqs, x.Ok s) : ∀ x ∈ t.seqs, x.Ok s := by
  cases he with
  | fault r | loadFault addr v hr => exact forall_mem_modify h _ fun x _ _ => Seq.Ok.faulted x ..
  | load op addr v w => exact forall_mem_modify h _ fun x _ hx => hx.setRdata w
  | loadRecord addr v r =>
    exact forall_mem_modify (forall_mem_modify h _ fun x _ hx => hx.setRdata v) _ fun x _ hx => hx.setRrec r
  | store => exact h
  | rmwRead op addr clr set old b r hr hw =>
    refine forall_mem_modify h _ fun x hx hok => ?_
    cases hq.symm.trans hx
    exact hok.toPending hf hr hw

theorem resetFrom_seqs_ok {c : Params} {d : ResetDraw} {h : List Event} {l : List Action} {u : State} :
    ∀ x ∈ (State.resetFrom c d h l).seqs, x.Ok u := by
  intro x hx
  obtain ⟨o, rfl⟩ := eq_atReset_of_mem_resetFrom hx
  exact ⟨⟨rfl, rfl, nofun⟩, rfl⟩

theorem step_seqs_ok (h : ∀ x ∈ s.seqs, x.Ok s) (e : step s = .next t) : ∀ x ∈ t.seqs, x.Ok s := by
  cases step_effect e with
  | nobody | skip | envIn | envLatch | otherRead | otherWrite | otherFault => exact h
  | undecodable k q rest c hn =>
    exact forall_mem_set (forall_mem_set h k (h q (List.mem_of_getElem? hn.2)).latch) k (Seq.Ok.faulted ..)
  | accept k q rest i _ hn hf hp hd he =>
    exact he.seqs_ok (accepting_actor hn.2) hf (forall_mem_set h k (h q (List.mem_of_getElem? hn.2)).latch)
  | write k q rest m b r hn => exact forall_mem_set h k (h q (List.mem_of_getElem? hn.2)).toIdle
  | writeFault k q => exact forall_mem_set h k (Seq.Ok.faulted ..)
  | operand k | issue k => exact forall_mem_modify h k fun x _ hx => hx.congr rfl rfl rfl rfl
  | consume k r =>
    refine forall_mem_modify h k fun x _ hx => ?_
    split
    · exact hx
    · exact Seq.Ok.faulted ..
  | reset => exact resetFrom_seqs_ok

end

end Sys2Proof.Machine
end

section
/-! SUPPORT. The machine invariant after a reset and after a step. -/

namespace Sys2Proof.Machine

/-! ### The registers of a port -/

theorem Port.setDirv_true_dir (v : Word) (p : Port) : (p.setDirv true v).dir = p.dir := by
  rw [Port.setDirv_true]

/-- Under P_DIR_ALIAS no write touches the direction storage that does not exist (10_state.md R41, log 16). -/
theorem Port.write_true_dir (r : Reg) (v : Word) (p : Port) : (p.write true r v).dir = p.dir := by
  cases r with
  | dir | dirset | dirclr => exact Port.setDirv_true_dir _ p
  | out | outset | outclr | inp | latch | detectmode | pinCnf => rfl

theorem Port.Legal.write {a : Bool} {p : Port} (h : p.Legal a) {r : Reg} {v : Word} (hv : r.takes v = true) :
    (p.write a r v).Legal a := by
  obtain ⟨hcnf, hdir⟩ := h
  refine ⟨CnfLegal.write hcnf a hv, fun ha => ?_⟩
  subst ha
  rw [Port.write_true_dir, hdir rfl]

theorem resetFrom_rf_legal {c : Params} (hc : c.WF) (d : ResetDraw) (h : List Event) (l : List Action) :
    ∀ p ∈ (State.resetFrom c d h l).rf, p.Legal c.dirAlias := by
  intro p hp
  refine ⟨cnfLegal_resetFrom hc d h l p hp, fun ha => ?_⟩
  obtain ⟨i, hi, rfl⟩ := List.mem_mapIdx.mp hp
  exact if_pos ha

section
variable {s t : State}

theorem step_rf_legal (hc : s.cfg.WF) (h : ∀ p ∈ s.rf, p.Legal s.cfg.dirAlias) (e : step s = .next t) :
    ∀ p ∈ t.rf, p.Legal s.cfg.dirAlias := by
  cases step_registerChange e with
  | same hrf => rwa [hrf]
  | write ag b r addr v hw =>
    have hv := checkWriteValue_eq_ok_iff.mp hw.value_ok
    rw [hw.rf_eq]
    exact Memory.forall_mem_withPort h fun p hp => hp.write hv
  | envIn b v rest hs hrf | envLatch b v rest hs hrf =>
    rw [hrf]
    exact Memory.forall_mem_withPort h fun _ hp => hp
  | reset d rest => exact resetFrom_rf_legal hc d s.hist rest

theorem Effect.seqs_length {q : Seq} (h : Effect s q t) : t.seqs.length = s.seqs.length := by
  cases h with
  | store => rfl
  | fault | load | loadFault | rmwRead => exact List.length_modify ..
  | loadRecord => exact (List.length_modify ..).trans (List.length_modify ..)

theorem step_seqs_length (h : s.seqs.length = s.cfg.nseq) (e : step s = .next t) :
    t.seqs.length = s.cfg.nseq := by
  cases step_effect e with
  | nobody | skip | envIn | envLatch | otherRead | otherWrite | otherFault => exact h
  | undecodable k q rest => exact (List.length_set ..).trans ((List.length_set ..).trans h)
  | accept k q rest i _ hn hf hp hd he => exact he.seqs_length.trans ((List.length_set ..).trans h)
  | write | writeFault => exact (List.length_set ..).trans h
  | operand | issue | consume => exact (List.length_modify ..).trans h
  | reset => exact resetFrom_seqs_length

/-- The two parts of the invariant on sequencers, as one property of each. -/
theorem inv_iff : s.Inv ↔ s.cfg.WF ∧ s.rf.map (·.base) = s.cfg.ports.map (·.base) ∧
    (∀ p ∈ s.rf, p.Legal s.cfg.dirAlias) ∧ s.seqs.length = s.cfg.nseq ∧ ∀ q ∈ s.seqs, q.Ok s := by
  simp only [State.Inv, Seq.Ok, forall_and]

/-- Every reset under well-formed parameters establishes the invariant (70_reset_and_hazards.md R271). -/
theorem resetFrom_inv {c : Params} (hc : c.WF) (d : ResetDraw) (h : List Event) (l : List Action) :
    (State.resetFrom c d h l).Inv :=
  inv_iff.mpr ⟨hc, resetFrom_bases c d h l, resetFrom_rf_legal hc d h l, resetFrom_seqs_length,
    resetFrom_seqs_ok⟩

end

end Sys2Proof.Machine
end

section
/-! The statements on the machine invariant, the parameters and the history: O16, O17, O18, O21 and O22. -/

namespace Sys2Proof.Machine

/-- Settles O16: no step changes the parameters or the bases, so an address a HOLD has passed its checks with passes
them after the step; every write takes its register's value checks first. -/
theorem stepKeepsInvariant : Obligations.StepKeepsInvariant := by
  unfold Obligations.StepKeepsInvariant
  intro s t hinv e
  obtain ⟨hc, hb, hp, hl, hq⟩ := inv_iff.mp hinv
  have hcfg := step_cfg e
  have hbases := step_bases hb e
  have hcheck (a : Word) : t.checkWriteAddr a = s.checkWriteAddr a := checkWriteAddr_congr hcfg hbases
  rw [inv_iff, hcfg]
  refine ⟨hc, hbases.trans hb, step_rf_legal hc hp e, step_seqs_length hl e, fun q hmem => ?_⟩
  obtain ⟨hfault, hhold⟩ := step_seqs_ok hq e q hmem
  exact ⟨hfault, (Seq.holdOk_congr hcheck rfl).trans hhold⟩

/-- Settles O17: the parameters EX are well-formed. -/
theorem resetSatisfiesInvariant : Obligations.ResetSatisfiesInvariant := by
  unfold Obligations.ResetSatisfiesInvariant
  exact resetFrom_inv ex_wf _ _ _

/-- Settles O18: a Reset leaves nothing of the state before it but the parameters and the history. -/
theorem resetEstablishesInvariant : Obligations.ResetEstablishesInvariant := by
  unfold Obligations.ResetEstablishesInvariant
  intro s t d rest hc hs e
  cases (step_reset hs).symm.trans e
  exact resetFrom_inv hc d s.hist rest

/-- Settles O21: a Reset makes one port for each of PORT_BASES, and every other step keeps the ports' bases. -/
theorem parametersNeverChange : Obligations.ParametersNeverChange := by
  unfold Obligations.ParametersNeverChange
  exact fun s t e => ⟨step_cfg e, fun hb => step_bases hb e⟩

/-- Settles O22: every step appends its events, a Reset its own. -/
theorem historyOnlyGrows : Obligations.HistoryOnlyGrows := by
  unfold Obligations.HistoryOnlyGrows
  exact fun s t e => step_hist e

end Sys2Proof.Machine
end

section
/-! SUPPORT. What VALIDATE's verdict says of the operands (60_exceptions.md R242, R243), and the register the access of
a validated port or configuration operation reaches (20_memory.md R74, 30_encoding.md R119). -/

namespace Sys2Proof.Machine

section
variable {s : State} {i : Instr} {o : Operands}

theorem pinOk_of_validate_ok (h : i.validate s o = .ok ()) : i.PinOk := by
  intro n hn
  by_contra hlt
  cases (validate_eq_pinRange hn (Nat.le_of_not_lt hlt)).symm.trans h

theorem valOk_of_validate_ok (h : i.validate s o = .ok ()) : i.ValOk := by
  intro v hv
  by_contra hmem
  cases (validate_eq_badValue (pinOk_of_validate_ok h) hv hmem).symm.trans h

theorem record_of_validate_ok (h : i.validate s o = .ok ()) (hr : i.readsRec = true) :
    ∃ r, o.record.record? = some r := by
  by_contra hnone
  have hbad := (record?_eq_none_iff o.record).mp (Option.eq_none_iff_forall_ne_some.mpr (not_exists.mp hnone))
  cases (validate_eq_badRecord (pinOk_of_validate_ok h) hr hbad).symm.trans h

theorem codes_of_record?_eq_some {b : RecBus} {r : Record} (h : b.record? = some r) : b.pull ≠ 2 ∧ b.sense ≠ 1 := by
  have hnot := mt (record?_eq_none_iff b).mpr (by simp [h])
  exact not_or.mp hnot

theorem checkBase_of_validate_ok (h : i.validate s o = .ok ()) (hm : i.isMmio = false) :
    s.checkBase o.a = .ok () := by
  have hrec (hr : i.readsRec = true) : o.record.pull ≠ 2 ∧ o.record.sense ≠ 1 := by
    obtain ⟨r, hr⟩ := record_of_validate_ok h hr
    exact codes_of_record?_eq_some hr
  rwa [validate_eq_checkBase hm ⟨pinOk_of_validate_ok h, valOk_of_validate_ok h⟩ hrec] at h

theorem mem_portBases_of_checkBase_ok {a : Word} (h : s.checkBase a = .ok ()) : a ∈ s.portBases := by
  unfold State.checkBase at h
  split at h
  · cases h
  · split at h
    · assumption
    · cases h

/-- The port a validated port or configuration operation serves. -/
theorem exists_port_of_validate_ok (h : i.validate s o = .ok ()) (hm : i.isMmio = false) :
    ∃ p, s.port? o.a = some p :=
  port?_of_mem_portBases (mem_portBases_of_checkBase_ok (checkBase_of_validate_ok h hm))

end

/-- The address an access reaches. -/
def Access.addr : Access → Word
  | .load a | .loadField a _ _ | .loadRecord a | .store a _ | .rmw a _ _ => a

/-- Register `r` takes the access: it can be read, it is not IN and takes the value stored, or it is a configuration
word whose reserved code the access checks (40_mmio.md R153, R154, 42_config.md R206, R208). -/
def Access.Suits (x : Access) (r : Reg) : Prop :=
  match x with
  | .load _ => r.readable = true
  | .loadField _ f bad => (∃ n, r = .pinCnf n) ∧ (f = .pull ∧ bad = 2 ∨ f = .sense ∧ bad = 1)
  | .loadRecord _ => ∃ n, r = .pinCnf n
  | .store _ v => r ≠ .inp ∧ r.takes v = true
  | .rmw _ _ _ => ∃ n, r = .pinCnf n

/-- The access of a port or configuration operation with well-formed operands is one to a register of the port at
operand A, and that register takes it (log 13). -/
theorem access_suits {i : Instr} {o : Operands} (c : Offsets) (hm : i.isMmio = false) (hwf : i.WellFormed)
    (hrec : i.readsRec = true → ∃ r, o.record.record? = some r) :
    ∃ r, (i.access c o).addr = o.a + offsetOf c r ∧ (i.access c o).Suits r := by
  obtain ⟨hpin, hval⟩ := hwf
  cases i with
  | read32 | write32 | rmw32 => cases hm
  | readLevel n => exact ⟨.inp, rfl, rfl⟩
  | readOutput n => exact ⟨.out, rfl, rfl⟩
  | getDirection n => exact ⟨.dir, rfl, rfl⟩
  | readLatch | getLatch n => exact ⟨.latch, rfl, rfl⟩
  | getDetectMode => exact ⟨.detectmode, rfl, rfl⟩
  | setOutput n => exact ⟨.outset, rfl, by decide, rfl⟩
  | clearOutput n => exact ⟨.outclr, rfl, by decide, rfl⟩
  | clearLatch n => exact ⟨.latch, rfl, by decide, rfl⟩
  | writeOutput n v =>
    by_cases hv : v = 1
    · exact ⟨.outset, congrArg (o.a + ·) (if_pos hv), by decide, rfl⟩
    · exact ⟨.outclr, congrArg (o.a + ·) (if_neg hv), by decide, rfl⟩
  | setDirection n v =>
    by_cases hv : v = 1
    · exact ⟨.dirset, congrArg (o.a + ·) (if_pos hv), by decide, rfl⟩
    · exact ⟨.dirclr, congrArg (o.a + ·) (if_neg hv), by decide, rfl⟩
  | setDetectMode v =>
    obtain rfl | rfl := List.mem_pair.mp (hval v rfl)
    · exact ⟨.detectmode, rfl, by decide, rfl⟩
    · exact ⟨.detectmode, rfl, by decide, rfl⟩
  | readConfigRaw n | getCfgDir n | getInput n | getDrive n => exact ⟨_, cfgAddr_eq c o.a (hpin n rfl), rfl⟩
  | readConfig n => exact ⟨_, cfgAddr_eq c o.a (hpin n rfl), _, rfl⟩
  | getPull n => exact ⟨_, cfgAddr_eq c o.a (hpin n rfl), ⟨_, rfl⟩, .inl ⟨rfl, rfl⟩⟩
  | getSense n => exact ⟨_, cfgAddr_eq c o.a (hpin n rfl), ⟨_, rfl⟩, .inr ⟨rfl, rfl⟩⟩
  | configure n =>
    obtain ⟨r, hr⟩ := hrec rfl
    have hlegal : legalCnf o.record.word = true := by rw [RecBus.word_of_record? hr, legalCnf_pack]
    exact ⟨_, cfgAddr_eq c o.a (hpin n rfl), nofun, hlegal⟩
  | update n => exact ⟨_, cfgAddr_eq c o.a (hpin n rfl), _, rfl⟩
  | setCfgDir n v | setInput n v | setPull n v | setDrive n v | setSense n v =>
    exact ⟨_, cfgAddr_eq c o.a (hpin n rfl), _, rfl⟩

theorem access_suits_of_validate_ok {s : State} {i : Instr} {o : Operands} (c : Offsets) (hm : i.isMmio = false)
    (h : i.validate s o = .ok ()) :
    ∃ r, (i.access c o).addr = o.a + offsetOf c r ∧ (i.access c o).Suits r :=
  access_suits c hm ⟨pinOk_of_validate_ok h, valOk_of_validate_ok h⟩ (record_of_validate_ok h)

end Sys2Proof.Machine
end

section
/-! SUPPORT. Changes of the state that a step does not see: it can be taken before such a change or after it with the
same outcome. -/

namespace Sys2Proof.Machine

/-- A change of the state that leaves the parameters and the sequencers as they are and commutes with every update of
a sequencer and every event. -/
structure Transparent (p : State → State) : Prop where
  cfg (s : State) : (p s).cfg = s.cfg
  seqs (s : State) : (p s).seqs = s.seqs
  actor (s : State) : (p s).actor = s.actor
  log (e : Event) (s : State) : p (s.log e) = (p s).log e
  modifySeq (k : Nat) (f : Seq → Seq) (s : State) : p (s.modifySeq k f) = (p s).modifySeq k f

/-- The checks and the write of an access to `addr` do not see the change. -/
structure Unseen (p : State → State) (s : State) (addr : Word) : Prop where
  checkRead : (p s).checkRead addr = s.checkRead addr
  checkWriteAddr : (p s).checkWriteAddr addr = s.checkWriteAddr addr
  write (b : Word) (r : Reg) (v : Word) (h : s.checkWriteAddr addr = .ok (b, r)) :
    p (s.modifyPort b (Port.write s.cfg.dirAlias r v)) = (p s).modifyPort b (Port.write s.cfg.dirAlias r v)

section
variable {p : State → State} {s t : State} {addr : Word}

/-- A chain of checks maps under the change where its first check is the same and the rest maps. -/
theorem bind_eq_map_bind {α : Type} {x y : Except Raise α} {f g : α → Except Raise State} (hx : y = x)
    (hfg : ∀ a, x = .ok a → f a = (g a).map p) : (y >>= f) = (x >>= g).map p := by
  subst hx
  cases y with
  | error r => rfl
  | ok a => exact hfg a rfl

section
variable (hp : Transparent p)
include hp

theorem Transparent.memRead (v : Word) (s : State) :
    p (s.memRead (.seq s.actor) addr v) = (p s).memRead (.seq (p s).actor) addr v := by
  rw [State.memRead, State.memRead, hp.log, hp.actor]

theorem Transparent.setRdata (v : Word) (s : State) : p (s.setRdata v) = (p s).setRdata v := by
  rw [State.setRdata, State.setRdata, hp.modifySeq, hp.actor]

theorem Transparent.setRrec (r : Record) (s : State) : p (s.setRrec r) = (p s).setRrec r := by
  rw [State.setRrec, State.setRrec, hp.modifySeq, hp.actor]

theorem Transparent.setPhase (h : Phase) (s : State) : p (s.setPhase h) = (p s).setPhase h := by
  rw [State.setPhase, State.setPhase, hp.modifySeq, hp.actor]

theorem Transparent.emitDone (op : Op) (r : Result) (s : State) : p (s.emitDone op r) = (p s).emitDone op r := by
  rw [State.emitDone, State.emitDone, hp.log, hp.actor]

theorem Transparent.enterFault (o : Operands) (r : Raise) (s : State) :
    p (s.enterFault o r) = (p s).enterFault o r := by
  rw [State.enterFault, State.enterFault, hp.modifySeq, hp.actor]

theorem Transparent.memWrite (hu : Unseen p s addr) {b : Word} {r : Reg} (hw : s.checkWriteAddr addr = .ok (b, r))
    (v : Word) : p (s.memWrite (.seq s.actor) b r addr v) = (p s).memWrite (.seq (p s).actor) b r addr v := by
  rw [State.memWrite, State.memWrite, hp.log, hp.actor, hp.cfg, hu.write b r v hw]

/-- An access that does not see the change answers the same before and after it. -/
theorem run_of_unseen (x : Access) (i : Instr) (o : Operands) (hu : Unseen p s x.addr) :
    x.run i o (p s) = (x.run i o s).map p := by
  cases x with
  | load a =>
    exact bind_eq_map_bind hu.checkRead fun v _ => congrArg Except.ok (by rw [hp.emitDone, hp.setRdata, hp.memRead])
  | loadField a f bad =>
    refine bind_eq_map_bind hu.checkRead fun v _ => ?_
    dsimp only
    split
    · exact congrArg Except.ok (by rw [hp.enterFault, hp.memRead])
    · exact congrArg Except.ok (by rw [hp.emitDone, hp.setRdata, hp.memRead])
  | loadRecord a =>
    refine bind_eq_map_bind hu.checkRead fun v _ => ?_
    dsimp only
    split
    · exact congrArg Except.ok (by rw [hp.enterFault, hp.memRead])
    · exact congrArg Except.ok (by rw [hp.emitDone, hp.setRrec, hp.setRdata, hp.memRead])
  | store a v =>
    exact bind_eq_map_bind hu.checkWriteAddr fun ⟨b, r⟩ hw => bind_eq_map_bind rfl fun _ _ =>
      congrArg Except.ok (by rw [hp.emitDone, hp.memWrite (addr := a) hu hw])
  | rmw a clr set =>
    exact bind_eq_map_bind hu.checkRead fun old _ => bind_eq_map_bind hu.checkWriteAddr fun _ _ =>
      congrArg Except.ok (by rw [hp.setPhase, hp.memRead])

theorem rmwWrite_of_unseen {h : Hold} (hu : Unseen p s h.addr) : (p s).rmwWrite h = (s.rmwWrite h).map p :=
  bind_eq_map_bind hu.checkWriteAddr fun ⟨b, r⟩ hw => bind_eq_map_bind rfl fun _ _ =>
    congrArg Except.ok (by rw [hp.emitDone, hp.setPhase, hp.memWrite hu hw])

/-- An instruction whose checks and access do not see the change answers the same before and after it. -/
theorem exec_of_unseen {i : Instr} {q : Seq} (hq : s.seqs[s.actor]? = some q)
    (hv : i.validate (p s) q.lat = i.validate s q.lat)
    (hu : i.validate s q.lat = .ok () → Unseen p s (i.access s.cfg.offsets q.lat).addr)
    (h : exec i s = .next t) : exec i (p s) = .next (p t) := by
  have hq' : (p s).seqs[(p s).actor]? = some q := by rw [hp.seqs, hp.actor, hq]
  have hbody : i.body (p s) q.lat = (i.body s q.lat).map p := by
    refine bind_eq_map_bind hv fun _ hok => ?_
    rw [hp.cfg]
    exact run_of_unseen hp _ i q.lat (hu hok)
  obtain ⟨u, hb, hu⟩ | ⟨r, hb, hu⟩ := exec_cases i hq
  · cases hu.symm.trans h
    rw [hb] at hbody
    rw [exec_eq_accept_body, accept_of_ok hq' hbody]
  · cases hu.symm.trans h
    rw [hb] at hbody
    rw [exec_eq_accept_body, accept_of_error hq' hbody, ← enterFault_eq hq, hp.enterFault, enterFault_eq hq']

end
end

/-! ### The history -/

/-- The state with a list put before its history. -/
def State.withPast (h : List Event) (s : State) : State :=
  { s with hist := h ++ s.hist }

theorem withPast_transparent (h : List Event) : Transparent (State.withPast h) where
  cfg _ := rfl
  seqs _ := rfl
  actor _ := rfl
  log e s := by simp [State.withPast, State.log]
  modifySeq _ _ _ := rfl

theorem withPast_unseen (h : List Event) (s : State) (addr : Word) : Unseen (State.withPast h) s addr where
  checkRead := rfl
  checkWriteAddr := rfl
  write _ _ _ _ := rfl

/-- A sequencer's step does not read the history. -/
theorem step_withPast_of_next {s t : State} {k : Nat} {q : Seq} {rest : List Action} (hn : s.Next k q rest)
    (e : step s = .next t) (past : List Event) : step (s.withPast past) = .next (t.withPast past) := by
  have hn' : (s.withPast past).Next k q rest := hn
  cases step_seqStep hn e with
  | disabled h => exact step_of_disabled hn' h
  | undecodable c hf hp hi hd => exact step_of_decode_error hn' hf hp hi hd
  | accept i _ hf hp hi hd he =>
    rw [step_of_decode_ok hn' hf hp hi hd]
    exact exec_of_unseen (withPast_transparent past) (accepting_actor hn.2) rfl
      (fun _ => withPast_unseen past _ _) he
  | write h b r hf hp hw hv =>
    rw [step_of_rmwPending hn' hf hp, writeStep_of_checks_ok (s := { s.withPast past with sched := rest }) hn.2 hw hv]
    simp [State.afterRmwWrite, State.withPast]
  | writeFault h x hf hp hx =>
    rw [step_of_rmwPending hn' hf hp]
    refine writeStep_of_error (s := { s.withPast past with sched := rest }) hn.2 ?_
    rw [show ({ s.withPast past with sched := rest, actor := k } : State) =
      State.withPast past { s with sched := rest, actor := k } from rfl,
      rmwWrite_of_unseen (withPast_transparent past) (withPast_unseen past _ h.addr), hx]
    rfl

theorem step_of_perform {s : State} {a : Action} {rest : List Action} (hs : s.sched = a :: rest) :
    step s = ({ s with sched := rest } : State).perform a := by
  rw [step, State.advance, hs]

section
variable (past : List Event) (s : State) (a v : Word)

theorem envIn_withPast : (s.withPast past).envIn a v = (s.envIn a v).withPast past := by
  by_cases hb : a ∈ s.portBases
  · rw [envIn_of_mem hb, envIn_of_mem (s := s.withPast past) hb]
    simp [State.withPast]
  · exact (if_neg hb).trans (congrArg _ (if_neg hb).symm)

theorem envLatch_withPast : (s.withPast past).envLatch a v = (s.envLatch a v).withPast past := by
  by_cases hb : a ∈ s.portBases
  · rw [envLatch_of_mem hb, envLatch_of_mem (s := s.withPast past) hb]
    simp [State.withPast]
  · exact (if_neg hb).trans (congrArg _ (if_neg hb).symm)

theorem otherRead_withPast : (s.withPast past).otherRead a = (s.otherRead a).withPast past := by
  have hc : (s.withPast past).checkRead a = s.checkRead a := rfl
  simp only [State.otherRead, hc, show (s.withPast past).cfg = s.cfg from rfl]
  split
  · split
    · exact ((withPast_transparent past).log _ s).symm
    · rfl
  · rfl

theorem otherWrite_withPast : (s.withPast past).otherWrite a v = (s.otherWrite a v).withPast past := by
  have hc : (s.withPast past).checkWrite a v = s.checkWrite a v := rfl
  simp only [State.otherWrite, hc, show (s.withPast past).cfg = s.cfg from rfl]
  split
  · split
    · exact ((withPast_transparent past).log _ (s.modifyPort _ _)).symm
    · rfl
  · rfl

theorem resetStep_withPast (d : ResetDraw) : (s.withPast past).resetStep d = (s.resetStep d).withPast past := by
  simp [State.resetStep, State.resetFrom, State.withPast]

end

/-! ### Another port -/

section
variable {f : Port → Port} {b b' : Word} (hf : ∀ p, (f p).base = p.base)

theorem modifyPort_transparent (b : Word) (f : Port → Port) : Transparent (State.modifyPort b f) where
  cfg _ := rfl
  seqs _ := rfl
  actor _ := rfl
  log _ _ := rfl
  modifySeq _ _ _ := rfl

include hf

/-- Changes of two ports commute. -/
theorem modifyPort_comm {g : Port → Port} (hg : ∀ p, (g p).base = p.base) (hne : b ≠ b') (s : State) :
    (s.modifyPort b' g).modifyPort b f = (s.modifyPort b f).modifyPort b' g := by
  simp only [State.modifyPort, List.map_map]
  congr 2
  funext p
  by_cases hb : p.base = b
  · simp [hb, hf, hne]
  · by_cases hb' : p.base = b' <;> simp [hb, hb', hg, hne.symm]

/-- VALIDATE sees the ports by their bases alone (60_exceptions.md R243). -/
theorem validate_modifyPort (i : Instr) (s : State) (o : Operands) :
    i.validate (s.modifyPort b f) o = i.validate s o := by
  simp only [Instr.validate, State.checkBase, portBases_modifyPort s b hf]

/-- An access to a register of one port does not see a change of another port (10_state.md R61). -/
theorem modifyPort_unseen {s : State} {p : Port} (ho : s.cfg.offsets.WF) (hm : s.rf.wf) (hp : s.port? b' = some p)
    (hne : b ≠ b') (r : Reg) : Unseen (State.modifyPort b f) s (b' + offsetOf s.cfg.offsets r) := by
  have hp' : (s.modifyPort b f).port? b' = some p := by
    rw [port?_modifyPort s b b' hf, hp, Option.map_some, if_neg hne.symm]
  have hreg := regAt_port ho hm hp r
  have hreg' : (s.modifyPort b f).regAt (b' + offsetOf s.cfg.offsets r) = some (p, r) :=
    regAt_port (s := s.modifyPort b f) ho (modifyPort_wf hm b hf) hp' r
  refine ⟨?_, checkWriteAddr_congr rfl (map_base_modify s.rf b hf), fun c r' v h => ?_⟩
  · simp only [State.checkRead, hreg, hreg', State.modifyPort_cfg]
  · obtain ⟨p', hreg'', rfl, -⟩ := checkWriteAddr_ok h
    cases hreg.symm.trans hreg''
    rw [(port?_some hp).2]
    exact modifyPort_comm hf (fun x => Port.write_base _ r v x) hne s

end

end Sys2Proof.Machine
end

section
/-! The statements of 10_state.md on the history and on the independence of the ports: O23 and O58. -/

namespace Sys2Proof.Machine

/-- Settles O23: no check reads the history and every event is appended at its end. -/
theorem historyIsNeverRead : Obligations.HistoryIsNeverRead := by
  unfold Obligations.HistoryIsNeverRead
  intro s t past e
  change step (s.withPast past) = .next (t.withPast past)
  cases hs : s.sched with
  | nil =>
    have hnobody (u : State) (hu : u.sched = []) : step u = .next u := by rw [step, State.advance, hu]
    cases (hnobody s hs).symm.trans e
    exact hnobody (s.withPast past) hs
  | cons a rest =>
    have hstep := step_of_perform hs
    have hpast : step (s.withPast past) = (State.withPast past { s with sched := rest }).perform a :=
      step_of_perform (s := s.withPast past) hs
    cases a with
    | seq k =>
      cases hq : s.seqs[k]? with
      | some q => exact step_withPast_of_next ⟨hs, hq⟩ e past
      | none =>
        have hnone (u : State) (hu : u.seqs[k]? = none) : u.seqStep k = .next u := by rw [State.seqStep, hu]
        cases (hstep.trans (hnone { s with sched := rest } hq)).symm.trans e
        exact hpast.trans (hnone (State.withPast past { s with sched := rest }) hq)
    | operand | issue | consume =>
      cases hstep.symm.trans e
      exact hpast
    | envIn b v =>
      cases hstep.symm.trans e
      exact hpast.trans (congrArg _ (envIn_withPast past _ b v))
    | envLatch b m =>
      cases hstep.symm.trans e
      exact hpast.trans (congrArg _ (envLatch_withPast past _ b m))
    | otherRead addr =>
      cases hstep.symm.trans e
      exact hpast.trans (congrArg _ (otherRead_withPast past _ addr))
    | otherWrite addr v =>
      cases hstep.symm.trans e
      exact hpast.trans (congrArg _ (otherWrite_withPast past _ addr v))
    | reset d =>
      cases hstep.symm.trans e
      exact hpast.trans (congrArg _ (resetStep_withPast past _ d))

/-- Settles O58: a validated port or configuration operation reaches one register of the port at A, and neither its
checks nor its write see another port. -/
theorem portsAreIndependent : Obligations.PortsAreIndependent := by
  unfold Obligations.PortsAreIndependent
  intro s t i q b f hs hmmio hne hf e
  obtain ⟨ho, hm, hq⟩ := hs
  refine exec_of_unseen (modifyPort_transparent b f) hq (validate_modifyPort hf i s q.lat) (fun hv => ?_) e
  obtain ⟨p, hp⟩ := exists_port_of_validate_ok hv hmmio
  obtain ⟨r, haddr, -⟩ := access_suits_of_validate_ok s.cfg.offsets hmmio hv
  rw [haddr]
  exact modifyPort_unseen hf ho hm hp hne r

end Sys2Proof.Machine
end

section
/-! SUPPORT. What an access answers, shape by shape, as the states of Safety.lean: the one place where the five accesses
are taken apart (40_mmio.md R150 to R152, 42_config.md R201, R206, R208). -/

namespace Sys2Proof.Machine

/-- After F_RESERVED_FIELD_READ at the word `v` read from `addr`: fault entry, the read event kept (60_exceptions.md
R250, log 11). -/
def State.afterReadFault (s : State) (q : Seq) (addr v : Word) : State :=
  { s.afterFault q .reservedFieldRead (.address addr) with hist := s.hist ++ [.bus (.seq s.actor) .read addr v] }

/-- The states the access of operation `i` of the acting sequencer `q` can answer. -/
inductive Access.Answers (s : State) (q : Seq) (i : Instr) : Access → State → Prop where
  | load {addr v : Word} (h : s.checkRead addr = .ok v) :
      Answers s q i (.load addr) (s.afterLoad i.op addr v { q with rdata := some (i.view v) } (.word (i.view v)))
  | loadField {addr bad v : Word} {f : Field} (h : s.checkRead addr = .ok v) (hv : fieldOf f v ≠ bad) :
      Answers s q i (.loadField addr f bad)
        (s.afterLoad i.op addr v { q with rdata := some (fieldOf f v) } (.word (fieldOf f v)))
  | loadFieldFault {addr bad v : Word} {f : Field} (h : s.checkRead addr = .ok v) (hv : fieldOf f v = bad) :
      Answers s q i (.loadField addr f bad) (s.afterReadFault q addr v)
  | loadRecord {addr v : Word} {r : Record} (h : s.checkRead addr = .ok v) (hv : unpack v = .ok r) :
      Answers s q i (.loadRecord addr)
        (s.afterLoad .readConfig addr v { q with rdata := some v, rrec := some r } (.record r))
  | loadRecordFault {addr v : Word} {f : Field} (h : s.checkRead addr = .ok v) (hv : unpack v = .error f) :
      Answers s q i (.loadRecord addr) (s.afterReadFault q addr v)
  | store {addr v b : Word} {r : Reg} (h : s.checkWriteAddr addr = .ok (b, r))
      (hv : checkWriteValue r addr v = .ok ()) :
      Answers s q i (.store addr v)
        (s.afterStore i.op addr v (s.rf.withPort b (Port.write s.cfg.dirAlias r v)))
  | rmw {addr clr set old b : Word} {r : Reg} (h : s.checkRead addr = .ok old)
      (hw : s.checkWriteAddr addr = .ok (b, r)) :
      Answers s q i (.rmw addr clr set)
        (s.afterRmwRead q { addr := addr, clr := clr, set := set, old := old, op := i.op })

theorem stored_eq_afterStore (s : State) (op : Op) (addr v b : Word) (r : Reg) :
    (s.memWrite (.seq s.actor) b r addr v).emitDone op .noValue =
      s.afterStore op addr v (s.rf.withPort b (Port.write s.cfg.dirAlias r v)) := by
  simp [State.memWrite, State.modifyPort, State.log, State.emitDone, State.afterStore, Memory.withPort]

section
variable {s t : State} {q : Seq} {i : Instr} (hq : s.seqs[s.actor]? = some q)
include hq

theorem memRead_enterFault_eq (addr v : Word) :
    (s.memRead (.seq s.actor) addr v).enterFault q.lat { code := .reservedFieldRead, detail := .address addr } =
      s.afterReadFault q addr v :=
  enterFault_eq (s := s.memRead (.seq s.actor) addr v) hq _

theorem recordLoaded_eq_afterLoad (addr v : Word) (r : Record) :
    (((s.memRead (.seq s.actor) addr v).setRdata v).setRrec r).emitDone .readConfig (.record r) =
      s.afterLoad .readConfig addr v { q with rdata := some v, rrec := some r } (.record r) := by
  have hseqs : (s.seqs.modify s.actor (Seq.setRdata v)).modify s.actor (Seq.setRrec r) =
      s.seqs.set s.actor { q with rdata := some v, rrec := some r } := by
    rw [modify_eq_set_of_getElem? _ _ _ _ hq, modify_eq_set_of_getElem? _ _ _ _ (getElem?_set_of_getElem? hq _),
      List.set_set]
    rfl
  simp [State.memRead, State.setRdata, State.setRrec, State.emitDone, State.log, State.modifySeq, State.afterLoad,
    hseqs]

theorem held_eq_afterRmwRead (m : Hold) :
    (s.memRead (.seq s.actor) m.addr m.old).setPhase (.rmwPending m) = s.afterRmwRead q m := by
  simp [State.memRead, State.setPhase, State.log, State.modifySeq, modify_eq_set_of_getElem? _ _ _ _ hq,
    State.afterRmwRead, Seq.setPhase]

/-- What an access answers where it raises no fault before its bus access. -/
theorem run_answers {x : Access} (h : x.run i q.lat s = .ok t) : x.Answers s q i t := by
  cases x with
  | load addr =>
    obtain ⟨v, hr, h⟩ := bind_eq_ok.mp h
    cases h
    rw [loaded_eq_afterLoad hq]
    exact .load hr
  | loadField addr f bad =>
    obtain ⟨v, hr, h⟩ := bind_eq_ok.mp h
    dsimp only at h
    split at h
    · cases h
      rw [memRead_enterFault_eq hq]
      exact .loadFieldFault hr ‹_›
    · cases h
      rw [loaded_eq_afterLoad hq]
      exact .loadField hr ‹_›
  | loadRecord addr =>
    obtain ⟨v, hr, h⟩ := bind_eq_ok.mp h
    dsimp only at h
    split at h
    · cases h
      rw [memRead_enterFault_eq hq]
      exact .loadRecordFault hr ‹_›
    · cases h
      rw [recordLoaded_eq_afterLoad hq]
      exact .loadRecord hr ‹_›
  | store addr v =>
    obtain ⟨⟨b, r⟩, hw, h⟩ := bind_eq_ok.mp h
    obtain ⟨_, hv, h⟩ := bind_eq_ok.mp h
    cases h
    rw [stored_eq_afterStore]
    exact .store hw hv
  | rmw addr clr set =>
    obtain ⟨old, hr, h⟩ := bind_eq_ok.mp h
    obtain ⟨⟨b, r⟩, hw, h⟩ := bind_eq_ok.mp h
    cases h
    exact (held_eq_afterRmwRead hq _).symm ▸ .rmw hr hw

/-- The two faults of a decoding read are answers, and so is every completed access. -/
theorem run_of_answers {x : Access} (h : x.Answers s q i t) : x.run i q.lat s = .ok t := by
  cases h with
  | load hr =>
    rw [← loaded_eq_afterLoad hq]
    exact bind_eq_of_ok hr
  | loadField hr hv =>
    rw [← loaded_eq_afterLoad hq]
    exact (bind_eq_of_ok hr).trans (if_neg hv)
  | loadFieldFault hr hv =>
    rw [← memRead_enterFault_eq hq]
    exact (bind_eq_of_ok hr).trans (if_pos hv)
  | loadRecord hr hv =>
    rw [← recordLoaded_eq_afterLoad hq]
    refine (bind_eq_of_ok hr).trans ?_
    simp only [hv]
    rfl
  | loadRecordFault hr hv =>
    rw [← memRead_enterFault_eq hq]
    refine (bind_eq_of_ok hr).trans ?_
    simp only [hv]
    rfl
  | store hw hv =>
    rw [← stored_eq_afterStore]
    exact (bind_eq_of_ok hw).trans (bind_eq_of_ok hv)
  | rmw hr hw =>
    rw [← held_eq_afterRmwRead hq]
    exact (bind_eq_of_ok hr).trans (bind_eq_of_ok hw)

theorem exec_of_answers (hv : i.validate s q.lat = .ok ())
    (h : (i.access s.cfg.offsets q.lat).Answers s q i t) : exec i s = .next t :=
  exec_of_access_ok hq hv (run_of_answers hq h)

/-- What an accept step answers: its access's answer after VALIDATE, or the entry of a fault that VALIDATE or a check
of the access raises (10_state.md R33, 60_exceptions.md R246). -/
theorem exec_answers_cases (h : exec i s = .next t) :
    (i.validate s q.lat = .ok () ∧ (i.access s.cfg.offsets q.lat).Answers s q i t) ∨
      ∃ r, i.body s q.lat = .error r ∧ t = s.afterFault q r.code r.detail := by
  obtain ⟨u, hb, hu⟩ | ⟨r, hb, hu⟩ := exec_cases i hq
  · cases hu.symm.trans h
    obtain ⟨hv, hrun⟩ := body_eq_ok_iff.mp hb
    exact .inl ⟨hv, run_answers hq hrun⟩
  · cases hu.symm.trans h
    exact .inr ⟨r, hb, rfl⟩

end

end Sys2Proof.Machine
end

section
/-! SUPPORT. Port and configuration operations on the port they serve: VALIDATE passes, and the access is that of a
register of the port (41_port.md R170 to R182, 42_config.md R200 to R213). -/

namespace Sys2Proof.Machine

/-! ### Well-formed operands -/

theorem wellFormed_of_pin {i : Instr} {n : Nat} (hp : i.pin? = some n) (hv : i.val? = none) (hn : n < 32) :
    i.WellFormed := by
  refine ⟨fun m hm => ?_, fun v h => ?_⟩
  · cases hp.symm.trans hm
    exact hn
  · cases hv.symm.trans h

theorem wellFormed_of_pin_val {i : Instr} {n : Nat} {v : Val} (hp : i.pin? = some n) (hv : i.val? = some v)
    (hn : n < 32) (hd : v ∈ valDomain i.op) : i.WellFormed := by
  refine ⟨fun m hm => ?_, fun w h => ?_⟩
  · cases hp.symm.trans hm
    exact hn
  · cases hv.symm.trans h
    exact hd

/-! ### Results -/

theorem bitOf_eq_flagWord (w : Word) (n : Nat) : bitOf w n = flagWord (w.getLsbD n) :=
  (flagWord_getLsbD_eq w n).symm

/-- The direction read's result is the direction bit (41_port.md R175). -/
theorem directionFlag_eq_flagWord (w : Word) (n : Nat) : directionFlag w n = flagWord (w.getLsbD n) := by
  rw [directionFlag, bitOf_eq_flagWord]
  cases w.getLsbD n <;> rfl

theorem setWidth_and_one (d : BitVec 1) : (d.setWidth 32 : Word) &&& 1 = d.setWidth 32 := by
  decide +revert

@[simp] theorem Port.read_write_pinCnf (a : Bool) (n : Fin 32) (v : Word) (p : Port) :
    (p.write a (.pinCnf n) v).read a (.pinCnf n) = some v := by
  simp [Port.read]

@[simp] theorem record?_toBus (r : Record) : r.toBus.record? = some r := by
  obtain ⟨d, i, p, dr, se⟩ := r
  cases d <;> cases i <;> cases p <;> cases se <;> rfl

section
variable {s : State} {q : Seq} {p : Port} {i : Instr} {r : Reg} (hs : s.Serves q p)
include hs

/-- A port or configuration operation that is one load (41_port.md R170, 42_config.md R200). -/
theorem exec_port_load {a w : Word} (hwf : i.WellFormed) (hrec : i.readsRec = false)
    (hi : i.access s.cfg.offsets q.lat = .load a) (ha : a = q.lat.a + offsetOf s.cfg.offsets r)
    (hread : p.read s.cfg.dirAlias r = some w) :
    exec i s = .next (s.afterLoad i.op a w { q with rdata := some (i.view w) } (.word (i.view w))) :=
  exec_load hs.1 hs.2 ha (validate_of_serves hs hwf fun h => nomatch hrec.symm.trans h) hi hread

/-- CHECK_READ of a pin's configuration word (20_memory.md R74). -/
theorem checkRead_cfgAddr (n : Fin 32) : s.checkRead (cfgAddr q.lat.a n) = .ok p.cnf[n] := by
  obtain ⟨⟨ho, hm, -⟩, hp⟩ := hs
  rw [cfgAddr_eq s.cfg.offsets q.lat.a n.isLt]
  exact checkRead_port (r := .pinCnf n) ho hm hp rfl

/-- An operation that decodes the word it reads (42_config.md R201, R206, R208). -/
theorem exec_port_answers {t : State} (hwf : i.WellFormed) (hrec : i.readsRec = false)
    (h : (i.access s.cfg.offsets q.lat).Answers s q i t) : exec i s = .next t :=
  exec_of_answers hs.1.2.2 (validate_of_serves hs hwf fun h => nomatch hrec.symm.trans h) h

/-- CONFIGURE's one store (42_config.md R202). -/
theorem exec_configure (n : Fin 32) {rec : Record} (hr : q.lat.record.record? = some rec) :
    exec (.configure n) s = .next (s.afterStore .configure (cfgAddr q.lat.a n) (pack rec)
      (s.rf.withPort q.lat.a (Port.write s.cfg.dirAlias (.pinCnf n) (pack rec)))) := by
  have hv : (Instr.configure n).validate s q.lat = .ok () :=
    validate_of_serves hs (wellFormed_of_pin rfl rfl n.isLt) fun _ => ⟨rec, hr⟩
  have hi : (Instr.configure n).access s.cfg.offsets q.lat = .store (cfgAddr q.lat.a n) (pack rec) := by
    rw [Instr.access, RecBus.word_of_record? hr]
  exact exec_store hs.1 hs.2 (cfgAddr_eq s.cfg.offsets q.lat.a n.isLt) hv hi nofun (legalCnf_pack rec)

/-- UPDATE's accept step (42_config.md R203). -/
theorem exec_update (n : Fin 32) {rec : Record} (hr : q.lat.record.record? = some rec) :
    exec (.update n) s = .next (s.afterRmwRead q
      { addr := cfgAddr q.lat.a n, clr := q.lat.d0, set := pack rec &&& q.lat.d0, old := p.cnf[n],
        op := .update }) := by
  have hv : (Instr.update n).validate s q.lat = .ok () :=
    validate_of_serves hs (wellFormed_of_pin rfl rfl n.isLt) fun _ => ⟨rec, hr⟩
  have hi : (Instr.update n).access s.cfg.offsets q.lat =
      .rmw (cfgAddr q.lat.a n) q.lat.d0 (pack rec &&& q.lat.d0) := by
    rw [Instr.access, RecBus.word_of_record? hr]
  exact exec_rmw hs.1 hs.2 (cfgAddr_eq s.cfg.offsets q.lat.a n.isLt) hv hi nofun rfl

end

/-! ### The field setters -/

theorem access_setterOf (f : Field) (n : Nat) (c : Val) (o : Offsets) (x : Operands) :
    (setterOf f n c).access o x = .rmw (cfgAddr x.a n) f.mask (fieldSet f c) := by
  cases f <;> rfl

theorem setterOf_wellFormed {f : Field} {n : Nat} {c : Val} (hn : n < 32) (hc : c ∈ valDomain (setterOf f n c).op) :
    (setterOf f n c).WellFormed := by
  cases f <;> exact wellFormed_of_pin_val rfl rfl hn hc

theorem setterOf_readsRec (f : Field) (n : Nat) (c : Val) : (setterOf f n c).readsRec = false := by
  cases f <;> rfl

/-- A setter's accept step (42_config.md R209 to R213). -/
theorem exec_setterOf {s : State} {q : Seq} {p : Port} (hs : s.Serves q p) (f : Field) (n : Fin 32) {c : Val}
    (hc : c ∈ valDomain (setterOf f n c).op) :
    exec (setterOf f n c) s = .next (s.afterRmwRead q
      { addr := cfgAddr q.lat.a n, clr := f.mask, set := fieldSet f c, old := p.cnf[n],
        op := (setterOf f n c).op }) := by
  have hv : (setterOf f n c).validate s q.lat = .ok () :=
    validate_of_serves hs (setterOf_wellFormed n.isLt hc) fun h => nomatch (setterOf_readsRec f n c).symm.trans h
  exact exec_rmw hs.1 hs.2 (cfgAddr_eq s.cfg.offsets q.lat.a n.isLt) hv (access_setterOf ..) nofun rfl

/-! ### After a store -/

theorem withPort_wf {m : Memory} (h : m.wf) (b : Word) {f : Port → Port} (hf : ∀ p, (f p).base = p.base) :
    (m.withPort b f).wf := by
  unfold Memory.wf
  rw [Memory.withPort_bases m b hf]
  exact h

/-- The port of a completed store, with its new register, is served as before. -/
theorem serves_afterStore {s : State} {q : Seq} {p : Port} (hs : s.Serves q p) (op : Op) (addr w : Word) (r : Reg)
    (v : Word) : (s.afterStore op addr w (s.rf.withPort q.lat.a (Port.write s.cfg.dirAlias r v))).Serves q
      (p.write s.cfg.dirAlias r v) := by
  obtain ⟨⟨ho, hm, hq⟩, hp⟩ := hs
  have hbase (x : Port) : (x.write s.cfg.dirAlias r v).base = x.base := Port.write_base _ r v x
  exact ⟨⟨ho, withPort_wf hm q.lat.a hbase, hq⟩, port?_of_rf_eq_withPort hbase hp rfl⟩

end Sys2Proof.Machine
end

section
/-! The statements of 41_port.md and 42_config.md on the completion of the operations: O37, O38, O40 to O45. -/

namespace Sys2Proof.Machine

/-- Settles O37: each is one load of a readable register of the port at A. -/
theorem portReadsReturnTheirBit : Obligations.PortReadsReturnTheirBit := by
  unfold Obligations.PortReadsReturnTheirBit
  intro s q p n hs hn
  have hflag (w : Word) : (if w.getLsbD n then 1 else 0 : Word) = directionFlag w n :=
    (directionFlag_eq_flagWord w n).symm
  refine ⟨?_, ?_, ?_, ?_, ?_, ?_⟩
  · exact exec_port_load (r := .inp) hs (wellFormed_of_pin rfl rfl hn) rfl rfl rfl rfl
  · exact exec_port_load (r := .out) hs (wellFormed_of_pin rfl rfl hn) rfl rfl rfl rfl
  · rw [hflag]
    exact exec_port_load (r := .dir) hs (wellFormed_of_pin rfl rfl hn) rfl rfl rfl rfl
  · exact exec_port_load (r := .latch) hs ⟨nofun, nofun⟩ rfl rfl rfl rfl
  · exact exec_port_load (r := .latch) hs (wellFormed_of_pin rfl rfl hn) rfl rfl rfl rfl
  · have hload := exec_port_load (i := .getDetectMode) (r := .detectmode) hs ⟨nofun, nofun⟩ rfl rfl rfl rfl
    rwa [show Instr.getDetectMode.view (p.dm.setWidth 32) = p.dm.setWidth 32 from setWidth_and_one p.dm] at hload

/-- Settles O38: each is one store to a register of the port at A. -/
theorem portWritesStoreTheirMask : Obligations.PortWritesStoreTheirMask := by
  unfold Obligations.PortWritesStoreTheirMask
  intro s q p n hs hn
  exact ⟨setOutput_storesToPort hs hn, clearOutput_storesToPort hs hn,
    writeOutput_storesToPort (d := 1) hs hn (.inr rfl), writeOutput_storesToPort (d := 0) hs hn (.inl rfl),
    setDirection_storesToPort (d := 1) hs hn (.inr rfl), setDirection_storesToPort (d := 0) hs hn (.inl rfl),
    clearLatch_storesToPort hs hn, setDetectMode_storesToPort (d := 0) hs (.inl rfl),
    setDetectMode_storesToPort (d := 1) hs (.inr rfl)⟩

/-- Settles O40: the store replaces the pin's direction bit, and the load reads the direction state back. -/
theorem setDirectionThenGetDirection : Obligations.SetDirectionThenGetDirection := by
  unfold Obligations.SetDirectionThenGetDirection
  intro s t u q p n d hs hn hd hset hget
  cases (setDirection_storesToPort hs hn hd).symm.trans hset
  have hs' := serves_afterStore hs (Instr.setDirection n d).op
    (q.lat.a + offsetOf s.cfg.offsets (directionAlias (d = 1))) (pinMask n) (directionAlias (d = 1)) (pinMask n)
  have hload := exec_port_load (i := .getDirection n) (r := .dir) hs' (wellFormed_of_pin rfl rfl hn) rfl rfl rfl rfl
  cases hload.symm.trans hget
  refine ⟨_, getElem?_set_of_getElem? hs.1.2.2 _, congrArg some ?_⟩
  have hbit : ((p.write s.cfg.dirAlias (directionAlias (d = 1)) (pinMask n)).dirv s.cfg.dirAlias).getLsbD n =
      decide (d = 1) := by
    rw [Port.write_directionAlias_pinMask, Port.dirv_setDirv, withPinBit_getLsbD _ hn, if_pos rfl]
  exact (directionFlag_eq_flagWord _ n).trans ((congrArg flagWord hbit).trans (flagWord_decide_eq_one hd))

/-- Settles O41: each is one load of the pin's configuration word, whole or one field of it. -/
theorem configReadsReturnWordOrField : Obligations.ConfigReadsReturnWordOrField := by
  unfold Obligations.ConfigReadsReturnWordOrField
  intro s q p n hs
  have haddr := cfgAddr_eq s.cfg.offsets q.lat.a n.isLt
  refine ⟨?_, ?_, ?_, ?_⟩
  · exact exec_port_load (r := .pinCnf n) hs (wellFormed_of_pin rfl rfl n.isLt) rfl rfl haddr rfl
  · rw [← fieldOf_dir]
    exact exec_port_load (r := .pinCnf n) hs (wellFormed_of_pin rfl rfl n.isLt) rfl rfl haddr rfl
  · rw [← fieldOf_input]
    exact exec_port_load (r := .pinCnf n) hs (wellFormed_of_pin rfl rfl n.isLt) rfl rfl haddr rfl
  · rw [← fieldOf_drive]
    exact exec_port_load (r := .pinCnf n) hs (wellFormed_of_pin rfl rfl n.isLt) rfl rfl haddr rfl

/-- Settles O42: the read passes its check, and the code read decides between completion and fault. -/
theorem decodingReadsCheckTheirCodes : Obligations.DecodingReadsCheckTheirCodes := by
  unfold Obligations.DecodingReadsCheckTheirCodes
  intro s q p n hs
  have hread := checkRead_cfgAddr hs n
  have hwf {i : Instr} (hp : i.pin? = some n.val) (hv : i.val? = none) : i.WellFormed :=
    wellFormed_of_pin hp hv n.isLt
  dsimp only
  rw [← fieldOf_pull, ← fieldOf_sense]
  exact ⟨fun r hr => exec_port_answers hs (hwf rfl rfl) rfl (.loadRecord hread hr),
    fun hp => exec_port_answers hs (hwf rfl rfl) rfl (.loadField hread hp),
    fun hse => exec_port_answers hs (hwf rfl rfl) rfl (.loadField hread hse),
    fun f hf => exec_port_answers hs (hwf rfl rfl) rfl (.loadRecordFault hread hf),
    fun hp => exec_port_answers hs (hwf rfl rfl) rfl (.loadFieldFault hread hp),
    fun hse => exec_port_answers hs (hwf rfl rfl) rfl (.loadFieldFault hread hse)⟩

/-- Settles O43: CONFIGURE is one store of the packed record, which is a legal word. -/
theorem configureStoresPackedRecord : Obligations.ConfigureStoresPackedRecord := by
  unfold Obligations.ConfigureStoresPackedRecord
  intro s q p n rec hs hr
  exact exec_configure hs n hr

/-- Settles O44: the word stored is the word read, and it unpacks to the record packed. -/
theorem configureThenReadConfig : Obligations.ConfigureThenReadConfig := by
  unfold Obligations.ConfigureThenReadConfig
  intro s q p n rec hs hn hrec
  have hstore := exec_configure hs ⟨n, hn⟩ (rec := rec) (by rw [hrec, record?_toBus])
  have hs' := serves_afterStore hs .configure (cfgAddr q.lat.a n) (pack rec) (.pinCnf ⟨n, hn⟩) (pack rec)
  have hread := checkRead_cfgAddr hs' ⟨n, hn⟩
  rw [show (p.write s.cfg.dirAlias (.pinCnf ⟨n, hn⟩) (pack rec)).cnf[(⟨n, hn⟩ : Fin 32)] = pack rec from
    Option.some.inj (Port.read_write_pinCnf s.cfg.dirAlias _ _ p)] at hread
  have hload := exec_port_answers (i := .readConfig n) hs' (wellFormed_of_pin rfl rfl hn) rfl
    (.loadRecord hread (unpack_pack rec))
  exact ⟨_, _, _, hstore, hload, getElem?_set_of_getElem? hs.1.2.2 _, rfl, rfl⟩

/-- Settles O45: UPDATE holds the record's word under its mask, a setter its field's mask and its value in place. -/
theorem maskedAcceptsHoldTheirMasks : Obligations.MaskedAcceptsHoldTheirMasks := by
  unfold Obligations.MaskedAcceptsHoldTheirMasks
  intro s q p n hs
  have hdir (d : Val) : fieldSet .dir d = d.setWidth 32 := BitVec.shiftLeft_zero _
  have hdrive : ∀ d : Val, d ∈ valDomain .setDrive := by decide
  refine ⟨fun rec hr => exec_update hs n hr, fun d hd => ?_, fun d hd => exec_setterOf hs .input n hd,
    fun d hd => exec_setterOf hs .pull n hd, fun d => exec_setterOf hs .drive n (hdrive d),
    fun d hd => exec_setterOf hs .sense n hd⟩
  rw [← hdir]
  exact exec_setterOf hs .dir n hd

end Sys2Proof.Machine
end

section
/-! SUPPORT. The two steps of a read-modify-write next to each other (20_memory.md R92), and the word they leave in a
configuration register (42_config.md R214). -/

namespace Sys2Proof.Machine

/-! ### Two steps -/

/-- An accept step that holds a read and then the write step: one write of COMBINE of what is held. -/
theorem step_step_of_held {s : State} {k : Nat} {q : Seq} {rest : List Action} {i : Instr} {m : Hold} {b : Word}
    {p : Port} {r : Reg} (hn : s.Next k q (.seq k :: rest)) (hf : q.fault = false) (hph : q.phase = .idle)
    (hi : q.issued = true) (hd : decode q.ops.req = .ok i)
    (hx : exec i (s.accepting k q (.seq k :: rest)) =
      .next ((s.accepting k q (.seq k :: rest)).afterRmwRead q.latch m))
    (ho : s.cfg.offsets.WF) (hm : s.rf.wf) (hp : s.port? b = some p) (ha : m.addr = b + offsetOf s.cfg.offsets r)
    (hr : r ≠ .inp) (hv : r.takes (combine m.old m.clr m.set) = true) :
    ∃ s₁ t q', step s = .next s₁ ∧ step s₁ = .next t ∧
      t.rf = s.rf.withPort b (Port.write s.cfg.dirAlias r (combine m.old m.clr m.set)) ∧
      t.seqs[k]? = some q' ∧ q'.phase = .idle ∧ q'.fault = false := by
  have hstep := (step_of_decode_ok hn hf hph hi hd).trans hx
  have hq₁ : ((s.accepting k q (.seq k :: rest)).afterRmwRead q.latch m).seqs[k]? =
      some { q.latch with phase := .rmwPending m } :=
    getElem?_set_of_getElem? (getElem?_set_of_getElem? hn.2 q.latch) _
  have hstep₁ := step_rmwWrite_port (s := (s.accepting k q (.seq k :: rest)).afterRmwRead q.latch m) (rest := rest)
    ⟨rfl, hq₁⟩ hf rfl ho hm hp ha hr hv
  exact ⟨_, _, _, hstep, hstep₁, rfl, getElem?_set_of_getElem? hq₁ _, rfl, hf⟩

/-! ### Legality, field by field -/

theorem legalCnf_iff_fields (w : Word) :
    legalCnf w = true ↔ w &&& rsvMask = 0 ∧ ∀ g : Field, g.validCode (fieldOf g w) = true := by
  rw [legalCnf, Bool.and_eq_true, Bool.and_eq_true, beq_iff_eq, and_assoc]
  refine and_congr_right fun _ => ⟨fun ⟨hp, hs⟩ g => ?_, fun h => ⟨h .pull, h .sense⟩⟩
  cases g with
  | pull => exact hp
  | sense => exact hs
  | dir | input | drive => rfl

/-- The domain of a setter's VAL is its field's alone (30_encoding.md R114). -/
theorem valDomain_setterOf (f : Field) (n : Nat) (c : Val) :
    valDomain (setterOf f n c).op = valDomain (setterOf f 0 0).op := by
  cases f <;> rfl

theorem fieldSet_and_mask {f : Field} {n : Nat} {c : Val} (hc : c ∈ valDomain (setterOf f n c).op) :
    fieldSet f c &&& f.mask = fieldSet f c := by
  rw [valDomain_setterOf] at hc
  cases f <;> revert c <;> decide

/-- A legal value in its field's place is that field's code, and a valid one (30_encoding.md R114). -/
theorem fieldOf_fieldSet {f : Field} {n : Nat} {c : Val} (hc : c ∈ valDomain (setterOf f n c).op) :
    fieldOf f (fieldSet f c) = c.setWidth 32 ∧ f.validCode (c.setWidth 32) = true := by
  rw [valDomain_setterOf] at hc
  cases f <;> revert c <;> decide

theorem mask_and_rsvMask (f : Field) : f.mask &&& rsvMask = 0 := by
  cases f <;> decide

theorem mask_and_mask {f g : Field} (h : g ≠ f) : g.mask &&& f.mask = 0 := by
  revert h
  cases g <;> cases f <;> decide

section
variable {f : Field} {n : Nat} {c : Val} (hc : c ∈ valDomain (setterOf f n c).op)
include hc

theorem fieldOf_combine_setter (w : Word) : fieldOf f (combine w f.mask (fieldSet f c)) = c.setWidth 32 := by
  rw [← fieldSet_and_mask hc, fieldOf_combine_inside (BitVec.and_self), (fieldOf_fieldSet hc).1]

theorem fieldOf_combine_setter_of_ne (w : Word) {g : Field} (h : g ≠ f) :
    fieldOf g (combine w f.mask (fieldSet f c)) = fieldOf g w := by
  rw [← fieldSet_and_mask hc, fieldOf_combine_outside (mask_and_mask h)]

/-- A setter's value combined into a legal word leaves it legal (42_config.md R214). -/
theorem legalCnf_combine_setter {w : Word} (hw : legalCnf w = true) :
    legalCnf (combine w f.mask (fieldSet f c)) = true := by
  obtain ⟨hrsv, hfields⟩ := (legalCnf_iff_fields w).mp hw
  refine (legalCnf_iff_fields _).mpr ⟨?_, fun g => ?_⟩
  · have hset : fieldSet f c &&& rsvMask = 0 := by
      rw [← fieldSet_and_mask hc, BitVec.and_assoc, mask_and_rsvMask]
      exact BitVec.and_zero
    rw [combine, BitVec.and_or_distrib_right, hset, BitVec.and_assoc, BitVec.and_comm (~~~f.mask), ← BitVec.and_assoc,
      hrsv]
    simp
  · by_cases hg : g = f
    · subst hg
      rw [fieldOf_combine_setter hc]
      exact (fieldOf_fieldSet hc).2
    · rw [fieldOf_combine_setter_of_ne hc w hg]
      exact hfields g

end

end Sys2Proof.Machine
end

section
/-! The statements on a read-modify-write's two steps: O35, O36 and O46. -/

namespace Sys2Proof.Machine

/-- Settles O35: the accept step holds the value of the register, and the write step writes COMBINE of it. -/
theorem uninterruptedRmwIsAtomic : Obligations.UninterruptedRmwIsAtomic := by
  unfold Obligations.UninterruptedRmwIsAtomic
  intro s k q rest b p r v hn hf hph hi hd ho hm hp ha hr hread htakes
  have hs : (s.accepting k q (.seq k :: rest)).Acting q.latch := ⟨ho, hm, accepting_actor hn.2⟩
  have hrmw := exec_rmw (i := .rmw32) hs hp ha rfl rfl hr hread
  have htwo := step_step_of_held hn hf hph hi hd hrmw ho hm hp ha hr
  exact htwo htakes

/-- Settles O36: both write steps write the word whole, so the later one decides it. -/
theorem laterWriteOfTwoPendingWins : Obligations.LaterWriteOfTwoPendingWins := by
  unfold Obligations.LaterWriteOfTwoPendingWins
  intro s j k qj qk rest hj hk b p n hs hjk hqj hqk hfj hfk hpj hpk ho hm hp haj hak hlj hlk
  have hbase (v : Word) (x : Port) : (x.write s.cfg.dirAlias (.pinCnf n) v).base = x.base := Port.write_base ..
  have hstep := step_rmwWrite_port (r := .pinCnf n) ⟨hs, hqj⟩ hfj hpj ho hm hp haj nofun hlj
  have hqk₁ : (s.seqs.set j { qj with phase := .idle })[k]? = some qk := by rw [List.getElem?_set_ne hjk, hqk]
  have hp₁ := port?_of_rf_eq_withPort (hbase (combine hj.old hj.clr hj.set)) hp (t := { s with
    rf := s.rf.withPort b (Port.write s.cfg.dirAlias (.pinCnf n) (combine hj.old hj.clr hj.set)) }) rfl
  have hstep₁ := step_rmwWrite_port (s := { s with
      sched := .seq k :: rest, actor := j
      rf := s.rf.withPort b (Port.write s.cfg.dirAlias (.pinCnf n) (combine hj.old hj.clr hj.set))
      seqs := s.seqs.set j { qj with phase := .idle }
      hist := s.hist ++ [.bus (.seq j) .write hj.addr (combine hj.old hj.clr hj.set), .done j hj.op .noValue] })
    (r := .pinCnf n) ⟨rfl, hqk₁⟩ hfk hpk ho (withPort_wf hm b (hbase _)) hp₁ hak nofun hlk
  refine ⟨_, _, _, hstep, hstep₁, port?_of_rf_eq_withPort (hbase (combine hk.old hk.clr hk.set)) hp₁ rfl, ?_⟩
  exact Option.some.inj (Port.read_write_pinCnf s.cfg.dirAlias n _ _)

/-- Settles O46: the word written is COMBINE of the legal word read with the field's mask and value, so only the field
changes and the value check passes. -/
theorem setterChangesOnlyItsField : Obligations.SetterChangesOnlyItsField := by
  unfold Obligations.SetterChangesOnlyItsField
  intro s k q rest p f n c hn hf hph hi hd hc ho hm hp hlegal
  have hs : (s.accepting k q (.seq k :: rest)).Serves q.latch p := ⟨⟨ho, hm, accepting_actor hn.2⟩, hp⟩
  have hword := legalCnf_combine_setter hc hlegal
  obtain ⟨s₁, t, q', hstep, hstep₁, hrf, hq', hphase, hfault⟩ := step_step_of_held (r := .pinCnf n) hn hf hph hi hd
    (exec_setterOf hs f n hc) ho hm hp (cfgAddr_eq s.cfg.offsets q.ops.a n.isLt) nofun hword
  have hport := port?_of_rf_eq_withPort (fun x => Port.write_base _ _ _ x) hp hrf
  have hself : (p.write s.cfg.dirAlias (.pinCnf n) (combine p.cnf[n] f.mask (fieldSet f c))).cnf[n] =
      combine p.cnf[n] f.mask (fieldSet f c) :=
    Option.some.inj (Port.read_write_pinCnf s.cfg.dirAlias n _ p)
  refine ⟨s₁, t, _, q', hstep, hstep₁, hport, hq', hphase, hfault, ?_, ?_, fun g hg => ?_, fun m hne => ?_⟩
  · rw [hself]
    exact hword
  · rw [hself]
    exact fieldOf_combine_setter hc _
  · rw [hself]
    exact fieldOf_combine_setter_of_ne hc _ hg
  · simpa using Vector.getElem_set_ne (xs := p.cnf) n.isLt m.isLt (Fin.val_ne_of_ne hne.symm)

end Sys2Proof.Machine
end

section
/-! SUPPORT. Equal bus effects (30_encoding.md R121): the bus events a completed accept step leaves in the history. -/

namespace Sys2Proof.Machine

section
variable {s s' : State} (hh : s'.hist = s.hist) (ha : s'.actor = s.actor)
include hh ha

/-- Two stores of one word to one address that leave one register file. -/
theorem sameBusEffect_afterStore (op op' : Op) (addr v : Word) (m : Memory) :
    SameBusEffect (s.afterStore op addr v m) (s'.afterStore op' addr v m) := by
  refine ⟨rfl, ?_⟩
  simp only [State.afterStore, hh, ha, List.filter_append]
  rfl

/-- Two read-modify-writes that read one word at one address. -/
theorem sameBusEffect_afterRmwRead (hrf : s'.rf = s.rf) (q q' : Seq) {h h' : Hold} (haddr : h'.addr = h.addr)
    (hold : h'.old = h.old) : SameBusEffect (s.afterRmwRead q h) (s'.afterRmwRead q' h') := by
  refine ⟨hrf.symm, ?_⟩
  simp [State.afterRmwRead, hh, ha, haddr, hold]

end

/-- From `s` to `t` the acting sequencer reads `w` at `addr`, once, and no register changes. -/
def ReadsOnce (s t : State) (addr w : Word) : Prop :=
  t.rf = s.rf ∧ t.hist.filter Event.isBus = s.hist.filter Event.isBus ++ [.bus (.seq s.actor) .read addr w]

theorem ReadsOnce.sameBusEffect {s t u : State} {addr w : Word} (ht : ReadsOnce s t addr w)
    (hu : ReadsOnce s u addr w) : SameBusEffect t u :=
  ⟨ht.1.trans hu.1.symm, ht.2.trans hu.2.symm⟩

theorem readsOnce_afterLoad (s : State) (op : Op) (addr w : Word) (q : Seq) (res : Result) :
    ReadsOnce s (s.afterLoad op addr w q res) addr w := by
  refine ⟨rfl, ?_⟩
  rw [State.afterLoad, List.filter_append]
  rfl

theorem readsOnce_afterReadFault (s : State) (q : Seq) (addr w : Word) :
    ReadsOnce s (s.afterReadFault q addr w) addr w := by
  refine ⟨rfl, ?_⟩
  rw [State.afterReadFault, List.filter_append]
  rfl

/-- Every getter reads its pin's configuration word once, whether its code is a value or not (42_config.md R204 to
R208). -/
theorem readsOnce_of_getterOf {s t : State} {q : Seq} {p : Port} (hs : s.Serves q p) (f : Field) (n : Fin 32)
    (h : exec (getterOf f n) s = .next t) : ReadsOnce s t (cfgAddr q.lat.a n) p.cnf[n] := by
  obtain ⟨-, hdir, hinput, hdrive⟩ := configReadsReturnWordOrField s q p n hs
  obtain ⟨-, hpull, hsense, -, hpull', hsense'⟩ := decodingReadsCheckTheirCodes s q p n hs
  cases f with
  | dir => cases hdir.symm.trans h; exact readsOnce_afterLoad ..
  | input => cases hinput.symm.trans h; exact readsOnce_afterLoad ..
  | drive => cases hdrive.symm.trans h; exact readsOnce_afterLoad ..
  | pull =>
    by_cases hc : ((p.cnf[n].extractLsb' 2 2).setWidth 32 : Word) = 2
    · cases (hpull' hc).symm.trans h; exact readsOnce_afterReadFault ..
    · cases (hpull hc).symm.trans h; exact readsOnce_afterLoad ..
  | sense =>
    by_cases hc : ((p.cnf[n].extractLsb' 16 2).setWidth 32 : Word) = 1
    · cases (hsense' hc).symm.trans h; exact readsOnce_afterReadFault ..
    · cases (hsense hc).symm.trans h; exact readsOnce_afterLoad ..

/-- One word stored to one register is one bus effect, whatever operation stores it. -/
theorem StoresToPort.sameBusEffect {s t u : State} {q : Seq} {i i' : Instr} {r : Reg} {v : Word}
    (h : StoresToPort s q i r v) (h' : StoresToPort s q i' r v) (ht : exec i s = .next t)
    (hu : exec i' s = .next u) : SameBusEffect t u := by
  cases h.symm.trans ht
  cases h'.symm.trans hu
  exact sameBusEffect_afterStore rfl rfl ..

/-- The record `rec_F(VAL)` under the mask of `F` is the setter's set word (30_encoding.md R119). -/
theorem exists_record?_ofField {f : Field} {n : Nat} {c : Val} (hc : c ∈ valDomain (setterOf f n c).op) :
    ∃ r, (RecBus.ofField f c).record? = some r ∧ pack r &&& f.mask = fieldSet f c := by
  have hword : (RecBus.ofField f c).record?.isSome = true ∧ (RecBus.ofField f c).word &&& f.mask = fieldSet f c := by
    rw [valDomain_setterOf] at hc
    cases f <;> revert c <;> decide
  obtain ⟨hsome, hset⟩ := hword
  obtain ⟨r, hr⟩ := Option.isSome_iff_exists.mp hsome
  rw [RecBus.word_of_record? hr] at hset
  exact ⟨r, hr, hset⟩

section
variable {s : State} {q : Seq} {p : Port}

theorem withLatched_acting (hs : s.Acting q) (o : Operands) : (s.withLatched q o).Acting { q with lat := o } := by
  obtain ⟨ho, hm, hq⟩ := hs
  exact ⟨ho, hm, getElem?_set_of_getElem? hq _⟩

/-- Two read-modify-writes, of a state and of the state with another latched request, that read one word at one address
and hold the same values but for the operation. -/
theorem sameHolds (hq : s.seqs[s.actor]? = some q) (o : Operands) (h : Hold) (op : Op) :
    SameBusEffect (s.afterRmwRead q h) ((s.withLatched q o).afterRmwRead { q with lat := o } { h with op := op }) ∧
      ∃ qt qu, (s.afterRmwRead q h).seqs[s.actor]? = some qt ∧
        ((s.withLatched q o).afterRmwRead { q with lat := o } { h with op := op }).seqs[s.actor]? = some qu ∧
        qt.phase = .rmwPending h ∧ qu.phase = .rmwPending { h with op := op } :=
  ⟨sameBusEffect_afterRmwRead (s' := s.withLatched q o) rfl rfl rfl q { q with lat := o } rfl rfl,
    _, _, getElem?_set_of_getElem? hq _,
    getElem?_set_of_getElem? (getElem?_set_of_getElem? hq _) _, rfl, rfl⟩

end

end Sys2Proof.Machine
end

section
/-! The statement of 30_encoding.md on the operations of equal bus effect: O47. -/

namespace Sys2Proof.Machine

/-- Settles O47: each pair makes one and the same access, a store, a held read or a load, of one register. -/
theorem equalBusEffects : Obligations.EqualBusEffects := by
  unfold Obligations.EqualBusEffects
  intro s q p n hs
  have hq := hs.1.2.2
  have haddr := cfgAddr_eq s.cfg.offsets q.lat.a n.isLt
  refine ⟨fun t u ht hu => ?_, fun t u ht hu => ?_, fun f c t u hc ht hu => ?_, fun rec t u hr ht hu => ?_,
    fun rec t u hr ht hu => ?_, fun f t u ht hu => ?_⟩
  · exact (writeOutput_storesToPort (d := 1) hs n.isLt (.inr rfl)).sameBusEffect (setOutput_storesToPort hs n.isLt)
      ht hu
  · exact (writeOutput_storesToPort (d := 0) hs n.isLt (.inl rfl)).sameBusEffect
      (clearOutput_storesToPort hs n.isLt) ht hu
  · obtain ⟨rec, hrec, hset⟩ := exists_record?_ofField hc
    have hupdate := exec_update (q := { q with lat := { q.lat with record := RecBus.ofField f c, d0 := f.mask } })
      ⟨withLatched_acting hs.1 _, hs.2⟩ n hrec
    cases (exec_setterOf hs f n hc).symm.trans ht
    cases hupdate.symm.trans hu
    rw [hset]
    obtain ⟨hsame, qt, qu, hqt, hqu, hpt, hpu⟩ := sameHolds hq
      { q.lat with record := RecBus.ofField f c, d0 := f.mask }
      { addr := cfgAddr q.lat.a n, clr := f.mask, set := fieldSet f c, old := p.cnf[n],
        op := (setterOf f n c).op } .update
    exact ⟨hsame, qt, qu, _, _, hqt, hqu, hpt, hpu, rfl⟩
  · have hwrite := exec_store (r := .pinCnf n) (i := .write32) (withLatched_acting hs.1
      { q.lat with a := q.lat.a + 0x700 + 4 * BitVec.ofNat 32 n, d0 := pack rec }) hs.2 haddr rfl rfl nofun
      (legalCnf_pack rec)
    cases (exec_configure hs n hr).symm.trans ht
    cases hwrite.symm.trans hu
    exact sameBusEffect_afterStore rfl rfl ..
  · have hrmw := exec_rmw (r := .pinCnf n) (i := .rmw32) (withLatched_acting hs.1
      { q.lat with a := q.lat.a + 0x700 + 4 * BitVec.ofNat 32 n, d1 := pack rec &&& q.lat.d0 }) hs.2 haddr rfl rfl
      nofun rfl
    cases (exec_update hs n hr).symm.trans ht
    cases hrmw.symm.trans hu
    obtain ⟨hsame, qt, qu, hqt, hqu, hpt, hpu⟩ := sameHolds hq
      { q.lat with a := q.lat.a + 0x700 + 4 * BitVec.ofNat 32 n, d1 := pack rec &&& q.lat.d0 }
      { addr := cfgAddr q.lat.a n, clr := q.lat.d0, set := pack rec &&& q.lat.d0, old := p.cnf[n],
        op := .update } .rmw32
    exact ⟨hsame, qt, qu, _, _, hqt, hqu, hpt, hpu, rfl⟩
  · have hraw := (configReadsReturnWordOrField s q p n hs).1
    cases hraw.symm.trans hu
    exact (readsOnce_of_getterOf hs f n ht).sameBusEffect (readsOnce_afterLoad ..)

end Sys2Proof.Machine
end

section
/-! SUPPORT. What an accept step leaves unchanged: the registers but for one store, the other sequencers, and the
requester's side of its own (10_state.md R43, R45, R61). -/

namespace Sys2Proof

open Sys2Proof.Machine

/-- The operations that are one store are those whose rule gives a store address (30_encoding.md R119). -/
theorem Instr.storeAddr?_eq_some_iff {i : Instr} {c : Offsets} {o : Operands} {a : Word} :
    i.storeAddr? c o.a = some a ↔ ∃ v, i.access c o = .store a v := by
  cases i <;> simp [Instr.storeAddr?, Instr.access]

namespace Machine

/-- Which operations make an access: the loads, READ_CONFIG, the stores and the read-modify-writes
(70_reset_and_hazards.md R286). -/
def Access.KindOf (x : Access) (i : Instr) : Prop :=
  match x with
  | .load _ | .loadField _ _ _ => i.isRmw = false ∧ ∀ n, i ≠ .readConfig n
  | .loadRecord _ => i.isRmw = false ∧ ∃ n, i = .readConfig n
  | .store _ _ => i.isLoad = false ∧ i.isRmw = false
  | .rmw _ _ _ => i.isLoad = false ∧ ∀ n, i ≠ .readConfig n

theorem access_kindOf (i : Instr) (c : Offsets) (o : Operands) : (i.access c o).KindOf i := by
  cases i <;> simp [Instr.access, Access.KindOf, Instr.isLoad, Instr.isRmw]

section
variable {s t : State} {q : Seq} {i : Instr}

/-! ### Registers -/

/-- The answer of an access is one store or leaves the register file (10_state.md R43, R45). -/
theorem Access.Answers.rf_cases {x : Access} (h : x.Answers s q i t) :
    t.rf = s.rf ∨ ∃ a v b r, x = .store a v ∧ s.checkWriteAddr a = .ok (b, r) ∧
      t = s.afterStore i.op a v (s.rf.withPort b (Port.write s.cfg.dirAlias r v)) := by
  cases h with
  | store hw hv => exact .inr ⟨_, _, _, _, rfl, hw, rfl⟩
  | load | loadField | loadFieldFault | loadRecord | loadRecordFault | rmw => exact .inl rfl

/-- The direction state is in DIR and the configuration words alone (10_state.md R41). -/
theorem Port.dirv_congr {p p' : Port} (hdir : p'.dir = p.dir) (hcnf : p'.cnf = p.cnf) (al : Bool) :
    p'.dirv al = p.dirv al := by
  rw [Port.dirv, Port.dirv, hdir, hcnf]

/-- A write of the direction state shows in DIR and, under P_DIR_ALIAS, in the configuration words (10_state.md
R41). -/
theorem Port.read_setDirv {al : Bool} {r : Reg} (h : Reg.dir.affects al r = false) (v : Word) (p : Port) :
    (p.setDirv al v).read al r = p.read al r := by
  cases r with
  | dir => cases h
  | pinCnf m =>
    have hal : al = false := h
    rw [hal, Port.setDirv_false]
    rfl
  | out | outset | outclr | inp | dirset | dirclr | latch | detectmode => cases al <;> simp [Port.read]

/-- A write shows in no register it does not affect (10_state.md R39, R41). -/
theorem Port.read_write_of_not_affects {al : Bool} {r r' : Reg} (h : r.affects al r' = false) (v : Word) (p : Port) :
    (p.write al r v).read al r' = p.read al r' := by
  cases r with
  | inp => rfl
  | dir | dirset | dirclr => exact Port.read_setDirv h _ p
  | out | outset | outclr =>
    cases r' with
    | out => cases h
    | dir => exact congrArg some (Port.dirv_congr rfl rfl al)
    | _ => simp only [Port.read, Port.write]
  | latch =>
    cases r' with
    | latch => cases h
    | dir => exact congrArg some (Port.dirv_congr rfl rfl al)
    | _ => simp only [Port.read, Port.write]
  | detectmode =>
    cases r' with
    | detectmode => cases h
    | dir => exact congrArg some (Port.dirv_congr rfl rfl al)
    | _ => simp only [Port.read, Port.write]
  | pinCnf n =>
    cases r' with
    | pinCnf m =>
      have hne : n ≠ m := by rintro rfl; simp [Reg.affects] at h
      exact congrArg some (Vector.getElem_set_ne n.isLt m.isLt (Fin.val_ne_of_ne hne))
    | dir =>
      have hal : al = false := by simpa [Reg.affects] using h
      rw [hal]
      simp only [Port.read, Port.write, Port.dirv_false]
    | _ => simp only [Port.read, Port.write]

theorem regAt_modifyPort {f : Port → Port} (hf : ∀ p, (f p).base = p.base) (s : State) (a b : Word) :
    (s.modifyPort b f).regAt a = (s.regAt a).map fun x => (if x.1.base = b then f x.1 else x.1, x.2) := by
  have hbase (p : Port) : (if p.base = b then f p else p).base = p.base := by split <;> simp [hf]
  simp only [State.regAt, State.modifyPort_rf, State.modifyPort_cfg, List.findSome?_map, List.map_findSome?]
  congr 1
  funext p
  simp [Function.comp_def, hbase]

/-- An address whose register is in another port, or not affected by the register written, reads as before. -/
theorem readWord_modifyPort_write {b a : Word} {r : Reg} {v : Word}
    (h : ∀ p' r', s.regAt a = some (p', r') → p'.base = b → r.affects s.cfg.dirAlias r' = false) :
    (s.modifyPort b (Port.write s.cfg.dirAlias r v)).readWord a = s.readWord a := by
  rw [State.readWord, State.readWord, regAt_modifyPort fun x => Port.write_base _ r v x]
  cases hreg : s.regAt a with
  | none => rfl
  | some x =>
    obtain ⟨p', r'⟩ := x
    simp only [Option.map_some, Option.bind_some, State.modifyPort_cfg]
    split
    · exact Port.read_write_of_not_affects (h p' r' hreg ‹_›) v p'
    · rfl

/-! ### The acting sequencer -/

/-- What an accept step that only reads leaves of the acting sequencer: `q` before it, `q'` after (42_config.md
R217). -/
def Seq.KeptByReading (i : Instr) (q q' : Seq) : Prop :=
  q'.ops = q.ops ∧ q'.lat = q.lat ∧ q'.issued = q.issued ∧ (i.isRmw = true → q'.rdata = q.rdata) ∧
    ((∀ n, i ≠ .readConfig n) → q'.rrec = q.rrec) ∧
    (q'.fault = false → q.fault = false ∧ q'.cause = q.cause ∧ q'.finfo = q.finfo ∧
      (i.isLoad = true → q'.phase = q.phase))

theorem keptByReading_faulted (i : Instr) (q : Seq) (o : Operands) (c : FaultCode) (d : Detail) :
    q.KeptByReading i (q.faulted o c d) :=
  ⟨rfl, rfl, rfl, fun _ => rfl, fun _ => rfl, nofun⟩

/-- The answer of an access that is no store is an event and a sequencer update. -/
theorem Access.Answers.of_reading {x : Access} (h : x.Answers s q i t) (hi : i.isLoad = true ∨ i.isRmw = true)
    (hk : x.KindOf i) :
    ∃ q' l, t = { s with seqs := s.seqs.set s.actor q', hist := l } ∧ q.KeptByReading i q' := by
  cases h with
  | load hr =>
    obtain ⟨hrmw, -⟩ := hk
    refine ⟨_, _, rfl, rfl, rfl, rfl, fun h => ?_, fun _ => rfl, fun hf => ⟨hf, rfl, rfl, fun _ => rfl⟩⟩
    cases hrmw.symm.trans h
  | loadField hr hv =>
    obtain ⟨hrmw, -⟩ := hk
    refine ⟨_, _, rfl, rfl, rfl, rfl, fun h => ?_, fun _ => rfl, fun hf => ⟨hf, rfl, rfl, fun _ => rfl⟩⟩
    cases hrmw.symm.trans h
  | loadRecord hr hv =>
    obtain ⟨hrmw, n, hn⟩ := hk
    refine ⟨_, _, rfl, rfl, rfl, rfl, fun h => ?_, fun h => absurd hn (h n),
      fun hf => ⟨hf, rfl, rfl, fun _ => rfl⟩⟩
    cases hrmw.symm.trans h
  | loadFieldFault | loadRecordFault => exact ⟨_, _, rfl, keptByReading_faulted i q _ _ _⟩
  | store =>
    obtain ⟨hload, hrmw⟩ := hk
    simp [hload, hrmw] at hi
  | rmw hr hw =>
    obtain ⟨hload, -⟩ := hk
    refine ⟨_, _, rfl, rfl, rfl, rfl, fun _ => rfl, fun _ => rfl, fun hf => ⟨hf, rfl, rfl, fun h => ?_⟩⟩
    cases hload.symm.trans h

end

end Machine

end Sys2Proof
end

section
/-! The statements on what changes a register and what an operation leaves unchanged: O56, O57 and O59. -/

namespace Sys2Proof.Machine

/-- Settles O56: an access that is no store updates the acting sequencer and the history alone. -/
theorem readingStepsFrame : Obligations.ReadingStepsFrame := by
  unfold Obligations.ReadingStepsFrame
  intro s t i q hi hq e
  obtain ⟨q', l, rfl, hkept⟩ :
      ∃ q' l, t = { s with seqs := s.seqs.set s.actor q', hist := l } ∧ q.KeptByReading i q' := by
    obtain ⟨-, ha⟩ | ⟨r, -, rfl⟩ := exec_answers_cases hq e
    · exact ha.of_reading hi (access_kindOf i s.cfg.offsets q.lat)
    · exact ⟨_, _, rfl, keptByReading_faulted i q q.lat r.code r.detail⟩
  exact ⟨rfl, fun _ => rfl, rfl, rfl, rfl, rfl, fun j hj => List.getElem?_set_ne hj.symm, q',
    getElem?_set_of_getElem? hq q', hkept⟩

/-- Settles O57: the store changes one register of one port, and shows where that register does; a fault before it
changes no register. -/
theorem storingStepsFrame : Obligations.StoringStepsFrame := by
  unfold Obligations.StoringStepsFrame
  intro s t i q addr hs haddr e
  obtain ⟨ho, hm, hq⟩ := hs
  obtain ⟨v, hi⟩ := Instr.storeAddr?_eq_some_iff.mp haddr
  obtain ⟨-, ha⟩ | ⟨x, -, rfl⟩ := exec_answers_cases hq e
  · rw [hi] at ha
    cases ha with
    | @store _ _ b r hw hv =>
      obtain ⟨p, hreg, rfl, -⟩ := checkWriteAddr_ok hw
      refine ⟨fun a hne => ?_, rfl, rfl, rfl, rfl, fun _ _ => rfl, q, hq, rfl, rfl, rfl, rfl, rfl, fun _ => rfl⟩
      exact readWord_modifyPort_write fun p' r' hreg' hb => hne p r p' r' hreg hreg' hb
  · exact ⟨fun _ _ => rfl, rfl, rfl, rfl, rfl, fun j hj => List.getElem?_set_ne hj.symm, _,
      getElem?_set_of_getElem? hq _, rfl, rfl, rfl, rfl, rfl, nofun⟩

/-- Settles O59: of a sequencer's steps only an accepted store and a write step that passes its checks change the
register file, each by the write effect of the register it checked. -/
theorem registerChangesAreBusWrites : Obligations.RegisterChangesAreBusWrites := by
  unfold Obligations.RegisterChangesAreBusWrites
  intro s t k q rest hn e hne
  cases step_seqStep hn e with
  | disabled | undecodable | writeFault => exact absurd rfl hne
  | accept i _ hf hp hi hd he =>
    obtain ⟨-, ha⟩ | ⟨x, -, rfl⟩ := exec_answers_cases (accepting_actor hn.2) he
    · obtain hrf | ⟨a, v, b, r, hstore, hw, rfl⟩ := ha.rf_cases
      · exact absurd hrf hne
      · exact ⟨a, v, b, r, i.op, hw, rfl, rfl,
          .inl ⟨hp, i, hd, rfl, Instr.storeAddr?_eq_some_iff.mpr ⟨v, hstore⟩⟩⟩
    · exact absurd rfl hne
  | write h b r hf hp hw hv =>
    exact ⟨h.addr, combine h.old h.clr h.set, b, r, h.op, hw, rfl, rfl, .inr ⟨h, hp, rfl, rfl, rfl⟩⟩

end Sys2Proof.Machine
end

section
/-! SUPPORT. The faults an accept step can raise: what VALIDATE raises for which operands, what the checks of an access
raise, and that the access of a validated port or configuration operation raises none (60_exceptions.md R244). -/

namespace Sys2Proof

open Sys2Proof.Machine

namespace Machine

section
variable {s t : State} {q : Seq} {i : Instr} {o : Operands} {x : Raise}

/-! ### VALIDATE -/

theorem checkBase_error {a : Word} (h : s.checkBase a = .error x) :
    x = { code := .misaligned, detail := .address a } ∨ x = { code := .unmapped, detail := .address a } := by
  unfold State.checkBase at h
  split at h
  · cases h; exact .inl rfl
  · split at h <;> cases h
    exact .inr rfl

/-- The faults VALIDATE raises (60_exceptions.md R242, R243). -/
theorem validate_error_cases (h : i.validate s o = .error x) :
    (∃ n, i.pin? = some n ∧ x = { code := .pinRange, detail := .pin n }) ∨
      (¬ i.ValOk ∧ x = { code := .badValue, detail := .nothing }) ∨
      (i.readsRec = true ∧ x = { code := .badRecord, detail := .record o.record }) ∨
      x = { code := .misaligned, detail := .address o.a } ∨ x = { code := .unmapped, detail := .address o.a } := by
  by_cases hpin : i.PinOk
  · by_cases hval : i.ValOk
    · by_cases hrec : i.readsRec = true → o.record.pull ≠ 2 ∧ o.record.sense ≠ 1
      · cases hm : i.isMmio with
        | true => cases (validate_of_isMmio hm s o).symm.trans h
        | false => exact .inr (.inr (.inr (checkBase_error (validate_eq_checkBase hm ⟨hpin, hval⟩ hrec ▸ h))))
      · obtain ⟨hr, hcodes⟩ := Classical.not_imp.mp hrec
        have hbad : o.record.pull = 2 ∨ o.record.sense = 1 := by tauto
        cases (validate_eq_badRecord hpin hr hbad).symm.trans h
        exact .inr (.inr (.inl ⟨hr, rfl⟩))
    · obtain ⟨v, hv⟩ := not_forall.mp hval
      obtain ⟨hv, hmem⟩ := Classical.not_imp.mp hv
      cases (validate_eq_badValue hpin hv hmem).symm.trans h
      exact .inr (.inl ⟨hval, rfl⟩)
  · obtain ⟨n, hn⟩ := not_forall.mp hpin
    obtain ⟨hn, hlt⟩ := Classical.not_imp.mp hn
    cases (validate_eq_pinRange hn (Nat.le_of_not_lt hlt)).symm.trans h
    exact .inl ⟨n, hn, rfl⟩

/-- A fault VALIDATE raises carries the info R240 gives it. -/
theorem validate_fits (h : i.validate s o = .error x) : x.Fits o := by
  obtain ⟨n, -, rfl⟩ | ⟨-, rfl⟩ | ⟨-, rfl⟩ | rfl | rfl := validate_error_cases h
  · exact ⟨n, rfl⟩
  · rfl
  · rfl
  · exact ⟨_, rfl⟩
  · exact ⟨_, rfl⟩

/-! ### The rows of R244 -/

theorem pinRange_mem_acceptFaults {n : Nat} (h : i.pin? = some n) : FaultCode.pinRange ∈ i.acceptFaults := by
  cases i with
  | read32 | write32 | rmw32 | readLatch | getDetectMode | setDetectMode => cases h
  | _ => simp [Instr.acceptFaults]

theorem badValue_mem_acceptFaults (h : ¬ i.ValOk) : FaultCode.badValue ∈ i.acceptFaults := by
  have hdrive : ∀ v : Val, v ∈ valDomain .setDrive := by decide
  cases i with
  | writeOutput | setDirection | setDetectMode | setCfgDir | setInput | setPull | setSense =>
    simp [Instr.acceptFaults]
  | setDrive n v => exact absurd (fun w _ => hdrive w) h
  | _ => exact absurd nofun h

theorem badRecord_mem_acceptFaults (h : i.readsRec = true) : FaultCode.badRecord ∈ i.acceptFaults := by
  cases i with
  | configure | update => simp [Instr.acceptFaults]
  | _ => cases h

theorem address_faults_mem_acceptFaults (i : Instr) :
    FaultCode.misaligned ∈ i.acceptFaults ∧ FaultCode.unmapped ∈ i.acceptFaults := by
  cases i <;> simp [Instr.acceptFaults]

theorem validate_error_mem_acceptFaults (h : i.validate s o = .error x) : x.code ∈ i.acceptFaults := by
  obtain ⟨n, hn, rfl⟩ | ⟨hv, rfl⟩ | ⟨hr, rfl⟩ | rfl | rfl := validate_error_cases h
  · exact pinRange_mem_acceptFaults hn
  · exact badValue_mem_acceptFaults hv
  · exact badRecord_mem_acceptFaults hr
  · exact (address_faults_mem_acceptFaults i).1
  · exact (address_faults_mem_acceptFaults i).2

/-! ### The checks of an access -/

theorem checkRead_error_code {a : Word} (h : s.checkRead a = .error x) :
    x.code ∈ [FaultCode.misaligned, .unmapped, .writeOnlyRead] := by
  unfold State.checkRead at h
  split at h
  · cases h; simp
  · split at h
    · cases h; simp
    · split at h <;> cases h
      simp

theorem checkWriteAddr_error_code {a : Word} (h : s.checkWriteAddr a = .error x) :
    x.code ∈ [FaultCode.misaligned, .unmapped, .readOnlyWrite] := by
  unfold State.checkWriteAddr at h
  split at h
  · cases h; simp
  · split at h
    · cases h; simp
    · split at h <;> cases h
      simp

theorem checkWriteValue_error_code {r : Reg} {a v : Word} (h : checkWriteValue r a v = .error x) :
    x.code ∈ [FaultCode.readOnlyWrite, .reservedFieldWrite] := by
  unfold checkWriteValue at h
  split at h
  · split at h <;> cases h
    simp
  · split at h
    · cases h; simp
    · split at h <;> cases h
      simp
  all_goals cases h

theorem bind_eq_error_cases {α β : Type} {y : Except Raise α} {g : α → Except Raise β} (h : (y >>= g) = .error x) :
    y = .error x ∨ ∃ a, y = .ok a ∧ g a = .error x := by
  cases y with
  | error r => cases h; exact .inl rfl
  | ok a => exact .inr ⟨a, rfl, h⟩

/-- The faults of the checks an MMIO operation's access makes (60_exceptions.md R244). -/
theorem mmio_error_mem_acceptFaults (hm : i.isMmio = true)
    (h : (i.access s.cfg.offsets o).run i o s = .error x) : x.code ∈ i.acceptFaults := by
  cases i with
  | read32 =>
    obtain hr | ⟨_, -, ⟨⟩⟩ := bind_eq_error_cases h
    exact checkRead_error_code hr
  | write32 =>
    obtain hw | ⟨⟨b, r⟩, -, h⟩ := bind_eq_error_cases h
    · have hcode := checkWriteAddr_error_code hw
      simp only [Instr.acceptFaults, List.mem_cons] at hcode ⊢
      tauto
    · obtain hv | ⟨_, -, ⟨⟩⟩ := bind_eq_error_cases h
      have hcode := checkWriteValue_error_code hv
      simp only [Instr.acceptFaults, List.mem_cons] at hcode ⊢
      tauto
  | rmw32 =>
    obtain hr | ⟨_, -, h⟩ := bind_eq_error_cases h
    · have hcode := checkRead_error_code hr
      simp only [Instr.acceptFaults, List.mem_cons] at hcode ⊢
      tauto
    · obtain hw | ⟨_, -, ⟨⟩⟩ := bind_eq_error_cases h
      have hcode := checkWriteAddr_error_code hw
      simp only [Instr.acceptFaults, List.mem_cons] at hcode ⊢
      tauto
  | _ => cases hm

theorem run_outcome (y : Access) (i : Instr) (s : State) (q : Seq) : BodyOutcome s q (y.run i q.lat s) := by
  cases y with
  | load => exact loadOp_outcome
  | loadField => exact loadFieldOp_outcome
  | loadRecord => exact loadRecordOp_outcome
  | store => exact storeOp_outcome
  | rmw => exact rmwAccept_outcome

/-- A fault an accept step raises before its access carries the info R240 gives it. -/
theorem body_fits (h : i.body s q.lat = .error x) : x.Fits q.lat := by
  obtain hv | ⟨-, -, h⟩ := bind_eq_error_cases h
  · exact validate_fits hv
  · have hout := run_outcome (i.access s.cfg.offsets q.lat) i s q
    rwa [h] at hout

/-! ### The access of a validated port or configuration operation -/

theorem exists_read_of_readable (al : Bool) (p : Port) {r : Reg} (h : r.readable = true) :
    ∃ v, p.read al r = some v := by
  refine Option.ne_none_iff_exists'.mp fun hnone => ?_
  cases (Port.read_eq_none_iff.mp hnone).symm.trans h

/-- A register that takes an access raises no fault at it, nor does a legal configuration word at a decoding read
(log 13, 10_state.md R49). -/
theorem exists_answer_of_suits {y : Access} {a : Word} {p : Port} {r : Reg} (hs : s.Acting q)
    (hp : s.port? a = some p) (hlegal : CnfLegal p.cnf) (haddr : y.addr = a + offsetOf s.cfg.offsets r)
    (hsuits : y.Suits r) :
    ∃ u q', y.run i q.lat s = .ok u ∧ u.seqs[s.actor]? = some q' ∧ q'.fault = q.fault := by
  obtain ⟨ho, hm, hq⟩ := hs
  have hset (q' : Seq) : (s.seqs.set s.actor q')[s.actor]? = some q' := getElem?_set_of_getElem? hq q'
  have hread {v : Word} (hv : p.read s.cfg.dirAlias r = some v) : s.checkRead y.addr = .ok v :=
    haddr ▸ checkRead_port ho hm hp hv
  have hwrite (hr : r ≠ .inp) : s.checkWriteAddr y.addr = .ok (a, r) :=
    haddr ▸ checkWriteAddr_port ho hm hp hr
  cases y with
  | load addr =>
    obtain ⟨v, hv⟩ := exists_read_of_readable s.cfg.dirAlias p hsuits
    exact ⟨_, _, run_of_answers hq (.load (hread hv)), hset _, rfl⟩
  | loadField addr f bad =>
    obtain ⟨⟨n, rfl⟩, hcode⟩ := hsuits
    obtain ⟨-, hfields⟩ := (legalCnf_iff_fields _).mp (hlegal n)
    have hne : fieldOf f p.cnf[n] ≠ bad := by
      obtain ⟨rfl, rfl⟩ | ⟨rfl, rfl⟩ := hcode
      · exact bne_iff_ne.mp (hfields .pull)
      · exact bne_iff_ne.mp (hfields .sense)
    exact ⟨_, _, run_of_answers hq (.loadField (hread rfl) hne), hset _, rfl⟩
  | loadRecord addr =>
    obtain ⟨n, rfl⟩ := hsuits
    obtain ⟨-, hpull, hsense⟩ := (legalCnf_iff _).mp (hlegal n)
    obtain ⟨rec, hrec⟩ := exists_unpack_eq_ok hpull hsense
    exact ⟨_, _, run_of_answers hq (.loadRecord (hread rfl) hrec), hset _, rfl⟩
  | store addr v =>
    obtain ⟨hr, hv⟩ := hsuits
    exact ⟨_, _, run_of_answers hq (.store (hwrite hr) (checkWriteValue_eq_ok_iff.mpr hv)), hq, rfl⟩
  | rmw addr clr set =>
    obtain ⟨n, rfl⟩ := hsuits
    exact ⟨_, _, run_of_answers hq (.rmw (hread rfl) (hwrite nofun)), hset _, rfl⟩

/-- The answer of an MMIO operation's access is no fault (60_exceptions.md R244). -/
theorem fault_eq_of_mmio_answers {q' : Seq} (hq : s.seqs[s.actor]? = some q) (hm : i.isMmio = true)
    (h : (i.access s.cfg.offsets q.lat).Answers s q i t) (hq' : t.seqs[s.actor]? = some q') :
    q'.fault = q.fault := by
  have hset (y : Seq) : (s.seqs.set s.actor y)[s.actor]? = some y := getElem?_set_of_getElem? hq y
  cases i with
  | read32 =>
    cases h with
    | load => cases (hset _).symm.trans hq'; rfl
  | write32 =>
    cases h with
    | store => cases hq.symm.trans hq'; rfl
  | rmw32 =>
    cases h with
    | rmw => cases (hset _).symm.trans hq'; rfl
  | _ => cases hm

/-- The register file of a state that meets the invariant is well-formed and its words are legal. -/
theorem acting_of_inv (hinv : s.Inv) (hq : s.seqs[s.actor]? = some q) :
    s.Acting q ∧ ∀ p ∈ s.rf, CnfLegal p.cnf := by
  obtain ⟨⟨ho, hbases, -⟩, hb, hp, -⟩ := hinv
  refine ⟨⟨ho, ?_, hq⟩, fun p hmem => (hp p hmem).1⟩
  unfold Memory.wf
  rwa [hb]

/-- The access of a validated port or configuration operation completes where the invariant holds (60_exceptions.md
R244). -/
theorem exists_answer_of_validate_ok (hinv : s.Inv) (hq : s.seqs[s.actor]? = some q) (hm : i.isMmio = false)
    (hv : i.validate s q.lat = .ok ()) :
    ∃ u q', (i.access s.cfg.offsets q.lat).run i q.lat s = .ok u ∧ u.seqs[s.actor]? = some q' ∧
      q'.fault = q.fault := by
  obtain ⟨hs, hlegal⟩ := acting_of_inv hinv hq
  obtain ⟨p, hp⟩ := exists_port_of_validate_ok hv hm
  obtain ⟨r, haddr, hsuits⟩ := access_suits_of_validate_ok s.cfg.offsets hm hv
  exact exists_answer_of_suits hs hp (hlegal p (port?_some hp).1) haddr hsuits

/-! ### Fault entry -/

/-- The answer of an access that faults is that of a decoding read (60_exceptions.md R250). -/
theorem Access.Answers.eq_afterReadFault {y : Access} (h : y.Answers s q i t) (hq : s.seqs[s.actor]? = some q)
    (hf : q.fault = false) {q' : Seq} (hq' : t.seqs[s.actor]? = some q') (hf' : q'.fault = true) :
    ∃ a v, t = s.afterReadFault q a v := by
  have hkept (hkeep : q'.fault = q.fault) : False := by simp [hkeep, hf] at hf'
  have hset (y : Seq) : (s.seqs.set s.actor y)[s.actor]? = some y := getElem?_set_of_getElem? hq y
  cases h with
  | load | loadField | loadRecord | rmw =>
    cases (hset _).symm.trans hq'
    exact (hkept rfl).elim
  | store =>
    cases hq.symm.trans hq'
    exact (hkept rfl).elim
  | loadFieldFault | loadRecordFault => exact ⟨_, _, rfl⟩

/-- Sequencer `k`, whose registers at fault entry are `q`, enters a fault: nothing changes but its fault state, its
phase and the schedule, and at most one read event is appended (60_exceptions.md R246, R250). -/
def FaultEntry (s : State) (k : Nat) (q : Seq) (rest : List Action) (t : State) : Prop :=
  ∃ c d l, c.DetailFits q.lat d ∧ (l = [] ∨ ∃ a v, l = [.bus (.seq k) .read a v]) ∧
    t = { s with sched := rest, actor := k, seqs := s.seqs.set k (q.faulted q.lat c d), hist := s.hist ++ l }

/-- A step by which its sequencer faults is fault entry, with the request just latched at an accept step and with the
latched one at a write step (60_exceptions.md R246, log 5). -/
theorem faultEntry_of_step {k : Nat} {q' : Seq} {rest : List Action} (hn : s.Next k q rest) (hf : q.fault = false)
    (e : step s = .next t) (hq' : t.seqs[k]? = some q') (hf' : q'.fault = true) :
    (q.phase = .idle ∧ FaultEntry s k q.latch rest t) ∨
      ∃ h, q.phase = .rmwPending h ∧ FaultEntry s k q rest t := by
  cases step_seqStep hn e with
  | disabled h =>
    cases hn.2.symm.trans hq'
    cases hf.symm.trans hf'
  | undecodable c _ hp hi hd =>
    have hfits : c.DetailFits q.ops .nothing := by obtain rfl | rfl := decode_error_cases hd <;> rfl
    exact .inl ⟨hp, c, .nothing, [], hfits, .inl rfl, by rw [List.append_nil]; rfl⟩
  | accept i _ _ hp hi hd he =>
    have hq := accepting_actor (rest := rest) hn.2
    refine .inl ⟨hp, ?_⟩
    obtain ⟨-, ha⟩ | ⟨x, hb, rfl⟩ := exec_answers_cases hq he
    · obtain ⟨a, v, rfl⟩ := ha.eq_afterReadFault hq hf hq' hf'
      refine ⟨.reservedFieldRead, .address a, _, ⟨a, rfl⟩, .inr ⟨a, v, rfl⟩, ?_⟩
      simp only [State.afterReadFault, State.afterFault, List.set_set]
    · refine ⟨x.code, x.detail, [], body_fits hb, .inl rfl, ?_⟩
      simp only [State.afterFault, List.set_set, List.append_nil]
  | write h b r =>
    cases (getElem?_set_of_getElem? hn.2 _).symm.trans hq'
    cases hf.symm.trans hf'
  | writeFault h x _ hp hx =>
    exact .inr ⟨h, hp, x.code, x.detail, [], rmwWrite_fits hx, .inl rfl, by rw [List.append_nil]; rfl⟩

end

end Machine

end Sys2Proof
end

section
/-! The statements of 60_exceptions.md on the faults of a step: O49, O50 and O51. -/

namespace Sys2Proof.Machine

/-- Settles O49: a fault is VALIDATE's, or for an MMIO operation one of its access's checks; the access of a validated
port or configuration operation raises none. -/
theorem faultsOfEachOperation : Obligations.FaultsOfEachOperation := by
  unfold Obligations.FaultsOfEachOperation
  intro s t i q q' hinv hq hf e hq' hf'
  obtain ⟨hv, ha⟩ | ⟨x, hb, rfl⟩ := exec_answers_cases hq e
  · have hkept : q'.fault = q.fault := by
      cases hm : i.isMmio with
      | true => exact fault_eq_of_mmio_answers hq hm ha hq'
      | false =>
        obtain ⟨u, y, hrun, hy, hfault⟩ := exists_answer_of_validate_ok hinv hq hm hv
        cases hrun.symm.trans (run_of_answers hq ha)
        cases hy.symm.trans hq'
        exact hfault
    cases hf'.symm.trans (hkept.trans hf)
  · cases (getElem?_set_of_getElem? hq _).symm.trans hq'
    refine ⟨x.code, rfl, ?_⟩
    obtain hv | ⟨_, hv, hrun⟩ := bind_eq_error_cases hb
    · exact validate_error_mem_acceptFaults hv
    · cases hm : i.isMmio with
      | true => exact mmio_error_mem_acceptFaults hm hrun
      | false =>
        obtain ⟨u, y, hok, -⟩ := exists_answer_of_validate_ok hinv hq hm hv
        cases hok.symm.trans hrun

/-- Settles O50: every fault of a sequencer's step is one fault entry, with the request it has latched. -/
theorem faultEntryEffect : Obligations.FaultEntryEffect := by
  unfold Obligations.FaultEntryEffect
  intro s t k q q' rest hn hf e hq' hf'
  obtain ⟨hp, c, d, l, hfits, hl, rfl⟩ | ⟨h, hp, c, d, l, hfits, hl, rfl⟩ := faultEntry_of_step hn hf e hq' hf'
  all_goals
    cases (getElem?_set_of_getElem? hn.2 _).symm.trans hq'
    have hhist : s.hist ++ l = s.hist ∨ ∃ a v, s.hist ++ l = s.hist ++ [.bus (.seq k) .read a v] := by
      obtain rfl | ⟨a, v, rfl⟩ := hl
      · exact .inl (List.append_nil _)
      · exact .inr ⟨a, v, rfl⟩
    refine ⟨rfl, rfl, rfl, rfl, ?_, ?_, ⟨c, d, rfl, hfits, rfl⟩, rfl, rfl, rfl, rfl,
      fun j hj => List.getElem?_set_ne hj.symm, hhist⟩
  · exact fun _ => ⟨rfl, rfl⟩
  · exact fun h h' => nomatch hp.symm.trans h'
  · exact fun h' => nomatch hp.symm.trans h'
  · exact fun _ _ => ⟨rfl, rfl⟩

end Sys2Proof.Machine
end

section
/-! SUPPORT. The requester's moves (10_state.md R31 to R33, 60_exceptions.md R245) and an access of another bus master
that passes its checks (20_memory.md R86), as steps. -/

namespace Sys2Proof.Machine

section
variable {s : State} {k : Nat} {q : Seq} {rest : List Action} (hq : s.seqs[k]? = some q)
include hq

/-- A move that changes sequencer `k` alone leaves the state of `afterMove`. -/
theorem modifySeq_eq_afterMove (f : Seq → Seq) :
    ({ s with sched := rest } : State).modifySeq k f = s.afterMove rest k (f q) := by
  rw [State.modifySeq, State.afterMove, modify_eq_set_of_getElem? _ _ _ _ hq]

theorem afterMove_self : s.afterMove rest k q = { s with sched := rest } := by
  obtain ⟨hk, rfl⟩ := List.getElem?_eq_some_iff.mp hq
  rw [State.afterMove, List.set_getElem_self]

theorem step_operand {w : OperandWrite} (hs : s.sched = .operand k w :: rest) :
    step s = .next (s.afterMove rest k { q with ops := q.ops.put w }) :=
  (step_of_perform hs).trans (congrArg _ (modifySeq_eq_afterMove hq _))

theorem step_issue (hs : s.sched = .issue k :: rest) :
    step s = .next (s.afterMove rest k { q with issued := true }) :=
  (step_of_perform hs).trans (congrArg _ (modifySeq_eq_afterMove hq _))

/-- Consuming a result enters the fault exactly where the register is empty and the sequencer unfaulted (60_exceptions.md
R245, log 10). -/
theorem step_consume {r : ResultReg} (hs : s.sched = .consume k r :: rest) :
    step s = .next (s.afterMove rest k
      (if q.hasResult r || q.fault then q else q.faulted q.ops .unwrittenResult (.register r))) :=
  (step_of_perform hs).trans (congrArg _ (modifySeq_eq_afterMove hq _))

/-- Consuming a register that is written, or in a faulted sequencer, changes nothing. -/
theorem step_consume_of_kept {r : ResultReg} (hs : s.sched = .consume k r :: rest)
    (h : q.hasResult r = true ∨ q.fault = true) : step s = .next { s with sched := rest } := by
  rw [step_consume hq hs, if_pos (Bool.or_eq_true_iff.mpr h), afterMove_self hq]

end

theorem hasResult_eq_false {q : Seq} {r : ResultReg}
    (h : r = .rdata ∧ q.rdata = none ∨ r = .rrec ∧ q.rrec = none) : q.hasResult r = false := by
  obtain ⟨rfl, h⟩ | ⟨rfl, h⟩ := h
  · exact Option.isSome_eq_false_iff.mpr (Option.isNone_iff_eq_none.mpr h)
  · exact Option.isSome_eq_false_iff.mpr (Option.isNone_iff_eq_none.mpr h)

theorem hasResult_eq_true {q : Seq} {r : ResultReg}
    (h : r = .rdata ∧ q.rdata ≠ none ∨ r = .rrec ∧ q.rrec ≠ none) : q.hasResult r = true := by
  obtain ⟨rfl, h⟩ | ⟨rfl, h⟩ := h
  · exact Option.isSome_iff_ne_none.mpr h
  · exact Option.isSome_iff_ne_none.mpr h

section
variable {s : State} {a v : Word} {rest : List Action}

theorem otherRead_of_ok (ho : s.cfg.otherMasters = true) (h : s.checkRead a = .ok v) :
    s.otherRead a = s.memRead .other a v := by
  simp only [State.otherRead, ho, if_true, h]

theorem checkWrite_of_ok {b : Word} {r : Reg} (h : s.checkWriteAddr a = .ok (b, r))
    (hv : checkWriteValue r a v = .ok ()) : s.checkWrite a v = .ok (b, r) :=
  (bind_eq_of_ok h).trans (bind_eq_of_ok hv)

theorem otherWrite_of_ok {b : Word} {r : Reg} (ho : s.cfg.otherMasters = true)
    (h : s.checkWrite a v = .ok (b, r)) : s.otherWrite a v = s.memWrite .other b r a v := by
  simp only [State.otherWrite, ho, if_true, h]

/-- Without P_OTHER_MASTERS a scheduled access of another master is consumed (20_memory.md R86, log 3). -/
theorem step_other_of_disabled (ho : s.cfg.otherMasters = false)
    (h : s.sched = .otherRead a :: rest ∨ s.sched = .otherWrite a v :: rest) :
    step s = .next { s with sched := rest } := by
  obtain h | h := h
  · rw [step_otherRead h]
    simp [State.otherRead, ho]
  · rw [step_otherWrite h]
    simp [State.otherWrite, ho]

end

end Sys2Proof.Machine
end

section
/-! The statements on the requester and on the other bus masters: O51, O54 and O55. -/

namespace Sys2Proof.Machine

/-- Settles O51: whether the register is empty and whether the sequencer is faulted already decide the move. -/
theorem consumingEmptyResultFaults : Obligations.ConsumingEmptyResultFaults := by
  unfold Obligations.ConsumingEmptyResultFaults
  intro s k q r rest hs hq
  refine ⟨fun hempty => ⟨fun hf => ?_, fun hf => step_consume_of_kept hq hs (.inr hf)⟩,
    fun hwritten => step_consume_of_kept hq hs (.inl (hasResult_eq_true hwritten))⟩
  rw [step_consume hq hs, hasResult_eq_false hempty, hf]
  rfl

/-- Settles O54: at a register of a port the checks pass, so the access is made and recorded. -/
theorem otherAccessIsOneAtomicAccess : Obligations.OtherAccessIsOneAtomicAccess := by
  unfold Obligations.OtherAccessIsOneAtomicAccess
  intro s b v w p r rest ho hm hp
  refine ⟨fun hother hs hread => ?_, fun hother hs hr hv => ?_, fun hother hs => step_other_of_disabled hother hs⟩
  · have hcheck := checkRead_port ho hm hp hread
    rw [step_otherRead hs, otherRead_of_ok (s := { s with sched := rest }) hother hcheck]
    rfl
  · have haddr := checkWriteAddr_port ho hm hp hr
    have hcheck := checkWrite_of_ok (s := { s with sched := rest }) haddr (checkWriteValue_eq_ok_iff.mpr hv)
    rw [step_otherWrite hs, otherWrite_of_ok (s := { s with sched := rest }) hother hcheck]
    rfl

/-- Settles O55: each move is one update of the requester's side of sequencer `k`. -/
theorem requesterWritesOnlyItsRegisters : Obligations.RequesterWritesOnlyItsRegisters := by
  unfold Obligations.RequesterWritesOnlyItsRegisters
  intro s k q rest hq
  exact ⟨fun w => step_operand hq, fun w => step_operand hq, fun w => step_operand hq, fun w => step_operand hq,
    fun r => step_operand hq, step_issue hq⟩

end Sys2Proof.Machine
end

section
/-! SUPPORT. A write inside the window of a read-modify-write (20_memory.md R77, R88): what the other agent's step leaves
to the write step, and that a second write of the register forgets the first. -/

namespace Sys2Proof.Machine

/-! ### Two writes of one register -/

theorem withPort_withPort (m : Memory) (b : Word) {f g : Port → Port} (hg : ∀ p, (g p).base = p.base) :
    (m.withPort b g).withPort b f = m.withPort b fun p => f (g p) := by
  rw [Memory.withPort, Memory.withPort, Memory.withPort, List.map_map]
  congr 1
  funext p
  by_cases hb : p.base = b <;> simp [hb, hg]

theorem withBit0_withBit0 (w : Word) (b b' : Bool) : withBit0 (withBit0 w b) b' = withBit0 w b' := by
  apply BitVec.eq_of_getLsbD_eq
  intro k _
  cases k with
  | zero => rw [withBit0_getLsbD_zero, withBit0_getLsbD_zero]
  | succ k => rw [withBit0_getLsbD_succ, withBit0_getLsbD_succ, withBit0_getLsbD_succ]

theorem scatterDir_scatterDir (cnf : Vector Word 32) (v w : Word) :
    scatterDir (scatterDir cnf v) w = scatterDir cnf w := by
  apply Vector.ext
  intro i hi
  have hcnf (u : Vector Word 32) (x : Word) : (scatterDir u x)[i] = withBit0 u[i] (x.getLsbD i) :=
    scatterDir_getElem u x ⟨i, hi⟩
  rw [hcnf, hcnf, hcnf, withBit0_withBit0]

/-- The registers a write replaces whole: OUT, the direction state, DETECTMODE and the configuration words
(10_state.md R43). -/
def Reg.Replaces (r : Reg) : Prop :=
  r = .out ∨ r = .dir ∨ r = .detectmode ∨ ∃ n, r = .pinCnf n

theorem Reg.Replaces.ne_inp {r : Reg} (h : r.Replaces) : r ≠ .inp := by
  rintro rfl
  obtain h | h | h | ⟨n, h⟩ := h <;> cases h

/-- Of two writes that replace a register the later one stands (20_memory.md R88). -/
theorem Port.write_write {r : Reg} (h : r.Replaces) (al : Bool) (v w : Word) (p : Port) :
    (p.write al r v).write al r w = p.write al r w := by
  obtain rfl | rfl | rfl | ⟨n, rfl⟩ := h
  · rfl
  · cases al with
    | false => rfl
    | true => simp only [Port.write, Port.setDirv_true, scatterDir_scatterDir]
  · rfl
  · simp only [Port.write_pinCnf, Vector.set_set]

/-! ### The other agent's step -/

section
variable {s t : State}

theorem Effect.sched_eq {q : Seq} (h : Effect s q t) : t.sched = s.sched := by
  cases h <;> rfl

theorem step_sched {m : Action} {rest : List Action} (hs : s.sched = m :: rest) (e : step s = .next t) :
    t.sched = rest := by
  have htail {m' : Action} {rest' : List Action} (h : s.sched = m' :: rest') : rest' = rest :=
    (List.cons.inj (h.symm.trans hs)).2
  cases step_effect e with
  | nobody h => cases h.symm.trans hs
  | accept k q rest' i _ hn hf hp hd he => exact he.sched_eq.trans (htail hn.1)
  | undecodable k q rest' c hn | write k q rest' h b r hn | writeFault k q rest' h x hn => exact htail hn.1
  | skip a rest' h | operand k w rest' h | issue k rest' h | consume k r rest' h | envIn b v rest' h
  | envLatch b m rest' h | otherRead a v rest' h | otherWrite a v b r rest' h | otherFault a x m' rest' h
  | reset d rest' h => exact htail h

theorem Effect.seqs_getElem?_of_ne {q : Seq} (h : Effect s q t) {k : Nat} (hk : k ≠ s.actor) :
    t.seqs[k]? = s.seqs[k]? := by
  have hmodify (l : List Seq) (f : Seq → Seq) : (l.modify s.actor f)[k]? = l[k]? :=
    List.getElem?_modify_ne f l hk.symm
  cases h with
  | store => rfl
  | fault | load | loadFault | rmwRead => exact hmodify ..
  | loadRecord => exact (hmodify ..).trans (hmodify ..)

/-- A sequencer's step changes no other sequencer (10_state.md R30). -/
theorem step_seqs_getElem?_of_ne {j k : Nat} {q : Seq} {rest : List Action} (hn : s.Next j q rest)
    (e : step s = .next t) (hk : k ≠ j) : t.seqs[k]? = s.seqs[k]? := by
  have hset (l : List Seq) (x : Seq) : (l.set j x)[k]? = l[k]? := List.getElem?_set_ne hk.symm
  cases step_seqStep hn e with
  | disabled => rfl
  | undecodable | write | writeFault => exact hset ..
  | accept i _ hf hp hi hd he =>
    have heffect := exec_effect (accepting_actor hn.2) he
    exact (heffect.seqs_getElem?_of_ne hk).trans (hset ..)

/-- A write of another master changes no sequencer, and the register file only by the write effect of the register at
its address (20_memory.md R86). -/
theorem otherWrite_cases (s : State) (a v : Word) :
    (s.otherWrite a v).seqs = s.seqs ∧ ((s.otherWrite a v).rf = s.rf ∨
      ∃ b r, s.checkWriteAddr a = .ok (b, r) ∧
        (s.otherWrite a v).rf = s.rf.withPort b (Port.write s.cfg.dirAlias r v)) := by
  unfold State.otherWrite
  split
  · split
    · rename_i b r hc
      exact ⟨rfl, .inr ⟨b, r, (checkWrite_ok hc).1, rfl⟩⟩
    · exact ⟨rfl, .inl rfl⟩
  · exact ⟨rfl, .inl rfl⟩

/-- A sequencer's step that is a write to `a` changes the register file only by the write effect of the register at
`a`. -/
theorem step_rf_of_stores {j : Nat} {q : Seq} {rest : List Action} {a : Word} (hn : s.Next j q rest)
    (hm : (Action.seq j).Stores s a) (e : step s = .next t) :
    t.rf = s.rf ∨ ∃ v b r, s.checkWriteAddr a = .ok (b, r) ∧
      t.rf = s.rf.withPort b (Port.write s.cfg.dirAlias r v) := by
  by_cases hrf : t.rf = s.rf
  · exact .inl hrf
  · obtain ⟨q', hq', hm⟩ := hm
    cases hn.2.symm.trans hq'
    obtain ⟨a', v, b, r, op, hw, hrf', -, hsource⟩ := registerChangesAreBusWrites s t j q rest hn e hrf
    have haddr : a' = a := by
      obtain ⟨hp, i, hd, -, ha⟩ | ⟨h, hp, ha, -⟩ := hsource
      · obtain ⟨-, i', hd', ha'⟩ | ⟨h', hp', -⟩ := hm
        · cases hd.symm.trans hd'
          exact Option.some.inj (ha.symm.trans ha')
        · cases hp.symm.trans hp'
      · obtain ⟨hp', -⟩ | ⟨h', hp', ha'⟩ := hm
        · cases hp'.symm.trans hp
        · cases hp.symm.trans hp'
          exact ha.symm.trans ha'
    exact .inr ⟨v, b, r, haddr ▸ hw, hrf'⟩

/-- A move of another agent that is a write to `a`, as a step: sequencer `k` is as it was, and the register file has at
most the write effect of the register at `a`. -/
theorem step_of_stores {m : Action} {k : Nat} {rest : List Action} {a : Word} (hs : s.sched = m :: rest)
    (hk : m ≠ .seq k) (hm : m.Stores s a) (e : step s = .next t) :
    t.seqs[k]? = s.seqs[k]? ∧ (t.rf = s.rf ∨ ∃ v b r, s.checkWriteAddr a = .ok (b, r) ∧
      t.rf = s.rf.withPort b (Port.write s.cfg.dirAlias r v)) := by
  cases m with
  | seq j =>
    obtain ⟨q, hq, -⟩ := id hm
    have hne : k ≠ j := by rintro rfl; exact hk rfl
    exact ⟨step_seqs_getElem?_of_ne ⟨hs, hq⟩ e hne, step_rf_of_stores ⟨hs, hq⟩ hm e⟩
  | otherWrite addr v =>
    obtain rfl : addr = a := hm
    cases (step_otherWrite hs).symm.trans e
    obtain ⟨hseqs, hrf | ⟨b, r, hw, hrf⟩⟩ := otherWrite_cases { s with sched := rest } addr v
    · exact ⟨congrArg (·[k]?) hseqs, .inl hrf⟩
    · exact ⟨congrArg (·[k]?) hseqs, .inr ⟨v, b, r, hw, hrf⟩⟩
  | operand | issue | consume | envIn | envLatch | otherRead | reset => exact hm.elim

end

end Sys2Proof.Machine
end

section
/-! The statement on a write inside the window of a read-modify-write: O34. -/

namespace Sys2Proof.Machine

/-- Settles O34: the other agent leaves the RMW pending and writes at most the same register, which the write step
replaces whole. -/
theorem writeInRmwWindowIsLost : Obligations.WriteInRmwWindowIsLost := by
  unfold Obligations.WriteInRmwWindowIsLost
  intro s k q m rest h b p r hs hk hm hq hf hph ho hwf hp ha hr hv
  have hreplaces : r.Replaces := hr
  have hbase (w : Word) (x : Port) : (x.write s.cfg.dirAlias r w).base = x.base := Port.write_base ..
  obtain ⟨s₁, e⟩ := everyStepAnswersNext s
  obtain ⟨hseq, hrf⟩ := step_of_stores hs hk hm e
  have hcfg := step_cfg e
  have hn : s₁.Next k q rest := ⟨step_sched hs e, hseq.trans hq⟩
  have hwrite {p₁ : Port} (hm₁ : s₁.rf.wf) (hp₁ : s₁.port? b = some p₁) :=
    step_rmwWrite_port hn hf hph (hcfg ▸ ho) hm₁ hp₁ (hcfg ▸ ha) hreplaces.ne_inp hv
  rw [hcfg] at hwrite
  obtain hrf | ⟨v, b', r', hw, hrf⟩ := hrf
  · have hp₁ : s₁.port? b = some p := (congrArg (List.find? _) hrf).trans hp
    exact ⟨s₁, _, e, hwrite (hrf ▸ hwf) hp₁, by rw [hrf]; rfl⟩
  · rw [ha, checkWriteAddr_port ho hwf hp hreplaces.ne_inp] at hw
    cases hw
    have hp₁ := port?_of_rf_eq_withPort (hbase v) hp hrf
    refine ⟨s₁, _, e, hwrite (hrf ▸ withPort_wf hwf b (hbase v)) hp₁, ?_⟩
    rw [hrf, withPort_withPort _ _ (hbase v)]
    simp only [Port.write_write hreplaces]
    rfl

end Sys2Proof.Machine
end
